-- ==== Sys2Proof/Word.lean ====
section
/-! DEFINITION. The word types of HUFF: the 32-bit register word, the byte, and the tables indexed by a symbol. -/

namespace Sys2Proof

/-- A 32-bit register or command word; bit 0 is the least significant (R13). -/
abbrev Word := BitVec 32

/-- One byte of `BUF`, and one symbol: "a value 0 to 255" (R19). -/
abbrev Byte := BitVec 8

/-- A 25-bit byte offset of the host offset space (R100, R160). -/
abbrev Offset := BitVec 25

/-- The index of a node slot, 9 bits; `NONE` = 0x1FF is no slot (R47, R50). -/
abbrev NodeIndex := BitVec 9

/-- A table with one entry per symbol (`SYM_COUNT` = 256, R11). -/
abbrev SymTable (α : Type) := Vector α 256

end Sys2Proof
end

