-- ==== Sys2Proof/Config.lean ====
section
/-! DEFINITION. What an implementation of HUFF fixes, and the free values: constants with no body, so that nothing
can be proved about which value they are. -/

namespace Sys2Proof.Config

/-- The constant of the `ID` register (R31). -/
def idWord : Word := 0x48554646#32

/-- The constant of the `VERSION` register (R32). -/
def versionWord : Word := 0x00000001#32

/-- `NONE`, the "no node" index (R11, R47). -/
def noNode : NodeIndex := 0x1FF#9

/-- `NODE_MAX`, the number of node slots (R11, R227). -/
def nodeMax : Nat := 511

/-- The host offset of the BUF window (R101). -/
def bufWindow : Nat := 0x1000000

/-- DESIGN CHOICE (log entry 1): the value of the open parameter `BUF_BYTES` in `State.reset`; the size the
spec's test vectors use (R11). It is a field of State, so a statement about every state holds for every size. -/
def resetBufBytes : Nat := 65536

/-- DESIGN CHOICE (log entry 2): what a byte of `BUF` that memory does not list reads as. -/
def background : Byte := 0#8

/-- DESIGN CHOICE (log entry 9): how many stack entries the code derivation may pop. A pool without a cycle never
needs more, whatever its shape: at most 2^NODE_MAX - 1 paths start at a slot when no node is reached from itself. So
only a traversal that never ends runs out. -/
@[irreducible] def traversalFuel : Nat := 2 ^ nodeMax

/-- `HUFF_BASE`, where the platform puts the block (R107): a free parameter that no rule of the block reads
(log entry 13). -/
opaque huffBase : Nat

/-- The `draw` of a host read (R353): the free value of the n-th drawing step (log entry 4). -/
opaque drawWord : Nat → BitVec 32

/-- A byte of `BUF` that a reset leaves unspecified (R451, R454): step number, address (log entry 8). -/
opaque drawBuf : Nat → Nat → BitVec 8

/-- A `FREQ` entry that a reset leaves unspecified (R451): step number, symbol (log entry 8). -/
opaque drawFreq : Nat → BitVec 8 → BitVec 64

/-- A `CODE_LEN` entry that a reset leaves unspecified (R451): step number, symbol (log entry 8). -/
opaque drawCodeLen : Nat → BitVec 8 → BitVec 8

/-- A `CODE_BITS` entry that a reset leaves unspecified (R451): step number, symbol (log entry 8). -/
opaque drawCodeBits : Nat → BitVec 8 → BitVec 255

/-- The five fields, 91 bits, of a node slot that is left unspecified by a reset (R451) or by a command that uses
fewer slots (R230): step number, slot (log entries 7 and 8). -/
opaque drawNode : Nat → Nat → BitVec 91

end Sys2Proof.Config
end

