-- ==== Sys2Proof/Syntax.lean ====
section
/-! DEFINITION. The instructions of HUFF: its ten commands (R18, R153). A command has no register field and no
immediate (R150): every operand is an operand register or internal state (R152). -/

namespace Sys2Proof

/-- One constructor per row of spec/opcode_table.json. -/
inductive Instr where
  /-- 0x00 NOP (R365). -/
  | nop
  /-- 0x01 CLEAR (R201). -/
  | clear
  /-- 0x02 COUNT (R202). -/
  | count
  /-- 0x03 BUILD (R230). -/
  | build
  /-- 0x04 DERIVE (R256). -/
  | derive
  /-- 0x05 PACK (R276). -/
  | pack
  /-- 0x06 UNPACK (R286). -/
  | unpack
  /-- 0x07 ENCODE (R315). -/
  | encode
  /-- 0x08 PARSE (R325). -/
  | parse
  /-- 0x09 DECODE (R330). -/
  | decode
deriving DecidableEq, Repr

end Sys2Proof
end

