-- ==== Sys2Proof/WellFormed.lean ====
section
/-! DEFINITION. What is well formed: a command word (R150, R153), an instruction, a choice of the open parameter
`BUF_BYTES` (R11). -/

namespace Sys2Proof

/-- The format `CMD32`: the reserved bits 31:8 are 0 (R150) and the opcode of bits 7:0 is one of the ten (R153). -/
def wordWellFormed (w : Word) : Bool :=
  w.extractLsb' 8 24 == 0#24 && decide ((w.extractLsb' 0 8).toNat < 10)

/-- A command carries no operand field (R150, R152), so the encoding restricts no instruction term: the checks are
on the word. -/
def Instr.wellFormed : Instr → Bool
  | .nop | .clear | .count | .build | .derive | .pack | .unpack | .encode | .parse | .decode => true

/-- The range of the open parameter: a multiple of 4 with 4 ≤ BUF_BYTES ≤ 2^24 (R11). -/
def legalBufBytes (n : Nat) : Bool :=
  n % 4 == 0 && decide (4 ≤ n) && decide (n ≤ 2 ^ 24)

end Sys2Proof
end

