-- ==== Sys2Proof/Decode.lean ====
section
/-! DEFINITION. The command word: decoding, total on every 32-bit word (R155), and the encoder (R150, R153). -/

namespace Sys2Proof

/-- Why a word is illegal (R154). -/
inductive Illegal where
  /-- Bits 31:8 are not 0, whatever the opcode. -/
  | reservedBits
  /-- Bits 31:8 are 0 and the opcode is 0x0A to 0xFF. -/
  | unassignedOpcode
deriving DecidableEq, Repr

/-- The field `op`, bits 7:0 (R150). -/
def opField (w : Word) : Byte := w.extractLsb' 0 8

/-- The field `rsvd`, bits 31:8 (R150). -/
def rsvdField (w : Word) : BitVec 24 := w.extractLsb' 8 24

/-- The opcode map (R153). -/
def decodeOpcode (op : Byte) : Except Illegal Instr :=
  match op.toNat with
  | 0x00 => .ok .nop
  | 0x01 => .ok .clear
  | 0x02 => .ok .count
  | 0x03 => .ok .build
  | 0x04 => .ok .derive
  | 0x05 => .ok .pack
  | 0x06 => .ok .unpack
  | 0x07 => .ok .encode
  | 0x08 => .ok .parse
  | 0x09 => .ok .decode
  | _ => .error .unassignedOpcode

/-- `decodeCmd` (R155). -/
def decodeCmd (w : Word) : Except Illegal Instr :=
  if rsvdField w ≠ 0#24 then .error .reservedBits else decodeOpcode (opField w)

/-- The opcode of a command (R153). -/
def opcodeOf : Instr → Byte
  | .nop => 0x00
  | .clear => 0x01
  | .count => 0x02
  | .build => 0x03
  | .derive => 0x04
  | .pack => 0x05
  | .unpack => 0x06
  | .encode => 0x07
  | .parse => 0x08
  | .decode => 0x09

/-- The word of a command: opcode in bits 7:0, bits 31:8 zero (R150). -/
def encode (i : Instr) : Word := 0#24 ++ opcodeOf i

/-- The instruction the decoder reads from the `nbits` low bits of `w`, the bits above being 0. A command is one
32-bit word (R151), so a number that needs more bits is refused. -/
def decodeTableWord (nbits w : Nat) : Option Instr :=
  if w % 2 ^ nbits < 2 ^ 32 then (decodeCmd (BitVec.ofNat 32 (w % 2 ^ nbits))).toOption else none

end Sys2Proof
end

