-- ==== Sys2Proof/Machine/State.lean ====
section
/-! DEFINITION. The state of HUFF (10_state.md): every register, flag, table and memory the spec names, as plain
data; what the environment does next; the reasons a step can stop; and the state after reset. -/

namespace Sys2Proof.Machine

/-- The error causes of R402. `none` is the value after reset; every other name is one row of the table. The
reserved codes have no name, because they are never written (R402). -/
inductive Cause where
  | none
  | illegalCmd
  | sequence
  | srcRange
  | dstRange
  | rangeOverlap
  | freqOverflow
  | dstOverflow
  | symbolAbsent
  | fmtHdrShort
  | fmtPadding
  | fmtNsym
  | fmtTableOrder
  | fmtZeroFreq
  | fmtSum
  | fmtExhausted
  | fmtBadcode
  | fmtCount
  | fmtTrailing
deriving DecidableEq, Repr

/-- One node slot (R50): `kind` 0 is a leaf, 1 an internal node. -/
structure Node where
  kind  : BitVec 1
  sym   : Byte
  f     : BitVec 64
  left  : NodeIndex
  right : NodeIndex
deriving DecidableEq, Repr

/-- The bus response of a transaction (R160, R161, R350). -/
inductive Resp where
  | okay
  | slverr
deriving DecidableEq, Repr

/-- What the block answers to one host transaction: a read carries data, a write does not (R160, R161). -/
inductive Response where
  | read (resp : Resp) (data : Word)
  | write (resp : Resp)
deriving DecidableEq, Repr

/-- One thing the environment does (log entry 5). -/
inductive Input where
  /-- `Read(off)` (R160). -/
  | read (off : Offset)
  /-- `Write(off, wdata, strb)` (R161). -/
  | write (off : Offset) (data : Word) (strb : BitVec 4)
  /-- The engine gets its turn: it takes its completion step if it is busy (R361). -/
  | engineTurn
  /-- The platform asserts the reset input (R450; log entry 14). -/
  | hardReset
deriving DecidableEq, Repr

/-- The bytes of `BUF` (R53): address and byte, in the canonical form `Memory.wf`; an address not listed reads as
`Config.background`. -/
abbrev Memory := List Host.Cell

structure State where
  /-- The parameter `BUF_BYTES`, read in `BUF_SIZE` (R33); no step writes it. -/
  bufBytes   : Nat
  /-- `CTRL.DONE_IE` (R34). -/
  doneIE     : Bool
  /-- `CTRL.ERR_IE` (R34). -/
  errIE      : Bool
  /-- `STATUS.BUSY` (R35). -/
  busy       : Bool
  /-- `STATUS.DONE` (R35). -/
  done       : Bool
  /-- `STATUS.ERR` (R35). -/
  err        : Bool
  /-- `STATUS.OVR` (R35). -/
  ovr        : Bool
  /-- `STATUS.FREQ_VALID` (R35, R64). -/
  freqValid  : Bool
  /-- `STATUS.TREE_VALID` (R35, R64). -/
  treeValid  : Bool
  /-- `STATUS.CODES_VALID` (R35, R64). -/
  codesValid : Bool
  /-- `CMD_LAST` (R36): the last accepted word; the command in flight while `busy` (R40). -/
  cmdLast    : Word
  /-- `ERR_CAUSE` (R37). -/
  errCause   : Cause
  /-- `ERR_INFO` (R38). -/
  errInfo    : Word
  /-- `SRC_BASE` (R39). -/
  srcBase    : Word
  /-- `SRC_LEN` (R39). -/
  srcLen     : Word
  /-- `DST_BASE` (R39). -/
  dstBase    : Word
  /-- `DST_CAP` (R39). -/
  dstCap     : Word
  /-- `DST_LEN` (R41). -/
  dstLen     : Word
  /-- `HDR_LEN` (R42). -/
  hdrLen     : Word
  /-- `PADDING` (R43). -/
  padding    : BitVec 3
  /-- `NSYM` (R44). -/
  nsym       : BitVec 9
  /-- `TOTAL` (R45). -/
  total      : BitVec 64
  /-- `TOTAL_BITS` (R46). -/
  totalBits  : BitVec 72
  /-- `ROOT` (R47). -/
  root       : NodeIndex
  /-- `NODES` (R48). -/
  nodes      : BitVec 10
  /-- `FREQ[0..255]` (R49). -/
  freq       : SymTable (BitVec 64)
  /-- `NODE[0..510]` (R50). -/
  node       : Vector Node 511
  /-- `CODE_LEN[0..255]` (R51). -/
  codeLen    : SymTable (BitVec 8)
  /-- `CODE_BITS[0..255]` (R51). -/
  codeBits   : SymTable (BitVec 255)
  /-- `BUF[0 .. BUF_BYTES − 1]` (R53). -/
  buf        : Memory
  /-- The model's own (log entry 5): what the environment does next, oldest first. -/
  inputs     : List Input
  /-- The model's own (log entry 6): the answer to the latest host transaction. -/
  response   : Option Response
  /-- The model's own (log entry 4): how many steps have drawn free values. -/
  draws      : Nat
deriving DecidableEq, Repr

/-- Why the machine stops. HUFF itself never does ("No behaviour of HUFF is stuck", 93_implementation_defined.md):
both reasons are raised only in states that no run reaches (log entry 9), and both are SAFE, since the machine
stops where the spec gives no next state. -/
inductive Fault where
  /-- Raised by UNPACK and DECODE when the tree walk (R282) would read `NODE[NONE]`, a slot that does not exist
  (R50). Safe. -/
  | noSuchNode
  /-- Raised by DERIVE and ENCODE when the traversal of R252 would never empty its stack, because the pool has a
  cycle, which no tree has (R229). Safe. -/
  | endlessTraversal
deriving DecidableEq, Repr

/-- Why an instruction has no meaning. -/
inductive Refusal where
  /-- Raised by an arm of `exec` whose instruction the model gives no meaning; no arm of this model does. Safe. -/
  | notModelled (mnemonic : String)
deriving DecidableEq, Repr

/-- A slot of the node pool at `State.reset` (DESIGN CHOICE, log entry 3: the spec leaves it unspecified). -/
def Node.blank : Node := { kind := 0, sym := 0, f := 0, left := 0, right := 0 }

/-- The machine right after reset (R63, R450, R452). The tables and `BUF`, which R451 leaves unspecified, hold the
values of log entries 2 and 3; the model's own fields those of log entries 1, 4, 5 and 6. -/
def State.reset : State where
  bufBytes   := Config.resetBufBytes
  doneIE     := false
  errIE      := false
  busy       := false
  done       := false
  err        := false
  ovr        := false
  freqValid  := false
  treeValid  := false
  codesValid := false
  cmdLast    := 0
  errCause   := .none
  errInfo    := 0
  srcBase    := 0
  srcLen     := 0
  dstBase    := 0
  dstCap     := 0
  dstLen     := 0
  hdrLen     := 0
  padding    := 0
  nsym       := 0
  total      := 0
  totalBits  := 0
  root       := Config.noNode
  nodes      := 0
  freq       := Vector.replicate 256 0
  node       := Vector.replicate 511 Node.blank
  codeLen    := Vector.replicate 256 0
  codeBits   := Vector.replicate 256 0
  buf        := []
  inputs     := []
  response   := none
  draws      := 0

end Sys2Proof.Machine
end

