-- ==== Sys2Proof/Machine/Ops.lean ====
section
/-! DEFINITION. The shared operations: bytes of `BUF`, big-endian integers, tables indexed by a symbol, the node
pool, and the three things that end or start a command: acceptance, success, and an error (`raise`), which takes the
place of exception entry in HUFF (R400, R414). -/

namespace Sys2Proof.Machine

/-- What one engine step or one meaning answers. -/
abbrev Result := Host.Outcome State Fault Refusal

/-! ### Memory -/

/-- The byte `BUF[a]`. -/
def Memory.read : Memory → Nat → Byte
  | [], _ => Config.background
  | c :: m, a => if c.1 = a then c.2 else Memory.read m a

/-- `BUF[a] <- v`, keeping the canonical form: addresses rising, no entry equal to the background. -/
def Memory.write : Memory → Nat → Byte → Memory
  | [], a, v => if v = Config.background then [] else [(a, v)]
  | c :: m, a, v =>
    if a < c.1 then (if v = Config.background then c :: m else (a, v) :: c :: m)
    else if a = c.1 then (if v = Config.background then m else (a, v) :: m)
    else c :: Memory.write m a v

/-- The canonical form: addresses strictly rising, no entry equal to what an unlisted address reads as. -/
def Memory.wf : Memory → Bool
  | [] => true
  | c :: m => c.2 != Config.background && m.all (fun d => decide (c.1 < d.1)) && Memory.wf m

/-- The `len` bytes from `base` on, lowest address first: the `MemRead(base + j, 1)` of R15 for j in 0 .. len − 1. -/
def Memory.readBytes (m : Memory) (base len : Nat) : List Byte :=
  (List.range len).map fun j => m.read (base + j)

/-- Store `bytes` from `base` on: `MemWrite(base + k, 1, bytes[k])` (R15) in ascending k. -/
def Memory.writeBytes : Memory → Nat → List Byte → Memory
  | m, _, [] => m
  | m, base, b :: bs => Memory.writeBytes (m.write base b) (base + 1) bs

/-- Store `f a` at every address a of `lo .. lo + n − 1`. -/
def Memory.fill (m : Memory) (lo n : Nat) (f : Nat → Byte) : Memory :=
  m.writeBytes lo ((List.range n).map fun j => f (lo + j))

/-! ### Big-endian integers (R121) -/

/-- `be_N(v)`: the N bytes of v, most significant first. -/
def toBe (n v : Nat) : List Byte :=
  (List.range n).map fun k => BitVec.ofNat 8 (v / 256 ^ (n - 1 - k))

/-- The number whose big-endian bytes are given. -/
def ofBe (bytes : List Byte) : Nat :=
  bytes.foldl (fun v b => v * 256 + b.toNat) 0

/-! ### Bits of a byte string (R272, R123, R274) -/

/-- `ceil8(b)`: the bytes needed for b bits (R15). -/
def ceil8 (b : Nat) : Nat := (b + 7) / 8

/-- `pad(b)`: the padding bits after b bits, 0 to 7 and never 8 (R274). -/
def pad (b : Nat) : Nat := (8 - b % 8) % 8

/-! ### Tables indexed by a symbol -/

/-- The 256 symbols in ascending order. -/
@[irreducible] def symbols : List Byte := (List.range 256).map (BitVec.ofNat 8)

/-- The entry of symbol s. -/
def symAt {α : Type} (t : SymTable α) (s : Byte) : α := t[s.toNat]'s.isLt

/-- The table whose entry at s is f s. -/
def symTable {α : Type} (f : Byte → α) : SymTable α :=
  ⟨((List.range 256).map fun i => f (BitVec.ofNat 8 i)).toArray, by simp⟩

/-- The table whose entry at s is f s of the entry of t at s. -/
def symMap {α β : Type} (f : Byte → α → β) (t : SymTable α) : SymTable β :=
  ⟨(List.zipWith f symbols t.toList).toArray, by simp [symbols]⟩

/-- The table with the entry of s replaced. -/
def symSet {α : Type} (t : SymTable α) (s : Byte) (v : α) : SymTable α := t.set s.toNat v s.isLt

/-- `Σ_s FREQ[s]` (R45). -/
def tableSum (F : SymTable (BitVec 64)) : Nat := (F.toList.map BitVec.toNat).sum

/-- The present symbols in ascending order: those with `FREQ[s] > 0` (R19, R221). -/
def present (F : SymTable (BitVec 64)) : List Byte :=
  ((symbols.zip F.toList).filter fun e => e.2 != 0#64).map Prod.fst

/-! ### The node pool (R50) -/

/-- `NODE[i]`; there is no slot `NODE[NONE]`. -/
def nodeAt (pool : Vector Node 511) (i : NodeIndex) : Option Node := pool[i.toNat]?

/-- A slot with the given 91 bits in its five fields. -/
def Node.ofBits (b : BitVec 91) : Node where
  kind  := b.extractLsb' 90 1
  sym   := b.extractLsb' 82 8
  f     := b.extractLsb' 18 64
  left  := b.extractLsb' 9 9
  right := b.extractLsb' 0 9

/-- The pool that holds `ns` in its first slots; the slots after them are unspecified (R230), free values of the
drawing step n (log entry 7). -/
def fillPool (n : Nat) (ns : List Node) : Vector Node 511 :=
  ⟨((List.range 511).map fun i => (ns[i]?).getD (Node.ofBits (Config.drawNode n i))).toArray, by simp⟩

/-! ### Errors: the cause codes and their entry -/

/-- The code of a cause (R402). -/
def Cause.code : Cause → Byte
  | .none => 0x00
  | .illegalCmd => 0x01
  | .sequence => 0x02
  | .srcRange => 0x03
  | .dstRange => 0x04
  | .rangeOverlap => 0x05
  | .freqOverflow => 0x06
  | .dstOverflow => 0x07
  | .symbolAbsent => 0x08
  | .fmtHdrShort => 0x10
  | .fmtPadding => 0x11
  | .fmtNsym => 0x12
  | .fmtTableOrder => 0x13
  | .fmtZeroFreq => 0x14
  | .fmtSum => 0x15
  | .fmtExhausted => 0x16
  | .fmtBadcode => 0x17
  | .fmtCount => 0x18
  | .fmtTrailing => 0x19

/-- The class "walk" of R402; every other cause of an error is of class "pre". -/
def Cause.isWalk : Cause → Bool
  | .fmtExhausted | .fmtBadcode | .fmtCount | .fmtTrailing => true
  | .none | .illegalCmd | .sequence | .srcRange | .dstRange | .rangeOverlap | .freqOverflow | .dstOverflow
  | .symbolAbsent | .fmtHdrShort | .fmtPadding | .fmtNsym | .fmtTableOrder | .fmtZeroFreq | .fmtSum => false

/-- `ERR_INFO` of DST_OVERFLOW: `min(need, 2^32 − 1)` (R402). -/
def neededInfo (need : Nat) : Word := BitVec.ofNat 32 (min need (2 ^ 32 - 1))

/-- An error completion (R361, R400, R410): the cause and its information are recorded, `ERR` and `DONE` are set,
`BUSY` is cleared; the writes already in `s` are kept. -/
def raise (cause : Cause) (info : Word) (s : State) : Result :=
  .next { s with errCause := cause, errInfo := info, err := true, busy := false, done := true }

/-- A successful completion (R361). -/
def succeed (s : State) : Result :=
  .next { s with busy := false, done := true }

/-- One check of a command's pseudocode: what must hold, and the error when it does not. -/
structure Check where
  ok    : Bool
  cause : Cause
  info  : Word

/-- The first check that fails (R403). -/
def firstFailure : List Check → Option (Cause × Word)
  | [] => none
  | c :: cs => if c.ok then firstFailure cs else some (c.cause, c.info)

/-- Make the checks in order; the first that fails ends the command with its error, nothing being written (R403,
R410, R411). -/
def checked (cs : List Check) (s : State) (k : Unit → Result) : Result :=
  match firstFailure cs with
  | some e => raise e.1 e.2 s
  | none => k ()

/-- Acceptance of a command (R357). -/
def accept (w : Word) (s : State) : State :=
  { s with cmdLast := w, busy := true, done := false }

end Sys2Proof.Machine
end

