-- ==== Sys2Proof/Machine/AddressMap.lean ====
section
/-! DEFINITION. The host address map (R58): which register, table word or BUF word an offset names. -/

namespace Sys2Proof.Machine

/-- The registers of R58. -/
inductive Reg where
  | id | version | bufSize | ctrl | status | cmd | errCause | errInfo
  | srcBase | srcLen | dstBase | dstCap
  | dstLen | hdrLen | padding | nsym | totalLo | totalHi | totalBits0 | totalBits1 | totalBits2 | root | nodes
deriving DecidableEq, Repr

/-- The offset of a register (R58). -/
def Reg.offset : Reg → Nat
  | .id => 0x000
  | .version => 0x004
  | .bufSize => 0x008
  | .ctrl => 0x00C
  | .status => 0x010
  | .cmd => 0x014
  | .errCause => 0x018
  | .errInfo => 0x01C
  | .srcBase => 0x020
  | .srcLen => 0x024
  | .dstBase => 0x028
  | .dstCap => 0x02C
  | .dstLen => 0x030
  | .hdrLen => 0x034
  | .padding => 0x038
  | .nsym => 0x03C
  | .totalLo => 0x040
  | .totalHi => 0x044
  | .totalBits0 => 0x048
  | .totalBits1 => 0x04C
  | .totalBits2 => 0x050
  | .root => 0x054
  | .nodes => 0x058

/-- Every register, in the order of R58. -/
def Reg.all : List Reg :=
  [.id, .version, .bufSize, .ctrl, .status, .cmd, .errCause, .errInfo, .srcBase, .srcLen, .dstBase, .dstCap] ++
  [.dstLen, .hdrLen, .padding, .nsym, .totalLo, .totalHi, .totalBits0, .totalBits1, .totalBits2, .root, .nodes]

/-- What a mapped offset names. -/
inductive Target where
  | reg (r : Reg)
  /-- Word 0 (low) or 1 (high) of `FREQ[s]` (R59). -/
  | freq (s : Byte) (w : Nat)
  /-- Word w of `NODE[i]` (R60). -/
  | node (i : Nat) (w : Nat)
  /-- Word w of the codebook entry of s (R61). -/
  | code (s : Byte) (w : Nat)
  /-- The word of `BUF[4k .. 4k+3]` (R101). -/
  | buf (k : Nat)
deriving DecidableEq, Repr

/-- The offset is a multiple of 4 (R350). -/
def aligned (off : Offset) : Bool := off.toNat % 4 == 0

/-- The decoding of an aligned offset (R58); `none` is unmapped (R352). -/
def decodeOffset (bufBytes : Nat) (off : Offset) : Option Target :=
  let a := off.toNat
  if a < 0x1000 then (Reg.all.find? fun r => r.offset = a).map .reg
  else if a < 0x1800 then some (.freq (BitVec.ofNat 8 ((a - 0x1000) / 8)) ((a - 0x1000) % 8 / 4))
  else if a < 0x2000 then none
  else if a < 0x3FF0 then some (.node ((a - 0x2000) / 16) ((a - 0x2000) % 16 / 4))
  else if a < 0x4000 then none
  else if a < 0x8000 then some (.code (BitVec.ofNat 8 ((a - 0x4000) / 64)) ((a - 0x4000) % 64 / 4))
  else if a < Config.bufWindow then none
  else if a < Config.bufWindow + bufBytes then some (.buf ((a - Config.bufWindow) / 4))
  else none

/-- The offset of a target: the other direction of R58, R59, R60, R61, R101. -/
def Target.offset : Target → Nat
  | .reg r => r.offset
  | .freq s w => 0x1000 + 8 * s.toNat + 4 * w
  | .node i w => 0x2000 + 16 * i + 4 * w
  | .code s w => 0x4000 + 64 * s.toNat + 4 * w
  | .buf k => Config.bufWindow + 4 * k

end Sys2Proof.Machine
end

