-- ==== Sys2Proof/Machine/Operands.lean ====
section
/-! DEFINITION. The operands of commands: the operand registers (R39), the ranges they name and the range checks
(R131, R132), and how a write with byte strobes stores into a register (R351). -/

namespace Sys2Proof.Machine

/-- `srcInRange` (R131), on unbounded naturals. -/
def State.srcInRange (s : State) : Bool := decide (s.srcBase.toNat + s.srcLen.toNat ≤ s.bufBytes)

/-- `dstInRange` (R131). -/
def State.dstInRange (s : State) : Bool := decide (s.dstBase.toNat + s.dstCap.toNat ≤ s.bufBytes)

/-- `overlap` (R131): both ranges are non-empty and share a byte. -/
def State.overlap (s : State) : Bool :=
  decide (0 < s.srcLen.toNat) && decide (0 < s.dstCap.toNat) &&
    decide (max s.srcBase.toNat s.dstBase.toNat <
      min (s.srcBase.toNat + s.srcLen.toNat) (s.dstBase.toNat + s.dstCap.toNat))

/-- The check of the source range (R132). -/
def State.srcCheck (s : State) : Check := ⟨s.srcInRange, .srcRange, 0⟩

/-- The three range checks of a command with output, in the order of R132. -/
def State.rangeChecks (s : State) : List Check :=
  [s.srcCheck, ⟨s.dstInRange, .dstRange, 0⟩, ⟨!s.overlap, .rangeOverlap, 0⟩]

/-- The check of a validity bit; the information of SEQUENCE is the mask of the missing bit (R402). -/
def sequenceCheck (valid : Bool) (mask : Word) : Check := ⟨valid, .sequence, mask⟩

/-- The bytes of the source range, `BUF[SRC_BASE .. SRC_BASE + SRC_LEN − 1]`. -/
def State.srcBytes (s : State) : List Byte := s.buf.readBytes s.srcBase.toNat s.srcLen.toNat

/-- `BUF` with `bytes` stored from `DST_BASE` on. -/
def State.storeDst (s : State) (bytes : List Byte) : Memory := s.buf.writeBytes s.dstBase.toNat bytes

/-- `mask` of R351: 0xFF in every strobed lane. -/
def laneMask (strb : BitVec 4) : Word :=
  (if strb.getLsbD 0 then 0x000000FF else 0) ||| (if strb.getLsbD 1 then 0x0000FF00 else 0) |||
    (if strb.getLsbD 2 then 0x00FF0000 else 0) ||| (if strb.getLsbD 3 then 0xFF000000 else 0)

/-- A register after a write with byte strobes (R351). -/
def mergeLanes (old data : Word) (strb : BitVec 4) : Word :=
  (old &&& ~~~ laneMask strb) ||| (data &&& laneMask strb)

/-- Byte lane j of a word, bits 8j+7:8j (R161). -/
def laneByte (w : Word) (j : Nat) : Byte := w.extractLsb' (8 * j) 8

end Sys2Proof.Machine
end

