-- ==== Sys2Proof/Machine/Flags.lean ====
section
/-! DEFINITION. `STATUS` and `CTRL`: what they read as (R34, R35, R353), the interrupt output (R57), and what a
write to them does (R359, R360). HUFF has no other flag and no condition code (R64). -/

namespace Sys2Proof.Machine

/-- The interrupt output (R57). -/
def State.irq (s : State) : Bool := (s.done && s.doneIE) || (s.err && s.errIE)

/-- A 32-bit word with the given bits 7 .. 0 and bits 31:8 zero. -/
def lowByteWord (b7 b6 b5 b4 b3 b2 b1 b0 : Bool) : Word :=
  0#24 ++ (BitVec.ofBool b7 ++ BitVec.ofBool b6 ++ BitVec.ofBool b5 ++ BitVec.ofBool b4 ++
    BitVec.ofBool b3 ++ BitVec.ofBool b2 ++ BitVec.ofBool b1 ++ BitVec.ofBool b0)

/-- What `STATUS` reads as (R35, R353). While busy, DONE and ERR read 0 and bits 6:4 are those of the draw `d`. -/
def State.statusWord (s : State) (d : Word) : Word :=
  if s.busy then
    lowByteWord s.irq (d.getLsbD 6) (d.getLsbD 5) (d.getLsbD 4) s.ovr false false true
  else
    lowByteWord s.irq s.codesValid s.treeValid s.freqValid s.ovr s.err s.done false

/-- What `CTRL` reads as (R34): bits 1:0 as stored, SRST and the reserved bits 0. -/
def State.ctrlWord (s : State) : Word :=
  lowByteWord false false false false false false s.errIE s.doneIE

/-- A write to `STATUS` (R359): the acknowledgement of an error, HUFF's return from it (R415). -/
def writeStatus (data : Word) (strb : BitVec 4) (s : State) : State :=
  if strb.getLsbD 0 then
    { s with
      done := s.done && !data.getLsbD 1
      err  := s.err && !data.getLsbD 2
      ovr  := s.ovr && !data.getLsbD 3 }
  else s

/-- A write to `CTRL` asks for the soft reset (R351, R360). -/
def asksSoftReset (data : Word) (strb : BitVec 4) : Bool := strb.getLsbD 3 && data.getLsbD 31

/-- A write to `CTRL` that does not ask for the soft reset (R360). -/
def writeEnables (data : Word) (strb : BitVec 4) (s : State) : State :=
  if strb.getLsbD 0 then { s with doneIE := data.getLsbD 0, errIE := data.getLsbD 1 } else s

/-- A dropped write (R358): nothing changes but `OVR`. -/
def dropWrite (s : State) : State := { s with ovr := true }

end Sys2Proof.Machine
end

