-- ==== Sys2Proof/Machine/Bus.lean ====
section
/-! DEFINITION. Host transactions (45_control.md) and the reset events (70_reset_and_hazards.md). -/

namespace Sys2Proof.Machine

/-! ### Reads (R353) -/

/-- A value the engine writes: the draw while busy, else the value held (R353). -/
def State.hidden (s : State) (d v : Word) : Word := if s.busy then d else v

/-- The word a register reads as; `d` is the draw of this read (R353, 10_state.md). -/
def readReg (s : State) (d : Word) : Reg → Word
  | .id => Config.idWord
  | .version => Config.versionWord
  | .bufSize => BitVec.ofNat 32 s.bufBytes
  | .ctrl => s.ctrlWord
  | .status => s.statusWord d
  | .cmd => s.cmdLast
  | .errCause => s.hidden d (s.errCause.code.setWidth 32)
  | .errInfo => s.hidden d s.errInfo
  | .srcBase => s.srcBase
  | .srcLen => s.srcLen
  | .dstBase => s.dstBase
  | .dstCap => s.dstCap
  | .dstLen => s.hidden d s.dstLen
  | .hdrLen => s.hidden d s.hdrLen
  | .padding => s.hidden d (s.padding.setWidth 32)
  | .nsym => s.hidden d (s.nsym.setWidth 32)
  | .totalLo => s.hidden d (s.total.extractLsb' 0 32)
  | .totalHi => s.hidden d (s.total.extractLsb' 32 32)
  | .totalBits0 => s.hidden d (s.totalBits.extractLsb' 0 32)
  | .totalBits1 => s.hidden d (s.totalBits.extractLsb' 32 32)
  | .totalBits2 => s.hidden d (s.totalBits.extractLsb' 64 32)
  | .root => s.hidden d (s.root.setWidth 32)
  | .nodes => s.hidden d (s.nodes.setWidth 32)

/-- Word w of a FREQ entry (R59). -/
def freqWord (f : BitVec 64) (w : Nat) : Word := f.extractLsb' (32 * w) 32

/-- Word w of a node slot (R60). -/
def nodeWord (nd : Node) : Nat → Word
  | 0 => 0#16 ++ nd.sym ++ 0#7 ++ nd.kind
  | 1 => 0#7 ++ nd.right ++ 0#7 ++ nd.left
  | 2 => nd.f.extractLsb' 0 32
  | _ => nd.f.extractLsb' 32 32

/-- Word w of a codebook entry (R61): the length in word 0, the 256-bit view of the code from word 8 on. -/
def codeWord (len : BitVec 8) (bits : BitVec 255) (w : Nat) : Word :=
  if w = 0 then len.setWidth 32
  else if w < 8 then 0
  else (bits.setWidth 256).extractLsb' (32 * (w - 8)) 32

/-- The word of `BUF[4k .. 4k+3]`, little-endian lanes (R101). -/
def bufWord (m : Memory) (k : Nat) : Word :=
  m.read (4 * k + 3) ++ m.read (4 * k + 2) ++ m.read (4 * k + 1) ++ m.read (4 * k)

/-- The word a mapped offset reads as; `d` is the draw of this read (R353). -/
def readTarget (s : State) (d : Word) : Target → Word
  | .reg r => readReg s d r
  | .freq x w => if s.freqValid then s.hidden d (freqWord (symAt s.freq x) w) else d
  | .node i w =>
    if s.treeValid && decide (i < s.nodes.toNat) then
      s.hidden d ((s.node[i]?).elim d fun nd => nodeWord nd w)
    else d
  | .code x w => if s.codesValid then s.hidden d (codeWord (symAt s.codeLen x) (symAt s.codeBits x) w) else d
  | .buf k => s.hidden d (bufWord s.buf k)

/-- What a read answers (R350, R352, R353). -/
def readAnswer (s : State) (d : Word) (off : Offset) : Response :=
  if !aligned off then .read .slverr 0
  else
    match decodeOffset s.bufBytes off with
    | none => .read .slverr 0
    | some t => .read .okay (readTarget s d t)

/-- `Read(off)`: a read changes no state of HUFF (R106, R353); only the answer and the count of draws, the model's
own fields, move. -/
def hostRead (off : Offset) (s : State) : State :=
  { s with response := some (readAnswer s (Config.drawWord s.draws) off), draws := s.draws + 1 }

/-! ### Resets (R450 to R454) -/

/-- The registers and flags at their reset values (R63), the tables unspecified (R451): free values of the drawing
step n (log entry 8); `BUF` as given; the parameter and the model's own fields kept. -/
def resetWith (m : Memory) (s : State) : State :=
  { State.reset with
    bufBytes := s.bufBytes
    freq := symTable fun x => Config.drawFreq s.draws x
    node := fillPool s.draws []
    codeLen := symTable fun x => Config.drawCodeLen s.draws x
    codeBits := symTable fun x => Config.drawCodeBits s.draws x
    buf := m
    inputs := s.inputs
    response := s.response
    draws := s.draws + 1 }

/-- The commands whose abandonment leaves their destination range unspecified (R454). -/
def hasOutput : Instr → Bool
  | .pack | .unpack | .encode | .decode => true
  | .nop | .clear | .count | .build | .derive | .parse => false

/-- A command with output is in flight. -/
def State.outputInFlight (s : State) : Bool :=
  s.busy && ((decodeCmd s.cmdLast).toOption).any hasOutput

/-- `BUF` after a soft reset (R454): if a command with output is abandoned, each byte a with
`DST_BASE ≤ a < min(DST_BASE + DST_CAP, BUF_BYTES)` takes any value; every other byte is unchanged. -/
def abandonedBuf (s : State) : Memory :=
  if s.outputInFlight then
    s.buf.fill s.dstBase.toNat (min (s.dstBase.toNat + s.dstCap.toNat) s.bufBytes - s.dstBase.toNat)
      (Config.drawBuf s.draws)
  else s.buf

/-- The soft reset (R453). -/
def softReset (s : State) : State := resetWith (abandonedBuf s) s

/-- The hard reset (R450): `BUF` is unspecified as well (R451). No transaction is outstanding after it. -/
def hardReset (s : State) : State :=
  { resetWith (Memory.fill [] 0 s.bufBytes (Config.drawBuf s.draws)) s with response := none }

/-! ### Writes (R350 to R360) -/

/-- A write to `CMD` (R356, R357, R358). -/
def writeCmd (data : Word) (strb : BitVec 4) (s : State) : State :=
  if strb = 0b1111#4 ∧ s.busy = false ∧ s.err = false then accept data s else dropWrite s

/-- A write to `CTRL` (R360). -/
def writeCtrl (data : Word) (strb : BitVec 4) (s : State) : State :=
  if asksSoftReset data strb then softReset s else writeEnables data strb s

/-- A write to an operand register or in the BUF window is dropped: while busy, and without a strobe at any time
(R358: "A write with `strb = 0b0000` to any of these is also dropped"). -/
def State.drops (s : State) (strb : BitVec 4) : Bool := s.busy || decide (strb = 0b0000#4)

/-- A write to an operand register (R355, R351), or a dropped one (R358). -/
def writeOperand (store : Word → State) (old data : Word) (strb : BitVec 4) (s : State) : State :=
  if s.drops strb then dropWrite s else store (mergeLanes old data strb)

/-- The strobed lanes of a word written to `BUF[4k .. 4k+3]` (R101). -/
def writeLanes (m : Memory) (k : Nat) (data : Word) (strb : BitVec 4) : Memory :=
  [0, 1, 2, 3].foldl (fun m j => if strb.getLsbD j then m.write (4 * k + j) (laneByte data j) else m) m

/-- A write in the BUF window (R101), or a dropped one (R102, R358). -/
def writeBuf (k : Nat) (data : Word) (strb : BitVec 4) (s : State) : State :=
  if s.drops strb then dropWrite s else { s with buf := writeLanes s.buf k data strb }

/-- A write to a register; the read-only ones ignore it (R354). -/
def writeReg (data : Word) (strb : BitVec 4) (s : State) : Reg → State
  | .ctrl => writeCtrl data strb s
  | .status => writeStatus data strb s
  | .cmd => writeCmd data strb s
  | .srcBase => writeOperand (fun v => { s with srcBase := v }) s.srcBase data strb s
  | .srcLen => writeOperand (fun v => { s with srcLen := v }) s.srcLen data strb s
  | .dstBase => writeOperand (fun v => { s with dstBase := v }) s.dstBase data strb s
  | .dstCap => writeOperand (fun v => { s with dstCap := v }) s.dstCap data strb s
  | .id | .version | .bufSize | .errCause | .errInfo | .dstLen | .hdrLen | .padding | .nsym
  | .totalLo | .totalHi | .totalBits0 | .totalBits1 | .totalBits2 | .root | .nodes => s

/-- A write to a mapped offset; the table windows ignore it (R354). -/
def writeTarget (data : Word) (strb : BitVec 4) (s : State) : Target → State
  | .reg r => writeReg data strb s r
  | .freq _ _ | .node _ _ | .code _ _ => s
  | .buf k => writeBuf k data strb s

/-- `Write(off, wdata, strb)` (R161, R350, R352). -/
def hostWrite (off : Offset) (data : Word) (strb : BitVec 4) (s : State) : State :=
  if !aligned off then { s with response := some (.write .slverr) }
  else
    match decodeOffset s.bufBytes off with
    | none => { s with response := some (.write .slverr) }
    | some t => { writeTarget data strb s t with response := some (.write .okay) }

end Sys2Proof.Machine
end

