-- ==== Sys2Proof/Machine/Frequency.lean ====
section
/-! DEFINITION. The frequency table commands, CLEAR and COUNT (40_frequency.md). -/

namespace Sys2Proof.Machine

/-- `countBytes` (R205): how often each symbol stands in the range. -/
def countBytes (bytes : List Byte) (s : Byte) : Nat := bytes.count s

/-- The table with the counts added (R202); no entry overflows once the total does not (R206). -/
def addCounts (F : SymTable (BitVec 64)) (bytes : List Byte) : SymTable (BitVec 64) :=
  symMap (fun s f => BitVec.ofNat 64 (f.toNat + countBytes bytes s)) F

/-- `|{s : FREQ[s] > 0}|` (R44). -/
def presentCount (F : SymTable (BitVec 64)) : Nat := (present F).length

/-- CLEAR (R201). -/
def execClear (s : State) : Result :=
  succeed { s with
    freq := symTable fun _ => 0#64
    total := 0#64
    nsym := 0#9
    freqValid := true, treeValid := false, codesValid := false }

/-- The checks of COUNT, in order (R202, R403). -/
def countChecks (s : State) : List Check :=
  [sequenceCheck s.freqValid 0x1, s.srcCheck,
   ⟨decide (s.total.toNat + s.srcLen.toNat ≤ 2 ^ 64 - 1), .freqOverflow, 0⟩]

/-- COUNT (R202). -/
def execCount (s : State) : Result :=
  checked (countChecks s) s fun _ =>
    let F := addCounts s.freq s.srcBytes
    succeed { s with
      freq := F
      total := BitVec.ofNat 64 (s.total.toNat + s.srcLen.toNat)
      nsym := BitVec.ofNat 9 (presentCount F)
      freqValid := true, treeValid := false, codesValid := false }

end Sys2Proof.Machine
end

