-- ==== Sys2Proof/Machine/TreeBuilder.lean ====
section
/-! DEFINITION. The tree builder, BUILD (41_tree_builder.md). -/

namespace Sys2Proof.Machine

/-- The priority key of node i: the pair (NODE[i].f, i) (R222). A key names its node, so the queue holds keys. -/
structure Key where
  f   : Nat
  idx : Nat
deriving DecidableEq, Repr

/-- The order of keys: lower frequency first, then lower index (R222). -/
def Key.before (a b : Key) : Bool := decide (a.f < b.f) || (decide (a.f = b.f) && decide (a.idx < b.idx))

/-- `insert(i)` of the priority queue (R223), kept as the list of its keys, smallest first, so that `extractMin()`
takes the head. Keys are unique, so no result depends on this arrangement (R54, R223). -/
def enqueue (k : Key) : List Key → List Key
  | [] => [k]
  | a :: q => if k.before a then k :: a :: q else a :: enqueue k q

/-- The index of slot i. -/
def nodeIndex (i : Nat) : NodeIndex := BitVec.ofNat 9 i

/-- A leaf (R221). -/
def leafNode (s : Byte) (f : BitVec 64) : Node :=
  { kind := 0#1, sym := s, f := f, left := Config.noNode, right := Config.noNode }

/-- An internal node (R224, R228): its frequency never overflows 64 bits, being at most `TOTAL`. -/
def mergeNode (f : Nat) (left right : NodeIndex) : Node :=
  { kind := 1#1, sym := 0#8, f := BitVec.ofNat 64 f, left := left, right := right }

/-- The leaves, one per present symbol in ascending order (R220, R221). -/
def leaves (F : SymTable (BitVec 64)) : List Node := (present F).map fun s => leafNode s (symAt F s)

/-- The queue with the keys of the leaves `ns`, whose first index is `i`, inserted in order (R221, R224). -/
def enqueueLeaves : List Node → Nat → List Key → List Key
  | [], _, q => q
  | nd :: ns, i, q => enqueueLeaves ns (i + 1) (enqueue ⟨nd.f.toNat, i⟩ q)

/-- The loop of R224: while the queue holds two keys, take the two smallest, the first as left child (R233), and
add their parent as the next node. Each round leaves one key fewer, so `fuel` of the queue's length is enough. -/
def mergeAll : Nat → List Node → List Key → List Node
  | fuel + 1, ns, a :: b :: q =>
    mergeAll fuel (ns ++ [mergeNode (a.f + b.f) (nodeIndex a.idx) (nodeIndex b.idx)])
      (enqueue ⟨a.f + b.f, ns.length⟩ q)
  | _, ns, _ => ns

/-- The result of `buildTree`: the nodes in use and the root. -/
structure Tree where
  nodes : List Node
  root  : NodeIndex
deriving DecidableEq, Repr

/-- `buildTree` (R224), a function of the table alone (R232). -/
def buildTree (F : SymTable (BitVec 64)) : Tree :=
  match leaves F with
  | [] => { nodes := [], root := Config.noNode }
  | [nd] => { nodes := [nd, mergeNode nd.f.toNat (nodeIndex 0) Config.noNode], root := nodeIndex 1 }
  | ls =>
    let ns := mergeAll ls.length ls (enqueueLeaves ls 0 [])
    { nodes := ns, root := nodeIndex (ns.length - 1) }

/-- The state with the tree written: `NODE`, `ROOT`, `NODES` (R230); a drawing step, since the unused slots are
unspecified (log entry 7). -/
def installTree (t : Tree) (s : State) : State :=
  { s with
    node := fillPool s.draws t.nodes
    root := t.root
    nodes := BitVec.ofNat 10 t.nodes.length
    draws := s.draws + 1 }

/-- BUILD (R230). -/
def execBuild (s : State) : Result :=
  checked [sequenceCheck s.freqValid 0x1] s fun _ =>
    succeed { installTree (buildTree s.freq) s with treeValid := true, codesValid := false }

end Sys2Proof.Machine
end

