-- ==== Sys2Proof/Machine/CodeTable.lean ====
section
/-! DEFINITION. The code-table generator, DERIVE (42_codebook.md). -/

namespace Sys2Proof.Machine

/-- An entry of the traversal stack: node, depth, path value (R252). -/
structure PathEntry where
  node  : NodeIndex
  depth : Nat
  path  : Nat
deriving DecidableEq, Repr

/-- The codebook: `CODE_LEN` and `CODE_BITS` (R51). -/
structure CodeBook where
  len  : SymTable (BitVec 8)
  bits : SymTable (BitVec 255)
deriving DecidableEq, Repr

/-- The codebook with every symbol absent. -/
def CodeBook.empty : CodeBook := { len := symTable fun _ => 0#8, bits := symTable fun _ => 0#255 }

/-- Record the code of a leaf (R252); it fits its fields (R253). -/
def CodeBook.record (c : CodeBook) (s : Byte) (depth path : Nat) : CodeBook :=
  { len := symSet c.len s (BitVec.ofNat 8 depth), bits := symSet c.bits s (BitVec.ofNat 255 path) }

/-- Push a child unless it is `NONE` (R252). -/
def pushChild (i : NodeIndex) (depth path : Nat) (st : List PathEntry) : List PathEntry :=
  if i = Config.noNode then st else ⟨i, depth, path⟩ :: st

/-- The loop of R252: the right child is pushed first, so the left one is visited first. -/
def traverse (pool : Vector Node 511) : Nat → List PathEntry → CodeBook → Option CodeBook
  | _, [], c => some c
  | 0, _ :: _, _ => none
  | fuel + 1, e :: st, c =>
    match nodeAt pool e.node with
    | none => none
    | some nd =>
      if nd.kind = 0#1 then traverse pool fuel st (c.record nd.sym e.depth e.path)
      else
        traverse pool fuel
          (pushChild nd.left (e.depth + 1) (2 * e.path) (pushChild nd.right (e.depth + 1) (2 * e.path + 1) st)) c

/-- `deriveCodes` (R252); the empty tree gives no code (R254). No value when the traversal would not end. -/
def deriveCodes (pool : Vector Node 511) (root : NodeIndex) : Option CodeBook :=
  if root = Config.noNode then some CodeBook.empty
  else traverse pool Config.traversalFuel [⟨root, 0, 0⟩] CodeBook.empty

/-- `Σ_s FREQ[s] · CODE_LEN[s]` (R255). -/
def codedBits (F : SymTable (BitVec 64)) (len : SymTable (BitVec 8)) : Nat :=
  (List.zipWith (fun f l => f.toNat * l.toNat) F.toList len.toList).sum

/-- The state with the codebook of table F written: `CODE_LEN`, `CODE_BITS`, `TOTAL_BITS` (R255, R256). -/
def installCodes (F : SymTable (BitVec 64)) (c : CodeBook) (s : State) : State :=
  { s with codeLen := c.len, codeBits := c.bits, totalBits := BitVec.ofNat 72 (codedBits F c.len) }

/-- DERIVE (R256). -/
def execDerive (s : State) : Result :=
  checked [sequenceCheck s.treeValid 0x2] s fun _ =>
    match deriveCodes s.node s.root with
    | none => .fault .endlessTraversal
    | some c => succeed { installCodes s.freq c s with codesValid := true }

end Sys2Proof.Machine
end

