-- ==== Sys2Proof/Machine/BitPacker.lean ====
section
/-! DEFINITION. The bit packer and the tree-walk decoder, PACK and UNPACK (43_bitpack.md). -/

namespace Sys2Proof.Machine

/-! ### Packing -/

/-- `code(s)` (R270): the bits `CODE_BITS[s][L−1] .. CODE_BITS[s][0]`, L = `CODE_LEN[s]`, first bit first (R16). -/
def codeOf (c : CodeBook) (s : Byte) : List Bool :=
  let L := (symAt c.len s).toNat
  (List.range L).map fun k => (symAt c.bits s).getLsbD (L - 1 - k)

/-- The packer of R273: bytes produced (latest first), accumulator, bits in it, bits taken. -/
structure Packer where
  out   : List Byte
  acc   : Nat
  cnt   : Nat
  count : Nat
deriving DecidableEq, Repr

/-- One bit into the packer (the inner loop of R273). -/
def Packer.push (p : Packer) (b : Bool) : Packer :=
  let acc := (2 * p.acc + b.toNat) % 256
  if p.cnt + 1 = 8 then { out := BitVec.ofNat 8 acc :: p.out, acc := 0, cnt := 0, count := p.count + 1 }
  else { out := p.out, acc := acc, cnt := p.cnt + 1, count := p.count + 1 }

/-- The bytes, the last one right-padded with zero bits (R273, R275). -/
def Packer.bytes (p : Packer) : List Byte :=
  if 0 < p.cnt then p.out.reverse ++ [BitVec.ofNat 8 (p.acc * 2 ^ (8 - p.cnt))] else p.out.reverse

/-- What `packBits` returns: the bytes, T, and pad(T) (R273). -/
structure Packed where
  bytes   : List Byte
  count   : Nat
  padding : Nat
deriving DecidableEq, Repr

/-- `packBits` (R273) over the input bytes. -/
def packBits (c : CodeBook) (input : List Byte) : Packed :=
  let p := input.foldl (fun p s => (codeOf c s).foldl Packer.push p) ⟨[], 0, 0, 0⟩
  { bytes := p.bytes, count := p.count, padding := pad p.count }

/-- The offset of the first input byte whose symbol has no code (R276). -/
def firstAbsent (len : SymTable (BitVec 8)) (input : List Byte) : Option Nat :=
  input.findIdx? fun x => symAt len x = 0#8

/-- `Σ_j CODE_LEN[x_j]` (R270, R276). -/
def inputBits (len : SymTable (BitVec 8)) (input : List Byte) : Nat :=
  (input.map fun x => (symAt len x).toNat).sum

/-- The codebook in State. -/
def State.codeBook (s : State) : CodeBook := { len := s.codeLen, bits := s.codeBits }

/-- PACK (R276). -/
def execPack (s : State) : Result :=
  checked (sequenceCheck s.codesValid 0x4 :: s.rangeChecks) s fun _ =>
    match firstAbsent s.codeLen s.srcBytes with
    | some j => raise .symbolAbsent (BitVec.ofNat 32 j) s
    | none =>
      let need := ceil8 (inputBits s.codeLen s.srcBytes)
      checked [⟨decide (need ≤ s.dstCap.toNat), .dstOverflow, neededInfo need⟩] s fun _ =>
        let p := packBits s.codeBook s.srcBytes
        succeed { s with
          buf := s.storeDst p.bytes
          dstLen := BitVec.ofNat 32 p.bytes.length
          padding := BitVec.ofNat 3 p.padding }

/-! ### The tree walk -/

/-- The bits of a byte, most significant first (R272). -/
def byteBits (b : Byte) : List Bool := (List.range 8).map fun k => b.getLsbD (7 - k)

/-- The usable bits of a payload with padding count p: all but the last p (R280). -/
def payloadBits (payload : List Byte) (p : Nat) : List Bool :=
  (payload.flatMap byteBits).take (8 * payload.length - p)

/-- How the walk ends (R282). -/
inductive WalkEnd where
  | done
  | failed (cause : Cause) (info : Nat)
  | stuck (fault : Fault)
deriving DecidableEq, Repr

/-- The symbols emitted and how the walk ended. -/
structure Walk where
  out  : List Byte
  last : WalkEnd
deriving DecidableEq, Repr

/-- The walk of R282 from a point of it: the bits left, `pos` bits consumed, `e` symbols emitted (`out`, latest
first), inside a code at node `cur`, or between codes (`none`). A child has no slot exactly when it is `NONE` (R50). -/
def walkFrom (pool : Vector Node 511) (root : NodeIndex) (n : Nat) :
    List Bool → (pos e : Nat) → (cur : Option NodeIndex) → (out : List Byte) → Walk
  | [], pos, e, cur, out =>
    match cur with
    | some _ => ⟨out.reverse, .failed .fmtExhausted pos⟩
    | none => if e < n then ⟨out.reverse, .failed .fmtCount e⟩ else ⟨out.reverse, .done⟩
  | b :: bs, pos, e, cur, out =>
    if cur = none ∧ ¬ e < n then ⟨out.reverse, .failed .fmtTrailing pos⟩
    else
      match nodeAt pool (cur.getD root) with
      | none => ⟨out.reverse, .stuck .noSuchNode⟩
      | some nd =>
        let c := if b then nd.right else nd.left
        match nodeAt pool c with
        | none => ⟨out.reverse, .failed .fmtBadcode pos⟩
        | some child =>
          if child.kind = 0#1 then walkFrom pool root n bs (pos + 1) (e + 1) none (child.sym :: out)
          else walkFrom pool root n bs (pos + 1) e (some c) out

/-- `walkDecode` (R282): the payload is read before anything is written, which is the same because the ranges do
not overlap (R104, R132; DEDUCED, log entry 16). -/
def walkDecode (pool : Vector Node 511) (root : NodeIndex) (payload : List Byte) (p n : Nat) : Walk :=
  walkFrom pool root n (payloadBits payload p) 0 0 none []

/-- The end of UNPACK and DECODE after the walk: success sets `DST_LEN` to the symbol count n (R286, R330); a walk
error keeps the symbols emitted and sets `DST_LEN` to 0 (R412). -/
def finishWalk (w : Walk) (n : Nat) (s : State) : Result :=
  match w.last with
  | .done => succeed { s with buf := s.storeDst w.out, dstLen := BitVec.ofNat 32 n }
  | .failed cause info => raise cause (BitVec.ofNat 32 info) { s with buf := s.storeDst w.out, dstLen := 0#32 }
  | .stuck f => .fault f

/-- The checks of UNPACK, in order (R286, R403). -/
def unpackChecks (s : State) : List Check :=
  sequenceCheck s.treeValid 0x2 :: s.rangeChecks ++
    [⟨!(decide (s.srcLen = 0#32) && decide (s.padding ≠ 0#3)), .fmtPadding, s.padding.setWidth 32⟩,
     ⟨decide (s.total.toNat ≤ s.dstCap.toNat), .dstOverflow, neededInfo s.total.toNat⟩]

/-- UNPACK (R286); N and p come from `TOTAL` and `PADDING` (R285). -/
def execUnpack (s : State) : Result :=
  checked (unpackChecks s) s fun _ =>
    finishWalk (walkDecode s.node s.root s.srcBytes s.padding.toNat s.total.toNat) s.total.toNat s

end Sys2Proof.Machine
end

