-- ==== Sys2Proof/Machine/Codec.lean ====
section
/-! DEFINITION. The stream codec, ENCODE, PARSE and DECODE (44_codec.md, and the stream of R120). -/

namespace Sys2Proof.Machine

/-- `serializeHeader` (R313): paddingBits, originalLength, symbolCount, then the entries in ascending symbol order
(R122). -/
def serializeHeader (F : SymTable (BitVec 64)) (n p : Nat) : List Byte :=
  [BitVec.ofNat 8 p] ++ toBe 8 n ++ toBe 2 (presentCount F) ++
    (present F).flatMap fun s => s :: toBe 8 (symAt F s).toNat

/-- The header length `H = 11 + 9·n` (R123). -/
def headerLength (n : Nat) : Nat := 11 + 9 * n

/-- The state with the table F written, of total N and with n present symbols: `FREQ`, `TOTAL`, `NSYM` (R315, R325,
R330). -/
def installTable (F : SymTable (BitVec 64)) (N n : Nat) (s : State) : State :=
  { s with freq := F, total := BitVec.ofNat 64 N, nsym := BitVec.ofNat 9 n }

/-- ENCODE (R315). -/
def execEncode (s : State) : Result :=
  checked s.rangeChecks s fun _ =>
    let F := addCounts (symTable fun _ => 0#64) s.srcBytes
    let t := buildTree F
    match deriveCodes (fillPool s.draws t.nodes) t.root with
    | none => .fault .endlessTraversal
    | some c =>
      let T := codedBits F c.len
      let H := headerLength (presentCount F)
      let need := H + ceil8 T
      checked [⟨decide (need ≤ s.dstCap.toNat), .dstOverflow, neededInfo need⟩] s fun _ =>
        let p := packBits c s.srcBytes
        let s' := installCodes F c (installTree t (installTable F s.srcLen.toNat (presentCount F) s))
        succeed { s' with
          buf := s.storeDst (serializeHeader F s.srcLen.toNat (pad T) ++ p.bytes)
          dstLen := BitVec.ofNat 32 need
          hdrLen := BitVec.ofNat 32 H
          padding := BitVec.ofNat 3 p.padding
          freqValid := true, treeValid := true, codesValid := true }

/-! ### Parsing a header -/

/-- What `parseHeader` returns: F, N, n, p, H (R322). -/
structure Header where
  freq    : SymTable (BitVec 64)
  total   : Nat
  count   : Nat
  padding : Nat
  length  : Nat
deriving DecidableEq, Repr

/-- Byte k of the stream. -/
def streamByte (stream : List Byte) (k : Nat) : Byte := stream.getD k 0#8

/-- The big-endian number of the n bytes from byte k on (R121). -/
def streamNumber (stream : List Byte) (k n : Nat) : Nat := ofBe ((stream.drop k).take n)

/-- The entry loop of R322: `left` entries to go from entry k on, after the symbol `prev`. -/
def parseEntries (stream : List Byte) : (left k : Nat) → (prev : Option Byte) → SymTable (BitVec 64) → (sum : Nat) →
    Except (Cause × Nat) (SymTable (BitVec 64) × Nat)
  | 0, _, _, F, sum => .ok (F, sum)
  | left + 1, k, prev, F, sum =>
    let s := streamByte stream (11 + 9 * k)
    let f := streamNumber stream (12 + 9 * k) 8
    if prev.any (fun q => decide (s.toNat ≤ q.toNat)) then .error (.fmtTableOrder, k)
    else if f = 0 then .error (.fmtZeroFreq, k)
    else parseEntries stream left (k + 1) (some s) (symSet F s (BitVec.ofNat 64 f)) (sum + f)

/-- `parseHeader` (R322): the first format error, or the table. -/
def parseHeader (stream : List Byte) : Except (Cause × Nat) Header :=
  if stream.length < 11 then .error (.fmtHdrShort, 11)
  else
    let p := (streamByte stream 0).toNat
    if p > 7 then .error (.fmtPadding, p)
    else
      let N := streamNumber stream 1 8
      let n := streamNumber stream 9 2
      if n > 256 then .error (.fmtNsym, n)
      else
        let H := headerLength n
        if stream.length < H then .error (.fmtHdrShort, H)
        else
          match parseEntries stream n 0 none (symTable fun _ => 0#64) 0 with
          | .error e => .error e
          | .ok (F, sum) =>
            if sum ≠ N then .error (.fmtSum, 0)
            else if stream.length = H ∧ p ≠ 0 then .error (.fmtPadding, p)
            else .ok { freq := F, total := N, count := n, padding := p, length := H }

/-- The state with a parsed header written (R325, R330). -/
def installHeader (h : Header) (s : State) : State :=
  { installTable h.freq h.total h.count s with padding := BitVec.ofNat 3 h.padding, hdrLen := BitVec.ofNat 32 h.length }

/-- PARSE (R325). -/
def execParse (s : State) : Result :=
  checked [s.srcCheck] s fun _ =>
    match parseHeader s.srcBytes with
    | .error e => raise e.1 (BitVec.ofNat 32 e.2) s
    | .ok h => succeed { installHeader h s with freqValid := true, treeValid := false, codesValid := false }

/-- DECODE (R330). -/
def execDecode (s : State) : Result :=
  checked s.rangeChecks s fun _ =>
    match parseHeader s.srcBytes with
    | .error e => raise e.1 (BitVec.ofNat 32 e.2) s
    | .ok h =>
      checked [⟨decide (h.total ≤ s.dstCap.toNat), .dstOverflow, neededInfo h.total⟩] s fun _ =>
        let s' := { installTree (buildTree h.freq) (installHeader h s) with
          freqValid := true, treeValid := true, codesValid := false }
        finishWalk (walkDecode s'.node s'.root (s.srcBytes.drop h.length) h.padding h.total) h.total s'

end Sys2Proof.Machine
end

