-- ==== Sys2Proof/Machine/Control.lean ====
section
/-! DEFINITION. NOP (R365). -/

namespace Sys2Proof.Machine

/-- NOP: no effect but the completion (R365). -/
def execNop (s : State) : Result := succeed s

end Sys2Proof.Machine
end

