-- ==== Sys2Proof/Machine/Engine.lean ====
section
/-! DEFINITION. The completion step (R361), and one item of what the environment does. -/

namespace Sys2Proof.Machine

/-- `engineStep` (R361): run the command in flight, or complete an illegal word with ILLEGAL_CMD (R154, R366). -/
def engineStep (s : State) : Result :=
  match decodeCmd s.cmdLast with
  | .error _ => raise .illegalCmd s.cmdLast s
  | .ok i => exec i s

/-- The engine's turn: it has a step only while busy (R30, R361); an idle engine does nothing. -/
def engineTurn (s : State) : Result := if s.busy then engineStep s else .next s

/-- The step of one input, already taken off the list. -/
def perform (x : Input) (s : State) : Result :=
  match x with
  | .read off => .next (hostRead off s)
  | .write off data strb => .next (hostWrite off data strb s)
  | .engineTurn => engineTurn s
  | .hardReset => .next (hardReset s)

/-- The state in which the word `w` is the command in flight and the engine has the next step: as accepted by R357,
the engine's turn coming before whatever else the environment does. -/
def placeCommand (w : Word) (s : State) : State :=
  { accept w s with inputs := match s.inputs with | [] => [] | x :: xs => .engineTurn :: x :: xs }

end Sys2Proof.Machine
end

