-- ==== Sys2Proof/Machine/Step.lean ====
section
/-! DEFINITION. One step of the machine: the oldest input, or, when the environment does nothing more, the engine's
turn (R362: a command in flight completes). -/

namespace Sys2Proof.Machine

def step (s : State) : Host.Outcome State Fault Refusal :=
  match s.inputs with
  | [] => engineTurn s
  | x :: xs => perform x { s with inputs := xs }

/-- The state in which the very next step runs the word `w` as the command in flight: what a `CMD` write of `w`
does on acceptance (R357), the engine's turn coming next. HUFF fetches nothing (R452): the word stands in
`CMD_LAST` (R40). The bits above `nbits` are 0. -/
def State.withFetchWord (s : State) (nbits w : Nat) : State :=
  placeCommand (BitVec.ofNat 32 (w % 2 ^ nbits)) s

end Sys2Proof.Machine
end

