-- ==== Sys2Proof/Machine/Script.lean ====
section
/-! DEFINITION. Host scripts (30_encoding.md, section 4): the statements of R170, the pseudo-statements of R171 with
their expansions, and what playing a script does: its transactions, the engine's turns between them, the `poll` loops
and the assertions. This is the abstract syntax; the concrete text of a line is not read (log entry 12). -/

namespace Sys2Proof.Machine

/-- How a script names an offset (R170). -/
inductive Place where
  | num (off : Offset)
  | reg (r : Reg)
  /-- `BUF+a`. -/
  | buf (a : Nat)
  /-- `FREQ[s]`. -/
  | freq (s : Nat)
  /-- `NODE[i].w`. -/
  | node (i w : Nat)
  /-- `CODE[s].w`. -/
  | code (s w : Nat)
deriving DecidableEq, Repr

/-- The offset a script name stands for (R170). -/
def Place.offset : Place → Offset
  | .num off => off
  | .reg r => BitVec.ofNat 25 r.offset
  | .buf a => BitVec.ofNat 25 (Config.bufWindow + a)
  | .freq s => BitVec.ofNat 25 (0x1000 + 8 * s)
  | .node i w => BitVec.ofNat 25 (0x2000 + 16 * i + 4 * w)
  | .code s w => BitVec.ofNat 25 (0x4000 + 64 * s + 4 * w)

/-- A name whose indices are in range (R59, R60, R61, R101). -/
def Place.wellFormed (bufBytes : Nat) : Place → Bool
  | .num _ | .reg _ => true
  | .buf a => decide (a < bufBytes)
  | .freq s => decide (s < 256)
  | .node i w => decide (i < 511) && decide (w < 4)
  | .code s w => decide (s < 256) && decide (w < 16)

/-- A statement that performs transactions itself: a machine statement (R170), or `poll` (R171). -/
inductive Action where
  /-- `wr OFF, DATA`. -/
  | wr (p : Place) (data : Word)
  /-- `wr OFF, DATA, STRB`. -/
  | wrStrb (p : Place) (data : Word) (strb : BitVec 4)
  /-- `rd OFF`. -/
  | rd (p : Place)
  /-- `rd OFF == VAL`. -/
  | rdEq (p : Place) (val : Word)
  /-- `rd OFF & MASK == VAL`. -/
  | rdMask (p : Place) (mask val : Word)
  /-- `poll OFF, MASK, VAL`. -/
  | poll (p : Place) (mask val : Word)
deriving DecidableEq, Repr

/-- A statement of a host script (R170, R171). -/
inductive Stmt where
  | action (a : Action)
  /-- `cmd MNEM`. -/
  | cmd (i : Instr)
  /-- `wait`. -/
  | wait
  /-- `run MNEM`. -/
  | run (i : Instr)
  /-- `ack`. -/
  | ack
  /-- `wrbuf a, "b0 b1 ..."`. -/
  | wrbuf (a : Nat) (bytes : List Byte)
  /-- `rdbuf a, n == "b0 ..."`; n is the number of bytes given (DESIGN CHOICE, log entry 20). -/
  | rdbuf (a : Nat) (bytes : List Byte)
deriving DecidableEq, Repr

/-! ### Expansion (R171) -/

/-- The lanes of the BUF word k that the bytes from address a on cover. -/
def coveredLanes (a n k : Nat) : List Nat :=
  [0, 1, 2, 3].filter fun j => decide (a ≤ 4 * k + j) && decide (4 * k + j < a + n)

/-- The strobes of those lanes (R171). -/
def coveredStrobes (a n k : Nat) : BitVec 4 :=
  (coveredLanes a n k).foldl (fun st j => st ||| BitVec.ofNat 4 (2 ^ j)) 0

/-- The bytes in those lanes, 0 elsewhere (R101, R171). -/
def coveredData (a : Nat) (bytes : List Byte) (k : Nat) : Word :=
  (coveredLanes a bytes.length k).foldl
    (fun w j => w ||| BitVec.ofNat 32 ((bytes.getD (4 * k + j - a) 0).toNat * 2 ^ (8 * j))) 0

/-- The BUF words that n bytes from address a on touch, in ascending order (log entry 11). -/
def coveredWords (a n : Nat) : List Nat :=
  if n = 0 then [] else (List.range ((a + n - 1) / 4 + 1 - a / 4)).map (a / 4 + ·)

/-- `cmd MNEM`: the command's word to `CMD`. -/
def Action.command (i : Instr) : Action := .wr (.reg .cmd) (encode i)

/-- `wait`: poll `STATUS` until `BUSY` = 0. -/
def Action.wait : Action := .poll (.reg .status) 0x1 0x0

/-- The expansion of a statement (R171); an action stands for itself. -/
def Stmt.expand : Stmt → List Action
  | .action a => [a]
  | .cmd i => [.command i]
  | .wait => [.wait]
  | .run i => [.command i, .wait]
  | .ack => [.wr (.reg .status) 0x0000000E]
  | .wrbuf a bytes =>
    (coveredWords a bytes.length).map fun k =>
      .wrStrb (.buf (4 * k)) (coveredData a bytes k) (coveredStrobes a bytes.length k)
  | .rdbuf a bytes =>
    (coveredWords a bytes.length).map fun k =>
      .rdMask (.buf (4 * k)) (laneMask (coveredStrobes a bytes.length k)) (coveredData a bytes k)

/-! ### Playing a script -/

/-- The transaction of an action; that of `poll` is the one it repeats (R170, R171). -/
def Action.transaction : Action → Input
  | .wr p data => .write p.offset data 0b1111#4
  | .wrStrb p data strb => .write p.offset data strb
  | .rd p | .rdEq p _ | .rdMask p _ _ | .poll p _ _ => .read p.offset

/-- The action is repeated until its condition holds (R171). -/
def Action.repeats : Action → Bool
  | .poll _ _ _ => true
  | .wr _ _ | .wrStrb _ _ _ | .rd _ | .rdEq _ _ | .rdMask _ _ _ => false

/-- The answer to the action's transaction is the one it asserts (R170), or the one that ends its loop (R171). -/
def Action.accepts : Action → Response → Bool
  | .rdEq _ val, .read r data => decide (r = .okay) && decide (data = val)
  | .rdMask _ mask val, .read _ data | .poll _ mask val, .read _ data => decide (data &&& mask = val)
  | .rdEq _ _, .write _ | .rdMask _ _ _, .write _ | .poll _ _ _, .write _ => false
  | .wr _ _, _ | .wrStrb _ _ _, _ | .rd _, _ => true

/-- Where the playing of a script stands. -/
structure Play where
  state : State
  /-- For each transaction to come, whether the engine has its turn before it (R106, R110). When the list is used up
  the engine has its turn before every transaction, as its progress asks (R362; log entry 19). -/
  turns : List Bool
  /-- What has been performed, oldest first. -/
  done  : List Input
deriving DecidableEq, Repr

/-- How the playing of a script ends. -/
inductive PlayEnd where
  /-- Every statement was performed. -/
  | ended (q : Play)
  /-- The latest answer is not the one its statement asserts (R170). -/
  | wrong (q : Play)
  /-- A `poll` whose condition has not held in the reads it was given (R171). -/
  | waiting (q : Play)
  /-- The machine stopped. -/
  | stopped
deriving DecidableEq, Repr

/-- The inputs performed one after the other. -/
def performAll : List Input → State → Result
  | [], s => .next s
  | x :: xs, s =>
    match perform x s with
    | .next t => performAll xs t
    | .fault f => .fault f
    | .refused r => .refused r

/-- What the next transaction x brings with it: the engine's turn before it, or nothing. -/
def Play.due (q : Play) (x : Input) : List Input := if q.turns.headD true then [.engineTurn, x] else [x]

/-- One transaction of the host (R110), the engine's turn before it where it is due; none where the machine stops. -/
def Play.transact (x : Input) (q : Play) : Option Play :=
  match performAll (q.due x) q.state with
  | .next t => some { state := t, turns := q.turns.tail, done := q.done ++ q.due x }
  | .fault _ | .refused _ => none

/-- The latest answer is one that the action accepts. -/
def Play.meets (q : Play) (a : Action) : Bool := q.state.response.any a.accepts

/-- "repeat `Read(OFF)` until `data & MASK = VAL`" (R171), for at most `tries` reads. A loop that does not end for any
number of them does not terminate. -/
def Action.repeatUntil (a : Action) : (tries : Nat) → Play → PlayEnd
  | 0, q => .waiting q
  | tries + 1, q =>
    match q.transact a.transaction with
    | none => .stopped
    | some q' => if q'.meets a then .ended q' else a.repeatUntil tries q'

/-- An action that is performed once. -/
def Action.once (a : Action) (q : Play) : PlayEnd :=
  match q.transact a.transaction with
  | none => .stopped
  | some q' => if q'.meets a then .ended q' else .wrong q'

/-- An action played, a `poll` with at most `tries` reads. -/
def Action.play (tries : Nat) (a : Action) (q : Play) : PlayEnd :=
  if a.repeats then a.repeatUntil tries q else a.once q

/-- The actions played in order; what does not end ends the script. -/
def playActions (tries : Nat) : List Action → Play → PlayEnd
  | [], q => .ended q
  | a :: as, q =>
    match a.play tries q with
    | .ended q' => playActions tries as q'
    | .wrong q' => .wrong q'
    | .waiting q' => .waiting q'
    | .stopped => .stopped

/-- A statement played: its expansion. -/
def Stmt.play (tries : Nat) (st : Stmt) (q : Play) : PlayEnd := playActions tries st.expand q

/-- A script played (R170): its statements in order. -/
def playScript (tries : Nat) (script : List Stmt) (q : Play) : PlayEnd :=
  playActions tries (script.flatMap Stmt.expand) q

/-- The start of a script at state s under the given turns of the engine. -/
def Play.start (s : State) (turns : List Bool) : Play := { state := s, turns := turns, done := [] }

end Sys2Proof.Machine
end

