-- ==== Sys2Proof/Safety.lean ====
section
/-! DEFINITION. What holds in every state a run can reach (R65 and the widths and ranges around it), what counts as
a safe step, and the few words in which statements speak of bits, codes and unmapped offsets. -/

namespace Sys2Proof.Machine

/-- The tree in `NODE[0 .. NODES−1]`, `ROOT`, `NODES` is t. -/
def State.holdsTree (s : State) (t : Tree) : Prop :=
  s.root = t.root ∧ s.nodes.toNat = t.nodes.length ∧ ∀ i < t.nodes.length, s.node[i]? = t.nodes[i]?

/-- The invariant of the reachable states. -/
structure State.Inv (s : State) : Prop where
  /-- The parameter is in its range (R11). -/
  bufBytes_legal : legalBufBytes s.bufBytes = true
  /-- Memory keeps its canonical form. -/
  buf_wf : s.buf.wf = true
  /-- Memory lists only addresses of `BUF` (R53). -/
  buf_inside : ∀ c ∈ s.buf, c.1 < s.bufBytes
  /-- While a command is in flight no completion and no error is pending (R356, R357, R416). -/
  busy_pending : s.busy = true → s.done = false ∧ s.err = false
  /-- R65 (a). -/
  tree_valid : s.treeValid = true → s.freqValid = true ∧ s.holdsTree (buildTree s.freq)
  /-- R65 (b). -/
  codes_valid : s.codesValid = true → s.treeValid = true ∧ deriveCodes s.node s.root = some s.codeBook
  /-- R65 (c). -/
  freq_valid : s.freqValid = true → s.total.toNat = tableSum s.freq ∧ s.nsym.toNat = presentCount s.freq
  /-- R65 (d). -/
  bits_valid : s.codesValid = true → s.totalBits.toNat = codedBits s.freq s.codeLen

/-- The step gives a next state. -/
def Safe (s : State) : Prop := ∃ t, step s = .next t

/-- Bit p of a byte string: bit `7 − (p mod 8)` of byte `p div 8` (R272). -/
def placedBit (bytes : List Byte) (p : Nat) : Bool := (bytes.getD (p / 8) 0#8).getLsbD (7 - p % 8)

/-- The code string of an input: the codes of its bytes one after the other (R270). -/
def codeString (c : CodeBook) (input : List Byte) : List Bool := input.flatMap (codeOf c)

/-- The bytes are the payload of the bit string: its bits in order, then zero bits to the next byte boundary (R120,
R273, R275). -/
def isPayload (bytes : List Byte) (bits : List Bool) : Prop :=
  bytes.length = ceil8 bits.length ∧
  (∀ p, ∀ h : p < bits.length, placedBit bytes p = bits[p]) ∧
  ∀ p, bits.length ≤ p → p < 8 * bytes.length → placedBit bytes p = false

/-- The node reached from node i by the branches of the bits, 0 left and 1 right (R251); none where a branch leaves a
leaf or is missing. -/
def followBits (pool : Vector Node 511) : NodeIndex → List Bool → Option NodeIndex
  | i, [] => some i
  | i, b :: bs =>
    match nodeAt pool i with
    | none => none
    | some nd => if nd.kind = 0#1 then none else followBits pool (if b then nd.right else nd.left) bs

/-- The first slots of the pool hold the nodes of t; the others hold anything (R230). -/
def poolHolds (pool : Vector Node 511) (t : Tree) : Prop :=
  ∀ i < t.nodes.length, pool[i]? = t.nodes[i]?

/-- `BUF` holds `bytes` from address `base` on. -/
def bufHolds (m : Memory) (base : Nat) (bytes : List Byte) : Prop :=
  ∀ k, ∀ h : k < bytes.length, m.read (base + k) = bytes[k]

/-- Every byte of `BUF` outside the n bytes from address `base` on reads the same. -/
def bufSameOutside (m m' : Memory) (base n : Nat) : Prop :=
  ∀ a, a < base ∨ base + n ≤ a → m'.read a = m.read a

/-- The offsets that R58 lists as unmapped. -/
def unmappedOffset (bufBytes a : Nat) : Prop :=
  (0x05C ≤ a ∧ a ≤ 0x0FFF) ∨ (0x1800 ≤ a ∧ a ≤ 0x1FFF) ∨ (0x3FF0 ≤ a ∧ a ≤ 0x3FFF) ∨ (0x8000 ≤ a ∧ a ≤ 0xFFFFFF) ∨
    (0x1000000 + bufBytes ≤ a ∧ a ≤ 0x1FFFFFF)

/-- Byte lane j of a register after a write with byte strobes: the new byte where the lane is strobed (R351). -/
def laneOf (old data : Word) (strb : BitVec 4) (j : Nat) : Byte :=
  if strb.getLsbD j then laneByte data j else laneByte old j

/-! ### Words in which statements speak of the host side -/

/-- A host read at the offset gets `OKAY` and the word v. -/
def readsAs (s : State) (off : Offset) (v : Word) : Prop := (hostRead off s).response = some (.read .okay v)

/-- The offset that is the number n. -/
def at25 (n : Nat) : Offset := BitVec.ofNat 25 n

/-- A host write at the offset gets `OKAY` and changes nothing. -/
def ignoresWrites (s : State) (off : Offset) : Prop :=
  ∀ data strb, hostWrite off data strb s = { s with response := some (.write .okay) }

/-- The offsets of the read-only registers and of the table windows (R58, R354). -/
def readOnlyOffset (a : Nat) : Prop :=
  a ∈ [0x000, 0x004, 0x008, 0x018, 0x01C, 0x030, 0x034, 0x038, 0x03C, 0x040, 0x044, 0x048, 0x04C, 0x050, 0x054, 0x058] ∨
    (a % 4 = 0 ∧ ((0x1000 ≤ a ∧ a ≤ 0x17FF) ∨ (0x2000 ≤ a ∧ a ≤ 0x3FEF) ∨ (0x4000 ≤ a ∧ a ≤ 0x7FFF)))

/-- Every register and flag of R63 has its reset value. -/
def State.registersAtReset (s : State) : Prop :=
  s.doneIE = false ∧ s.errIE = false ∧
  s.busy = false ∧ s.done = false ∧ s.err = false ∧ s.ovr = false ∧
  s.freqValid = false ∧ s.treeValid = false ∧ s.codesValid = false ∧ s.irq = false ∧
  s.cmdLast = 0x00000000#32 ∧ s.errCause.code = 0x00#8 ∧ s.errInfo = 0#32 ∧
  s.srcBase = 0#32 ∧ s.srcLen = 0#32 ∧ s.dstBase = 0#32 ∧ s.dstCap = 0#32 ∧
  s.dstLen = 0#32 ∧ s.hdrLen = 0#32 ∧ s.padding = 0#3 ∧ s.nsym = 0#9 ∧
  s.total = 0#64 ∧ s.totalBits = 0#72 ∧ s.root = 0x1FF#9 ∧ s.nodes = 0#10

/-- The host asks for the soft reset. -/
def isSoftReset : Input → Bool
  | .write off data strb => decide (off = 0x00C#25) && strb.getLsbD 3 && data.getLsbD 31
  | .read _ | .engineTurn | .hardReset => false

/-- A host transaction. -/
def isTransaction : Input → Bool
  | .read _ | .write _ _ _ => true
  | .engineTurn | .hardReset => false

/-! ### Words in which statements speak of ranges and counts -/

/-- How many positions j of the source range have `BUF[SRC_BASE + j] = x` (R200). -/
def State.srcCount (s : State) (x : Byte) : Nat :=
  ((List.range s.srcLen.toNat).filter fun j => s.buf.read (s.srcBase.toNat + j) == x).length

/-- The source range lies in `BUF` (R131). -/
def State.srcOk (s : State) : Prop := s.srcBase.toNat + s.srcLen.toNat ≤ s.bufBytes

/-- The destination range lies in `BUF` (R131). -/
def State.dstOk (s : State) : Prop := s.dstBase.toNat + s.dstCap.toNat ≤ s.bufBytes

/-- No byte lies in both ranges (R131). -/
def State.apart (s : State) : Prop :=
  ∀ a, ¬ (s.srcBase.toNat ≤ a ∧ a < s.srcBase.toNat + s.srcLen.toNat ∧
    s.dstBase.toNat ≤ a ∧ a < s.dstBase.toNat + s.dstCap.toNat)

/-- The three range checks of a command with output pass. -/
def State.rangesOk (s : State) : Prop := s.srcOk ∧ s.dstOk ∧ s.apart

/-- The command is turned away by the first of the three range checks that fails, in the order of R132. -/
def rangeErrors (i : Instr) (s : State) : Prop :=
  (¬ s.srcOk → exec i s = raise .srcRange 0#32 s) ∧
  (s.srcOk → ¬ s.dstOk → exec i s = raise .dstRange 0#32 s) ∧
  (s.srcOk → s.dstOk → ¬ s.apart → exec i s = raise .rangeOverlap 0#32 s)

/-- `BUF` after `bytes` have been stored from `DST_BASE` on and nothing else (R104). -/
def State.storedTo (s : State) (bytes : List Byte) (m : Memory) : Prop :=
  bufHolds m s.dstBase.toNat bytes ∧ bufSameOutside s.buf m s.dstBase.toNat bytes.length

/-! ### Words in which statements speak of scripts -/

/-- The transaction of the action n times, whatever the answers. -/
def Action.times (a : Action) : Nat → Play → Option Play
  | 0, q => some q
  | n + 1, q => (q.transact a.transaction).bind (a.times n)

/-- The states differ at most in the latest answer and the count of draws, the model's own fields. -/
def State.sameBlock (s t : State) : Prop := t = { s with response := t.response, draws := t.draws }

/-! ### Words in which statements speak of trees and walks -/

/-- Key (f, i) is smaller than key (g, j) (R222). -/
def keyLt (f i g j : Nat) : Prop := f < g ∨ (f = g ∧ i < j)

/-- Node i waits in the queue when node k is made: it stands before k, and no node made from index n on before k has
it as a child (R224). -/
def waiting (ns : List Node) (n k i : Nat) : Prop :=
  i < k ∧ ∀ j, n ≤ j → j < k → ∀ nd, ns[j]? = some nd → nd.left.toNat ≠ i ∧ nd.right.toNat ≠ i

/-- The frequency of node i. -/
def nodeFreq (ns : List Node) (i : Nat) : Nat := (ns[i]?).elim 0 fun nd => nd.f.toNat

/-- The bits are one path from the root to a leaf after the other, the leaves of the symbols `out` (R282). -/
inductive Emits (pool : Vector Node 511) (root : NodeIndex) : List Bool → List Byte → Prop where
  | none : Emits pool root [] []
  | more (l rest : List Bool) (i : NodeIndex) (nd : Node) (out : List Byte) :
      l ≠ [] → followBits pool root l = some i → nodeAt pool i = some nd → nd.kind = 0#1 →
      Emits pool root rest out → Emits pool root (l ++ rest) (nd.sym :: out)

/-- The bits are the beginning of a path from the root, at an internal node i. -/
def insideCode (pool : Vector Node 511) (root : NodeIndex) (l : List Bool) (i : NodeIndex) : Prop :=
  followBits pool root l = some i ∧ ∃ nd, nodeAt pool i = some nd ∧ nd.kind = 1#1

end Sys2Proof.Machine
end

