-- ==== Sys2Proof/Certificates/Slice0/Obligations.lean ====
section
/-! DEFINITION. The statements about the model, each from a numbered rule of the spec. -/

open Sys2Proof Sys2Proof.Machine

/-! ### The command word -/

/-- The ten words of R153, written out bit by bit, decode to their commands. -/
def Obligations.TheTenCommandWordsDecode : Prop :=
  decodeCmd 0b00000000000000000000000000000000#32 = .ok .nop ∧
  decodeCmd 0b00000000000000000000000000000001#32 = .ok .clear ∧
  decodeCmd 0b00000000000000000000000000000010#32 = .ok .count ∧
  decodeCmd 0b00000000000000000000000000000011#32 = .ok .build ∧
  decodeCmd 0b00000000000000000000000000000100#32 = .ok .derive ∧
  decodeCmd 0b00000000000000000000000000000101#32 = .ok .pack ∧
  decodeCmd 0b00000000000000000000000000000110#32 = .ok .unpack ∧
  decodeCmd 0b00000000000000000000000000000111#32 = .ok .encode ∧
  decodeCmd 0b00000000000000000000000000001000#32 = .ok .parse ∧
  decodeCmd 0b00000000000000000000000000001001#32 = .ok .decode

/-- R153 and R155: a word selects a command exactly when bits 31:8 are 0 and bits 7:0 are the command's opcode, which
is to say when it is the command's word; every word that selects none is illegal. -/
def Obligations.WordsSelectCommandsByTheirOpcode : Prop :=
  [Instr.nop, .clear, .count, .build, .derive, .pack, .unpack, .encode, .parse, .decode].map opcodeOf =
    [0x00#8, 0x01#8, 0x02#8, 0x03#8, 0x04#8, 0x05#8, 0x06#8, 0x07#8, 0x08#8, 0x09#8] ∧
  (∀ w i, decodeCmd w = .ok i ↔ w.extractLsb' 8 24 = 0#24 ∧ w.extractLsb' 0 8 = opcodeOf i) ∧
  (∀ w i, decodeCmd w = .ok i ↔ w = encode i) ∧
  (∀ i : Instr, i.wellFormed = true →
    decodeCmd (encode i) = .ok i ∧ decodeTableWord 32 (encode i).toNat = some i ∧ wordWellFormed (encode i) = true) ∧
  ∀ w, (∃ e, decodeCmd w = .error e) ↔ w.extractLsb' 8 24 ≠ 0#24 ∨ 0x0A ≤ (w.extractLsb' 0 8).toNat

/-- R154 and R366: a command in flight whose word is illegal completes with ILLEGAL_CMD and the word, and has no other
effect. -/
def Obligations.IllegalWordsCompleteWithIllegalCmd : Prop :=
  Cause.illegalCmd.code = 0x01#8 ∧
  ∀ s : State, s.busy = true →
    s.cmdLast.extractLsb' 8 24 ≠ 0#24 ∨ 0x0A ≤ (s.cmdLast.extractLsb' 0 8).toNat →
    engineTurn s = .next { s with
      errCause := .illegalCmd, errInfo := s.cmdLast, err := true, busy := false, done := true }

/-! ### Steps -/

/-- One step performs the oldest thing the environment does, or the engine's turn when it does nothing more; an engine
that is not busy has no step of its own (R30, R106; the list is the model's, log entry 5). -/
def Obligations.StepPerformsTheOldestInput : Prop :=
  ∀ (s : State) (xs : List Input),
    (s.inputs = [] → step s = engineTurn s) ∧
    (s.inputs = .engineTurn :: xs → step s = engineTurn { s with inputs := xs }) ∧
    (∀ off, s.inputs = .read off :: xs → step s = .next (hostRead off { s with inputs := xs })) ∧
    (∀ off data strb, s.inputs = .write off data strb :: xs →
      step s = .next (hostWrite off data strb { s with inputs := xs })) ∧
    (s.inputs = .hardReset :: xs → step s = .next (hardReset { s with inputs := xs })) ∧
    (s.busy = false → engineTurn s = .next s)

/-- When the word in flight decodes to the command i, the engine's step is the meaning of i (R361, R155). -/
def Obligations.StepRunsTheCommandInFlight : Prop :=
  ∀ (s : State) (i : Instr) (xs : List Input), s.busy = true → decodeCmd s.cmdLast = .ok i → i.wellFormed = true →
    (s.inputs = [] → step s = exec i s) ∧
    (s.inputs = .engineTurn :: xs → step s = exec i { s with inputs := xs })

/-- A word that is placed where the next step takes its command from is the command the next step runs (R357, R40;
the placing is the model's, log entry 15). -/
def Obligations.PlacedWordRunsNext : Prop :=
  ∀ (s : State) (nbits w : Nat) (i : Instr), decodeTableWord nbits w = some i →
    step (s.withFetchWord nbits w) =
      exec i { s with cmdLast := BitVec.ofNat 32 (w % 2 ^ nbits), busy := true, done := false }

/-- R361, R37, R38: a command that completes leaves the engine idle with `DONE` set, and either leaves the error state
as it was or ends with `ERR` set and a cause that is not NONE. -/
def Obligations.CompletionSetsDoneAndClearsBusy : Prop :=
  ∀ (i : Instr) (s t : State), exec i s = .next t →
    t.busy = false ∧ t.done = true ∧
    ((t.err = s.err ∧ t.errCause = s.errCause ∧ t.errInfo = s.errInfo) ∨ (t.err = true ∧ t.errCause ≠ .none))

/-! ### Resets -/

/-- R63, R450 and R452: the reset state, the state after a hard reset and the state after a soft reset hold the reset
value in every register and flag, `irq` is 0, and the identification registers read as always. -/
def Obligations.EveryResetGivesTheResetValues : Prop :=
  State.reset.registersAtReset ∧
  ∀ s : State,
    (hardReset s).registersAtReset ∧ (softReset s).registersAtReset ∧
    (∀ t ∈ [hardReset s, softReset s],
      t.bufBytes = s.bufBytes ∧ readsAs t (at25 0x000) 0x48554646#32 ∧ readsAs t (at25 0x004) 0x00000001#32 ∧
        readsAs t (at25 0x008) (BitVec.ofNat 32 s.bufBytes))

/-- R453 and R454: the soft reset is accepted at any time with `OKAY`; every register and flag takes its reset value;
`BUF` keeps every byte, but for the destination range of an abandoned PACK, UNPACK, ENCODE or DECODE. -/
def Obligations.SoftResetKeepsBufOutsideAnAbandonedRange : Prop :=
  ∀ (s : State) (data : Word) (strb : BitVec 4), s.buf.wf = true → strb.getLsbD 3 = true → data.getLsbD 31 = true →
    ∃ t, hostWrite (at25 0x00C) data strb s = t ∧ t.registersAtReset ∧ t.response = some (.write .okay) ∧
      t.bufBytes = s.bufBytes ∧ t.inputs = s.inputs ∧
      ∀ a, ¬ (s.busy = true ∧
          (∃ i, decodeCmd s.cmdLast = .ok i ∧ (i = .pack ∨ i = .unpack ∨ i = .encode ∨ i = .decode)) ∧
          s.dstBase.toNat ≤ a ∧ a < min (s.dstBase.toNat + s.dstCap.toNat) s.bufBytes) →
        t.buf.read a = s.buf.read a

/-! ### Host transactions -/

/-- R31, R32 and R33: the identification registers read their constants in every state, and ignore writes. -/
def Obligations.IdentificationRegistersAreConstant : Prop :=
  ∀ s : State,
    readsAs s (at25 0x000) 0x48554646#32 ∧ readsAs s (at25 0x004) 0x00000001#32 ∧
    readsAs s (at25 0x008) (BitVec.ofNat 32 s.bufBytes) ∧
    ignoresWrites s (at25 0x000) ∧ ignoresWrites s (at25 0x004) ∧ ignoresWrites s (at25 0x008)

/-- R356 and R357: a `CMD` write is accepted exactly with all four strobes, an idle engine and no pending error;
acceptance records the word, sets `BUSY` and clears `DONE`, and changes nothing else. -/
def Obligations.AcceptanceOfACommandWrite : Prop :=
  ∀ (s : State) (data : Word) (strb : BitVec 4),
    (strb = 0b1111#4 ∧ s.busy = false ∧ s.err = false →
      hostWrite (at25 0x014) data strb s = { s with
        cmdLast := data, busy := true, done := false, response := some (.write .okay) }) ∧
    (¬ (strb = 0b1111#4 ∧ s.busy = false ∧ s.err = false) →
      hostWrite (at25 0x014) data strb s = { s with ovr := true, response := some (.write .okay) })

/-- R358: the five kinds of dropped write, with any strobes, and a write without strobes to any of their targets, get
`OKAY`, set `OVR`, and change nothing else, the interrupt line not either. -/
def Obligations.DroppedWritesOnlySetOvr : Prop :=
  ∀ (s t : State) (data : Word) (strb : BitVec 4), t = { s with ovr := true, response := some (.write .okay) } →
    t.irq = s.irq ∧
    (strb ≠ 0b1111#4 ∨ s.busy = true ∨ s.err = true → hostWrite (at25 0x014) data strb s = t) ∧
    (s.busy = true ∨ strb = 0b0000#4 → ∀ off ∈ [0x020, 0x024, 0x028, 0x02C], hostWrite (at25 off) data strb s = t) ∧
    (s.busy = true ∨ strb = 0b0000#4 → ∀ k, 4 * k < s.bufBytes → legalBufBytes s.bufBytes = true →
      hostWrite (at25 (0x1000000 + 4 * k)) data strb s = t)

/-- R355: while the engine is idle, a write with a strobe to an operand register stores the strobed byte lanes and keeps
the others, whatever the value, and changes nothing else; one without a strobe keeps every lane (R358). -/
def Obligations.OperandWritesStoreTheStrobedLanes : Prop :=
  ∀ (s : State) (data : Word) (strb : BitVec 4), s.busy = false →
    (strb = 0b0000#4 → ∀ off ∈ [0x020, 0x024, 0x028, 0x02C],
      hostWrite (at25 off) data strb s = { s with ovr := true, response := some (.write .okay) }) ∧
    (strb ≠ 0b0000#4 →
    (∃ v, (∀ j < 4, laneByte v j = laneOf s.srcBase data strb j) ∧
      hostWrite (at25 0x020) data strb s = { s with srcBase := v, response := some (.write .okay) }) ∧
    (∃ v, (∀ j < 4, laneByte v j = laneOf s.srcLen data strb j) ∧
      hostWrite (at25 0x024) data strb s = { s with srcLen := v, response := some (.write .okay) }) ∧
    (∃ v, (∀ j < 4, laneByte v j = laneOf s.dstBase data strb j) ∧
      hostWrite (at25 0x028) data strb s = { s with dstBase := v, response := some (.write .okay) }) ∧
    (∃ v, (∀ j < 4, laneByte v j = laneOf s.dstCap data strb j) ∧
      hostWrite (at25 0x02C) data strb s = { s with dstCap := v, response := some (.write .okay) }))

/-- R359: a `STATUS` write clears exactly the strobed W1C bits written with 1, at any time; `irq` follows at once;
`ERR_CAUSE`, `ERR_INFO` and everything else stay. -/
def Obligations.StatusWritesClearTheWrittenBits : Prop :=
  ∀ (s : State) (data : Word) (strb : BitVec 4), ∃ d e o : Bool,
    hostWrite (at25 0x010) data strb s = { s with done := d, err := e, ovr := o, response := some (.write .okay) } ∧
    (d = true ↔ s.done = true ∧ ¬ (strb.getLsbD 0 = true ∧ data.getLsbD 1 = true)) ∧
    (e = true ↔ s.err = true ∧ ¬ (strb.getLsbD 0 = true ∧ data.getLsbD 2 = true)) ∧
    (o = true ↔ s.ovr = true ∧ ¬ (strb.getLsbD 0 = true ∧ data.getLsbD 3 = true)) ∧
    ((hostWrite (at25 0x010) data strb s).irq = true ↔ (d = true ∧ s.doneIE = true) ∨ (e = true ∧ s.errIE = true))

/-- R360 and R57: a `CTRL` write that asks for the soft reset performs it and nothing else; any other stores the two
enables if lane 0 is strobed. The interrupt line is the OR of the enabled pending bits, so it follows at once. -/
def Obligations.ControlWritesStoreTheEnables : Prop :=
  (∀ s : State, s.irq = true ↔ (s.done = true ∧ s.doneIE = true) ∨ (s.err = true ∧ s.errIE = true)) ∧
  ∀ (s : State) (data : Word) (strb : BitVec 4),
    (strb.getLsbD 3 = true ∧ data.getLsbD 31 = true →
      hostWrite (at25 0x00C) data strb s = { softReset s with response := some (.write .okay) }) ∧
    (¬ (strb.getLsbD 3 = true ∧ data.getLsbD 31 = true) → strb.getLsbD 0 = true →
      hostWrite (at25 0x00C) data strb s = { s with
        doneIE := data.getLsbD 0, errIE := data.getLsbD 1, response := some (.write .okay) }) ∧
    (¬ (strb.getLsbD 3 = true ∧ data.getLsbD 31 = true) → strb.getLsbD 0 = false →
      hostWrite (at25 0x00C) data strb s = { s with response := some (.write .okay) })

/-- R350 and R352: a transaction at a misaligned or an unmapped offset gets `SLVERR`, reads 0 and has no effect; every
other gets `OKAY`. -/
def Obligations.MisalignedAndUnmappedTransactionsGetSlverr : Prop :=
  ∀ (s : State) (off : Offset),
    (off.toNat % 4 ≠ 0 ∨ unmappedOffset s.bufBytes off.toNat →
      (hostRead off s).response = some (.read .slverr 0#32) ∧
      ∀ data strb, hostWrite off data strb s = { s with response := some (.write .slverr) }) ∧
    (off.toNat % 4 = 0 → ¬ unmappedOffset s.bufBytes off.toNat →
      (∃ v, (hostRead off s).response = some (.read .okay v)) ∧
      ∀ data strb, (hostWrite off data strb s).response = some (.write .okay))

/-- R354: writes to read-only state get `OKAY` and have no effect; the reserved bits of `CTRL` and `STATUS` ignore what
is written to them and read 0. -/
def Obligations.ReadOnlyStateAndReservedBitsIgnoreWrites : Prop :=
  ∀ s : State,
    (∀ off : Offset, readOnlyOffset off.toNat → ignoresWrites s off) ∧
    (∀ d d' strb, d.getLsbD 0 = d'.getLsbD 0 → d.getLsbD 1 = d'.getLsbD 1 → d.getLsbD 31 = d'.getLsbD 31 →
      hostWrite (at25 0x00C) d strb s = hostWrite (at25 0x00C) d' strb s) ∧
    (∀ d d' strb, d.getLsbD 1 = d'.getLsbD 1 → d.getLsbD 2 = d'.getLsbD 2 → d.getLsbD 3 = d'.getLsbD 3 →
      hostWrite (at25 0x010) d strb s = hostWrite (at25 0x010) d' strb s) ∧
    (∃ v, readsAs s (at25 0x00C) v ∧ ∀ j, 2 ≤ j → v.getLsbD j = false) ∧
    (∃ v, readsAs s (at25 0x010) v ∧ ∀ j, 8 ≤ j → v.getLsbD j = false)

/-- R353, R106, R34 to R48: what each register reads as, idle and busy; a read changes no state of HUFF. -/
def Obligations.RegistersReadAsHeld : Prop :=
  ∀ s : State,
    (∀ off, ∃ r, hostRead off s = { s with response := some r, draws := s.draws + 1 }) ∧
    (∃ v, readsAs s (at25 0x00C) v ∧ v.getLsbD 0 = s.doneIE ∧ v.getLsbD 1 = s.errIE) ∧
    (∃ v, readsAs s (at25 0x010) v ∧ v.getLsbD 0 = s.busy ∧ v.getLsbD 3 = s.ovr ∧ v.getLsbD 7 = s.irq ∧
      (s.busy = false → v.getLsbD 1 = s.done ∧ v.getLsbD 2 = s.err ∧ v.getLsbD 4 = s.freqValid ∧
        v.getLsbD 5 = s.treeValid ∧ v.getLsbD 6 = s.codesValid) ∧
      (s.busy = true → v.getLsbD 1 = false ∧ v.getLsbD 2 = false)) ∧
    readsAs s (at25 0x014) s.cmdLast ∧
    readsAs s (at25 0x020) s.srcBase ∧ readsAs s (at25 0x024) s.srcLen ∧
    readsAs s (at25 0x028) s.dstBase ∧ readsAs s (at25 0x02C) s.dstCap ∧
    (s.busy = false →
      (∃ v, readsAs s (at25 0x018) v ∧ v.toNat = s.errCause.code.toNat) ∧
      readsAs s (at25 0x01C) s.errInfo ∧ readsAs s (at25 0x030) s.dstLen ∧ readsAs s (at25 0x034) s.hdrLen ∧
      (∃ v, readsAs s (at25 0x038) v ∧ v.toNat = s.padding.toNat) ∧
      (∃ v, readsAs s (at25 0x03C) v ∧ v.toNat = s.nsym.toNat) ∧
      (∃ lo hi, readsAs s (at25 0x040) lo ∧ readsAs s (at25 0x044) hi ∧
        hi.toNat * 2 ^ 32 + lo.toNat = s.total.toNat) ∧
      (∃ w0 w1 w2, readsAs s (at25 0x048) w0 ∧ readsAs s (at25 0x04C) w1 ∧ readsAs s (at25 0x050) w2 ∧
        w2.toNat * 2 ^ 64 + w1.toNat * 2 ^ 32 + w0.toNat = s.totalBits.toNat) ∧
      (∃ v, readsAs s (at25 0x054) v ∧ v.toNat = s.root.toNat) ∧
      (∃ v, readsAs s (at25 0x058) v ∧ v.toNat = s.nodes.toNat)) ∧
    (s.busy = true →
      ∀ off ∈ [0x018, 0x01C, 0x030, 0x034, 0x038, 0x03C, 0x040, 0x044, 0x048, 0x04C, 0x050, 0x054, 0x058],
      readsAs s (at25 off) (Config.drawWord s.draws))

/-- R59: the two words of a FREQ entry; the window is read-only and draws while busy or invalid. -/
def Obligations.FreqWindowShowsTheCounters : Prop :=
  ∀ (s : State) (x : Byte),
    (s.busy = false → s.freqValid = true →
      ∃ lo hi, readsAs s (at25 (0x1000 + 8 * x.toNat)) lo ∧ readsAs s (at25 (0x1000 + 8 * x.toNat + 4)) hi ∧
        hi.toNat * 2 ^ 32 + lo.toNat = (symAt s.freq x).toNat) ∧
    (s.busy = true ∨ s.freqValid = false → ∀ w ∈ [0, 1],
      readsAs s (at25 (0x1000 + 8 * x.toNat + 4 * w)) (Config.drawWord s.draws)) ∧
    ∀ w ∈ [0, 1], ignoresWrites s (at25 (0x1000 + 8 * x.toNat + 4 * w))

/-- R60: the four words of a node slot; the window is read-only and draws while busy, while there is no tree, and for
a slot not in use. -/
def Obligations.NodeWindowShowsTheNodes : Prop :=
  ∀ (s : State) (i : Nat) (h : i < 511),
    (s.busy = false → s.treeValid = true → i < s.nodes.toNat →
      (∃ v, readsAs s (at25 (0x2000 + 16 * i)) v ∧
        v.extractLsb' 0 1 = s.node[i].kind ∧ v.extractLsb' 8 8 = s.node[i].sym ∧
        v.extractLsb' 1 7 = 0#7 ∧ v.extractLsb' 16 16 = 0#16) ∧
      (∃ v, readsAs s (at25 (0x2000 + 16 * i + 4)) v ∧
        v.extractLsb' 0 9 = s.node[i].left ∧ v.extractLsb' 16 9 = s.node[i].right ∧
        v.extractLsb' 9 7 = 0#7 ∧ v.extractLsb' 25 7 = 0#7) ∧
      (∃ lo hi, readsAs s (at25 (0x2000 + 16 * i + 8)) lo ∧ readsAs s (at25 (0x2000 + 16 * i + 12)) hi ∧
        hi.toNat * 2 ^ 32 + lo.toNat = s.node[i].f.toNat)) ∧
    (s.busy = true ∨ s.treeValid = false ∨ s.nodes.toNat ≤ i → ∀ w < 4,
      readsAs s (at25 (0x2000 + 16 * i + 4 * w)) (Config.drawWord s.draws)) ∧
    ∀ w < 4, ignoresWrites s (at25 (0x2000 + 16 * i + 4 * w))

/-- R61: the sixteen words of a codebook entry; the window is read-only and draws while busy or invalid. -/
def Obligations.CodeWindowShowsTheCodes : Prop :=
  ∀ (s : State) (x : Byte),
    (s.busy = false → s.codesValid = true →
      (∃ v, readsAs s (at25 (0x4000 + 64 * x.toNat)) v ∧ v.toNat = (symAt s.codeLen x).toNat) ∧
      (∀ w, 1 ≤ w → w ≤ 7 → readsAs s (at25 (0x4000 + 64 * x.toNat + 4 * w)) 0#32) ∧
      ∀ w, 8 ≤ w → w ≤ 15 → ∃ v, readsAs s (at25 (0x4000 + 64 * x.toNat + 4 * w)) v ∧
        ∀ j < 32, v.getLsbD j = (symAt s.codeBits x).getLsbD (32 * (w - 8) + j)) ∧
    (s.busy = true ∨ s.codesValid = false → ∀ w < 16,
      readsAs s (at25 (0x4000 + 64 * x.toNat + 4 * w)) (Config.drawWord s.draws)) ∧
    ∀ w < 16, ignoresWrites s (at25 (0x4000 + 64 * x.toNat + 4 * w))

/-- R101 and R102: the BUF window shows four bytes in little-endian lanes, and a write stores the strobed lanes and
leaves every other byte (without a strobe it also sets `OVR`, R358); while busy a read draws and a write is dropped. -/
def Obligations.BufWindowMovesLittleEndianLanes : Prop :=
  ∀ (s : State) (k : Nat), s.buf.wf = true → legalBufBytes s.bufBytes = true → 4 * k < s.bufBytes →
    (s.busy = false →
      (∃ v, readsAs s (at25 (0x1000000 + 4 * k)) v ∧ ∀ j < 4, laneByte v j = s.buf.read (4 * k + j)) ∧
      ∀ data strb, ∃ m, hostWrite (at25 (0x1000000 + 4 * k)) data strb s =
          { s with buf := m, ovr := s.ovr || decide (strb = 0b0000#4), response := some (.write .okay) } ∧
        (∀ j < 4, m.read (4 * k + j) = if strb.getLsbD j then laneByte data j else s.buf.read (4 * k + j)) ∧
        bufSameOutside s.buf m (4 * k) 4) ∧
    (s.busy = true →
      readsAs s (at25 (0x1000000 + 4 * k)) (Config.drawWord s.draws) ∧
      ∀ data strb, hostWrite (at25 (0x1000000 + 4 * k)) data strb s =
        { s with ovr := true, response := some (.write .okay) })

/-- R111, R112 and R461: while a command is in flight no host transaction but the soft reset changes anything the
command reads or writes: only the enables, the W1C bits and the model's own fields can move. -/
def Obligations.HostTransactionsLeaveTheCommandInFlight : Prop :=
  ∀ (s t : State) (x : Input) (xs : List Input), s.busy = true → s.inputs = x :: xs → isTransaction x = true →
    isSoftReset x = false → step s = .next t →
    t = { s with
      doneIE := t.doneIE, errIE := t.errIE, done := t.done, err := t.err, ovr := t.ovr,
      response := t.response, draws := t.draws, inputs := xs } ∧
    (t.done = true → s.done = true) ∧ (t.err = true → s.err = true)

/-! ### The commands -/

/-- R365: NOP completes and does nothing else. -/
def Obligations.NopOnlyCompletes : Prop :=
  ∀ s : State, exec .nop s = .next { s with busy := false, done := true }

/-- R201: CLEAR starts a new table: every counter, `TOTAL` and `NSYM` 0, the flags 1, 0, 0; the tree and the codebook
keep their values. -/
def Obligations.ClearStartsAZeroTable : Prop :=
  ∀ s : State, ∃ F, (∀ x, symAt F x = 0#64) ∧
    exec .clear s = .next { s with
      freq := F, total := 0#64, nsym := 0#9, freqValid := true, treeValid := false, codesValid := false,
      busy := false, done := true }

/-- R200 and R202: COUNT adds exactly the counts of the source range, or is turned away by the first check that
fails. -/
def Obligations.CountAddsTheExactByteCounts : Prop :=
  ∀ s : State, s.Inv →
    (s.freqValid = false → exec .count s = raise .sequence 0x1#32 s) ∧
    (s.freqValid = true → ¬ s.srcOk → exec .count s = raise .srcRange 0#32 s) ∧
    (s.freqValid = true → s.srcOk → 2 ^ 64 - 1 < s.total.toNat + s.srcLen.toNat →
      exec .count s = raise .freqOverflow 0#32 s) ∧
    (s.freqValid = true → s.srcOk → s.total.toNat + s.srcLen.toNat ≤ 2 ^ 64 - 1 → ∃ F T n,
      (∀ x, (symAt F x).toNat = (symAt s.freq x).toNat + s.srcCount x) ∧
      T.toNat = s.total.toNat + s.srcLen.toNat ∧
      n.toNat = (symbols.filter fun x => decide (0 < (symAt F x).toNat)).length ∧
      exec .count s = .next { s with
        freq := F, total := T, nsym := n, freqValid := true, treeValid := false, codesValid := false,
        busy := false, done := true })

/-- R230: BUILD writes the tree of the current table, its root and its node count; without a table it is turned
away. -/
def Obligations.BuildWritesTheTreeOfTheTable : Prop :=
  ∀ s : State,
    (s.freqValid = false → exec .build s = raise .sequence 0x1#32 s) ∧
    (s.freqValid = true → ∃ pool m,
      poolHolds pool (buildTree s.freq) ∧ m.toNat = (buildTree s.freq).nodes.length ∧
      exec .build s = .next { s with
        node := pool, root := (buildTree s.freq).root, nodes := m, treeValid := true, codesValid := false,
        draws := s.draws + 1, busy := false, done := true })

/-- R255 and R256: DERIVE writes the codebook of the current tree and the payload length in bits; without a tree it is
turned away, and nothing else can end it. -/
def Obligations.DeriveWritesTheCodesOfTheTree : Prop :=
  ∀ s : State, s.Inv →
    (s.treeValid = false → exec .derive s = raise .sequence 0x2#32 s) ∧
    (s.treeValid = true → ∃ c T,
      deriveCodes s.node s.root = some c ∧
      T.toNat = (symbols.map fun x => (symAt s.freq x).toNat * (symAt c.len x).toNat).sum ∧
      exec .derive s = .next { s with
        codeLen := c.len, codeBits := c.bits, totalBits := T, codesValid := true, busy := false, done := true })

/-- R276: PACK writes the code string of the source range as a payload at `DST_BASE`, changes no other byte, and
reports its length and padding; or it is turned away by the first check that fails. -/
def Obligations.PackWritesTheCodeString : Prop :=
  ∀ s : State, s.Inv →
    (s.codesValid = false → exec .pack s = raise .sequence 0x4#32 s) ∧
    (s.codesValid = true → rangeErrors .pack s) ∧
    (s.codesValid = true → s.rangesOk →
      (∀ j, ∀ h : j < s.srcBytes.length, symAt s.codeLen s.srcBytes[j] = 0#8 →
        (∀ j', ∀ h' : j' < s.srcBytes.length, j' < j → symAt s.codeLen s.srcBytes[j'] ≠ 0#8) →
        exec .pack s = raise .symbolAbsent (BitVec.ofNat 32 j) s) ∧
      ((∀ x ∈ s.srcBytes, symAt s.codeLen x ≠ 0#8) → ∀ T,
        T = (s.srcBytes.map fun x => (symAt s.codeLen x).toNat).sum →
        (s.dstCap.toNat < ceil8 T →
          exec .pack s = raise .dstOverflow (BitVec.ofNat 32 (min (ceil8 T) (2 ^ 32 - 1))) s) ∧
        (ceil8 T ≤ s.dstCap.toNat → ∃ out m n p,
          isPayload out (codeString s.codeBook s.srcBytes) ∧ out.length = ceil8 T ∧ s.storedTo out m ∧
          n.toNat = ceil8 T ∧ p.toNat = pad T ∧
          exec .pack s = .next { s with buf := m, dstLen := n, padding := p, busy := false, done := true })))

/-- R286 and R412: UNPACK walks the payload with `TOTAL` symbols and `PADDING` dropped bits and writes the symbols at
`DST_BASE`; on a walk error it keeps those emitted and sets `DST_LEN` to 0; it is turned away by the first check that
fails. -/
def Obligations.UnpackWritesTheWalkedSymbols : Prop :=
  ∀ s : State, s.Inv →
    (s.treeValid = false → exec .unpack s = raise .sequence 0x2#32 s) ∧
    (s.treeValid = true → rangeErrors .unpack s) ∧
    (s.treeValid = true → s.rangesOk → s.srcLen = 0#32 → s.padding ≠ 0#3 →
      exec .unpack s = raise .fmtPadding (BitVec.ofNat 32 s.padding.toNat) s) ∧
    (s.treeValid = true → s.rangesOk → ¬ (s.srcLen = 0#32 ∧ s.padding ≠ 0#3) → s.dstCap.toNat < s.total.toNat →
      exec .unpack s = raise .dstOverflow (BitVec.ofNat 32 (min s.total.toNat (2 ^ 32 - 1))) s) ∧
    (s.treeValid = true → s.rangesOk → ¬ (s.srcLen = 0#32 ∧ s.padding ≠ 0#3) → s.total.toNat ≤ s.dstCap.toNat →
      ∃ w m, w = walkDecode s.node s.root s.srcBytes s.padding.toNat s.total.toNat ∧ s.storedTo w.out m ∧
        ((w.last = .done ∧ w.out.length = s.total.toNat ∧ ∃ n, n.toNat = s.total.toNat ∧
          exec .unpack s = .next { s with buf := m, dstLen := n, busy := false, done := true }) ∨
        (∃ c k, w.last = .failed c k ∧ c.isWalk = true ∧
          exec .unpack s = .next { s with
            buf := m, dstLen := 0#32, errCause := c, errInfo := BitVec.ofNat 32 k, err := true,
            busy := false, done := true })))

/-- R315: ENCODE writes the whole stream, header then payload, at `DST_BASE`, with the table, tree and codebook of the
input, or is turned away by the first check that fails. -/
def Obligations.EncodeWritesTheWholeStream : Prop :=
  ∀ s : State, s.Inv →
    rangeErrors .encode s ∧
    (s.rangesOk → ∃ F pool c T n need,
      (∀ x, (symAt F x).toNat = s.srcCount x) ∧ poolHolds pool (buildTree F) ∧
      deriveCodes pool (buildTree F).root = some c ∧
      T = (symbols.map fun x => (symAt F x).toNat * (symAt c.len x).toNat).sum ∧
      n = (symbols.filter fun x => decide (0 < (symAt F x).toNat)).length ∧ need = 11 + 9 * n + ceil8 T ∧
      (s.dstCap.toNat < need →
        exec .encode s = raise .dstOverflow (BitVec.ofNat 32 (min need (2 ^ 32 - 1))) s) ∧
      (need ≤ s.dstCap.toNat → ∃ out m tb ns dl hl p m',
        isPayload out (codeString c s.srcBytes) ∧ out.length = ceil8 T ∧
        s.storedTo (serializeHeader F s.srcLen.toNat (pad T) ++ out) m ∧
        tb.toNat = T ∧ ns.toNat = n ∧ dl.toNat = need ∧ hl.toNat = 11 + 9 * n ∧ p.toNat = pad T ∧
        m'.toNat = (buildTree F).nodes.length ∧
        exec .encode s = .next { s with
          freq := F, total := BitVec.ofNat 64 s.srcLen.toNat, nsym := ns,
          node := pool, root := (buildTree F).root, nodes := m',
          codeLen := c.len, codeBits := c.bits, totalBits := tb,
          buf := m, dstLen := dl, hdrLen := hl, padding := p,
          freqValid := true, treeValid := true, codesValid := true,
          draws := s.draws + 1, busy := false, done := true }))

/-- R325: PARSE loads the table of a valid header, and on a format error changes nothing but the error state. -/
def Obligations.ParseLoadsTheTableOfTheHeader : Prop :=
  ∀ s : State, s.Inv →
    (¬ s.srcOk → exec .parse s = raise .srcRange 0#32 s) ∧
    (s.srcOk →
      (∀ c k, parseHeader s.srcBytes = .error (c, k) → exec .parse s = raise c (BitVec.ofNat 32 k) s) ∧
      (∀ h, parseHeader s.srcBytes = .ok h → ∃ N n p hl,
        N.toNat = h.total ∧ n.toNat = h.count ∧ p.toNat = h.padding ∧ hl.toNat = h.length ∧
        exec .parse s = .next { s with
          freq := h.freq, total := N, nsym := n, padding := p, hdrLen := hl,
          freqValid := true, treeValid := false, codesValid := false, busy := false, done := true }))

/-- R330 and R412: DECODE loads the table of the header, builds its tree and walks the payload; on a walk error it keeps
the table, the tree and the symbols emitted, and sets `DST_LEN` to 0; it is turned away by the first check that
fails. -/
def Obligations.DecodeWritesTheDecodedStream : Prop :=
  ∀ s : State, s.Inv →
    rangeErrors .decode s ∧
    (s.rangesOk →
      (∀ c k, parseHeader s.srcBytes = .error (c, k) → exec .decode s = raise c (BitVec.ofNat 32 k) s) ∧
      (∀ h, parseHeader s.srcBytes = .ok h →
        (s.dstCap.toNat < h.total →
          exec .decode s = raise .dstOverflow (BitVec.ofNat 32 (min h.total (2 ^ 32 - 1))) s) ∧
        (h.total ≤ s.dstCap.toNat → ∃ N n p hl pool m' w m s',
          N.toNat = h.total ∧ n.toNat = h.count ∧ p.toNat = h.padding ∧ hl.toNat = h.length ∧
          poolHolds pool (buildTree h.freq) ∧ m'.toNat = (buildTree h.freq).nodes.length ∧
          w = walkDecode pool (buildTree h.freq).root (s.srcBytes.drop h.length) h.padding h.total ∧
          s.storedTo w.out m ∧
          s' = { s with
            freq := h.freq, total := N, nsym := n, padding := p, hdrLen := hl,
            node := pool, root := (buildTree h.freq).root, nodes := m',
            freqValid := true, treeValid := true, codesValid := false, draws := s.draws + 1 } ∧
          ((w.last = .done ∧ w.out.length = h.total ∧ ∃ n', n'.toNat = h.total ∧
            exec .decode s = .next { s' with buf := m, dstLen := n', busy := false, done := true }) ∨
          (∃ c k, w.last = .failed c k ∧ c.isWalk = true ∧
            exec .decode s = .next { s' with
              buf := m, dstLen := 0#32, errCause := c, errInfo := BitVec.ofNat 32 k, err := true,
              busy := false, done := true })))))

/-! ### The tree -/

/-- R222, R224 and R233: every node made after the leaves takes the waiting node of the smallest key as its left child
and the one of the second smallest key as its right child, and its frequency is their sum. -/
def Obligations.MergesTakeTheTwoSmallestKeys : Prop :=
  ∀ (F : SymTable (BitVec 64)) (k : Nat), tableSum F < 2 ^ 64 → 2 ≤ presentCount F →
    presentCount F ≤ k → k < (buildTree F).nodes.length →
    ∃ a b, waiting (buildTree F).nodes (presentCount F) k a ∧ waiting (buildTree F).nodes (presentCount F) k b ∧
      keyLt (nodeFreq (buildTree F).nodes a) a (nodeFreq (buildTree F).nodes b) b ∧
      (∀ c, waiting (buildTree F).nodes (presentCount F) k c → c ≠ a → c ≠ b →
        keyLt (nodeFreq (buildTree F).nodes b) b (nodeFreq (buildTree F).nodes c) c) ∧
      ∃ nd : Node, (buildTree F).nodes[k]? = some nd ∧ nd.kind = 1#1 ∧ nd.sym = 0#8 ∧
        nd.left.toNat = a ∧ nd.right.toNat = b ∧
        nd.f.toNat = nodeFreq (buildTree F).nodes a + nodeFreq (buildTree F).nodes b

/-- R220 and R221: the leaves are the present symbols, one each, in ascending order, in the first slots; every other
node is internal. -/
def Obligations.LeavesAreThePresentSymbolsInOrder : Prop :=
  ∀ F : SymTable (BitVec 64), ∃ syms : List Byte,
    (∀ x, x ∈ syms ↔ symAt F x ≠ 0#64) ∧ syms.Pairwise (fun a b => a.toNat < b.toNat) ∧
    syms.length ≤ (buildTree F).nodes.length ∧
    (∀ k, ∀ h : k < syms.length, (buildTree F).nodes[k]? = some
      { kind := 0#1, sym := syms[k], f := symAt F syms[k], left := 0x1FF#9, right := 0x1FF#9 }) ∧
    ∀ k, syms.length ≤ k → ∀ nd : Node, (buildTree F).nodes[k]? = some nd → nd.kind = 1#1

/-- R225, R226 and R227: no symbol gives the empty tree, one the synthesized root above its leaf, and n ≥ 2 symbols
2n − 1 nodes with the root last; `NONE` is never the index of a node. -/
def Obligations.NodeCountsFollowThePresentSymbols : Prop :=
  ∀ (F : SymTable (BitVec 64)) (n : Nat), n = (symbols.filter fun x => decide (0 < (symAt F x).toNat)).length →
    (n = 0 → (buildTree F).nodes = [] ∧ (buildTree F).root = 0x1FF#9) ∧
    (n = 1 → ∃ x, 0 < (symAt F x).toNat ∧ (buildTree F).root = 1#9 ∧ (buildTree F).nodes =
      [{ kind := 0#1, sym := x, f := symAt F x, left := 0x1FF#9, right := 0x1FF#9 },
       { kind := 1#1, sym := 0#8, f := symAt F x, left := 0#9, right := 0x1FF#9 }]) ∧
    (2 ≤ n → (buildTree F).nodes.length = 2 * n - 1 ∧ (buildTree F).root.toNat = 2 * n - 2) ∧
    (buildTree F).nodes.length ≤ 511

/-- R228: every merged node has the sum of its children's frequencies, the root has the total, and no frequency exceeds
the total. -/
def Obligations.FrequenciesAddUpToTheTotal : Prop :=
  ∀ F : SymTable (BitVec 64), tableSum F < 2 ^ 64 →
    (∀ (i : Nat) (nd : Node), (buildTree F).nodes[i]? = some nd → nd.f.toNat ≤ tableSum F) ∧
    (1 ≤ presentCount F → nodeFreq (buildTree F).nodes (buildTree F).root.toNat = tableSum F) ∧
    (2 ≤ presentCount F → ∀ (i : Nat) (nd : Node), presentCount F ≤ i → (buildTree F).nodes[i]? = some nd →
      nd.f.toNat = nodeFreq (buildTree F).nodes nd.left.toNat + nodeFreq (buildTree F).nodes nd.right.toNat)

/-- R229: every node but the root has exactly one parent, on exactly one side; a child's index is smaller than its
parent's; for n ≥ 2 every internal node has two children; and no leaf is deeper than n − 1, or than 1 for n = 1. -/
def Obligations.TheTreeHasNoSharingAndNoCycle : Prop :=
  ∀ (F : SymTable (BitVec 64)) (pool : Vector Node 511), poolHolds pool (buildTree F) → 1 ≤ presentCount F →
    (∀ i < (buildTree F).nodes.length, i ≠ (buildTree F).root.toNat →
      ∃ (p : Nat) (b : Bool), (∃ nd : Node, (buildTree F).nodes[p]? = some nd ∧ nd.kind = 1#1 ∧
          (if b then nd.right else nd.left).toNat = i) ∧
        ∀ (p' : Nat) (b' : Bool), (∃ nd : Node, (buildTree F).nodes[p']? = some nd ∧ nd.kind = 1#1 ∧
          (if b' then nd.right else nd.left).toNat = i) → p' = p ∧ b' = b) ∧
    (∀ (p : Nat) (nd : Node), (buildTree F).nodes[p]? = some nd → nd.kind = 1#1 →
      nd.left.toNat < p ∧ (2 ≤ presentCount F → nd.right.toNat < p)) ∧
    (∀ (l : List Bool) (i : NodeIndex) (nd : Node), followBits pool (buildTree F).root l = some i →
      nodeAt pool i = some nd → nd.kind = 0#1 →
      1 ≤ l.length ∧ (2 ≤ presentCount F → l.length ≤ presentCount F - 1) ∧ (presentCount F = 1 → l.length = 1))

/-! ### The codes -/

/-- R250, R253 and R254: the derivation gives every absent symbol no code, and every present one a code of 1 to n − 1
bits (of 1 bit, the bit 0, for n = 1) that fits its field. -/
def Obligations.CodeLengthsStayWithinTheirFields : Prop :=
  ∀ (F : SymTable (BitVec 64)) (pool : Vector Node 511), poolHolds pool (buildTree F) →
    ∃ c, deriveCodes pool (buildTree F).root = some c ∧
      (∀ x, symAt F x = 0#64 → symAt c.len x = 0#8 ∧ symAt c.bits x = 0#255) ∧
      (∀ x, symAt F x ≠ 0#64 → 1 ≤ (symAt c.len x).toNat ∧
        (symAt c.bits x).toNat < 2 ^ (symAt c.len x).toNat ∧
        (presentCount F = 1 → codeOf c x = [false]) ∧
        (2 ≤ presentCount F → (symAt c.len x).toNat ≤ presentCount F - 1))

/-- R251 and R258: the code of a symbol, read as branches (0 left, 1 right), leads from the root to the leaf of that
symbol, and every path from the root to a leaf is the code of the leaf's symbol. -/
def Obligations.CodesAreThePathsToTheLeaves : Prop :=
  ∀ (F : SymTable (BitVec 64)) (pool : Vector Node 511) (c : CodeBook), poolHolds pool (buildTree F) →
    deriveCodes pool (buildTree F).root = some c →
    (∀ x, symAt F x ≠ 0#64 → ∃ i nd, followBits pool (buildTree F).root (codeOf c x) = some i ∧
      nodeAt pool i = some nd ∧ nd.kind = 0#1 ∧ nd.sym = x) ∧
    (1 ≤ presentCount F → ∀ (l : List Bool) (i : NodeIndex) (nd : Node),
      followBits pool (buildTree F).root l = some i → nodeAt pool i = some nd → nd.kind = 0#1 → symAt F nd.sym ≠ 0#64 ∧ codeOf c nd.sym = l)

/-- R257: no code is a beginning of another, and the code lengths fill the tree exactly: the sum of 2^(−length) is 1
for n ≥ 2 and 1/2 for n = 1, here in units of 2^(−255). -/
def Obligations.CodesArePrefixFreeAndComplete : Prop :=
  ∀ (F : SymTable (BitVec 64)) (pool : Vector Node 511) (c : CodeBook), poolHolds pool (buildTree F) →
    deriveCodes pool (buildTree F).root = some c →
    (∀ x y, symAt F x ≠ 0#64 → symAt F y ≠ 0#64 → x ≠ y → ¬ codeOf c x <+: codeOf c y) ∧
    (2 ≤ presentCount F →
      ((symbols.filter fun x => symAt F x != 0#64).map fun x => 2 ^ (255 - (symAt c.len x).toNat)).sum = 2 ^ 255) ∧
    (presentCount F = 1 →
      ((symbols.filter fun x => symAt F x != 0#64).map fun x => 2 ^ (255 - (symAt c.len x).toNat)).sum = 2 ^ 254)

/-! ### Packing and walking -/

/-- R272, R273, R274, R275 and R280: the packer places bit p of the code string in bit 7 − (p mod 8) of byte p div 8,
fills the last byte with zero bits, and returns their number, 0 for a multiple of 8; the usable bits of the payload
are the code string again. -/
def Obligations.PackingPlacesBitsMostSignificantFirst : Prop :=
  (∀ T, pad T = (8 - T % 8) % 8 ∧ pad T < 8 ∧ (T % 8 = 0 → pad T = 0)) ∧
  (∀ (c : CodeBook) (input : List Byte), ∃ l, l = codeString c input ∧
    isPayload (packBits c input).bytes l ∧ (packBits c input).bytes.length = ceil8 l.length ∧
    (packBits c input).count = l.length ∧ (packBits c input).padding = pad l.length ∧
    (input = [] → (packBits c input).bytes = []) ∧
    payloadBits (packBits c input).bytes (packBits c input).padding = l) ∧
  ∀ (payload : List Byte) (p : Nat), p ≤ 8 * payload.length →
    (payloadBits payload p).length = 8 * payload.length - p ∧
    ∀ pos, ∀ h : pos < (payloadBits payload p).length,
      (payloadBits payload p)[pos] = ((payload.getD (pos / 8) 0#8).toNat / 2 ^ (7 - pos % 8) % 2 == 1)

/-- R282, R283 and R284: the walk succeeds exactly when the usable bits are N paths from the root to a leaf, and emits
their symbols; each walk error says where the paths end. -/
def Obligations.TheWalkReadsPathsToLeaves : Prop :=
  ∀ (pool : Vector Node 511) (root : NodeIndex) (payload : List Byte) (p n : Nat),
    (∀ nd, nodeAt pool root = some nd → nd.kind = 1#1) → (root ≠ 0x1FF#9 ∨ n = 0) →
    ∃ bits out last, bits = payloadBits payload p ∧ walkDecode pool root payload p n = ⟨out, last⟩ ∧
      ((last = .done ∧ out.length = n ∧ Emits pool root bits out) ∨
      (∃ k, last = .failed .fmtTrailing k ∧ out.length = n ∧ k < bits.length ∧ Emits pool root (bits.take k) out) ∨
      (last = .failed .fmtCount out.length ∧ out.length < n ∧ Emits pool root bits out) ∨
      (last = .failed .fmtExhausted bits.length ∧ out.length < n ∧
        ∃ done tail i, bits = done ++ tail ∧ tail ≠ [] ∧ Emits pool root done out ∧ insideCode pool root tail i) ∨
      (∃ k, last = .failed .fmtBadcode k ∧ out.length < n ∧ ∃ done tail b rest i nd,
        bits = done ++ tail ++ b :: rest ∧ k = (done ++ tail).length ∧ Emits pool root done out ∧
        followBits pool root tail = some i ∧ nodeAt pool i = some nd ∧ nd.kind = 1#1 ∧
        (if b then nd.right else nd.left) = 0x1FF#9)) ∧
      (∀ out', out'.length = n → Emits pool root bits out' → out = out' ∧ last = .done)

/-! ### The stream -/

/-- R121, R122, R123 and R313: the header is paddingBits, the eight bytes of originalLength, the two of symbolCount, then
for each present symbol in ascending order the symbol and the eight bytes of its frequency, most significant first. -/
def Obligations.HeaderLayoutIsBigEndianAscending : Prop :=
  (∀ N v, (toBe N v).length = N ∧ ∀ k, ∀ h : k < (toBe N v).length,
    (toBe N v)[k].toNat = v / 2 ^ (8 * (N - 1 - k)) % 256) ∧
  (∀ N v, v < 2 ^ (8 * N) → ofBe (toBe N v) = v) ∧
  ∀ (F : SymTable (BitVec 64)) (N p : Nat), ∃ syms : List Byte,
    (∀ x, x ∈ syms ↔ symAt F x ≠ 0#64) ∧ syms.Pairwise (fun a b => a.toNat < b.toNat) ∧
    (serializeHeader F N p).length = 11 + 9 * syms.length ∧ 11 + 9 * syms.length ≤ 2315 ∧
    (serializeHeader F N p)[0]? = some (BitVec.ofNat 8 p) ∧
    ((serializeHeader F N p).drop 1).take 8 = toBe 8 N ∧
    ((serializeHeader F N p).drop 9).take 2 = toBe 2 syms.length ∧
    ∀ k, ∀ h : k < syms.length, (serializeHeader F N p)[11 + 9 * k]? = some syms[k] ∧
      ((serializeHeader F N p).drop (12 + 9 * k)).take 8 = toBe 8 (symAt F syms[k]).toNat

/-- R313 and R322: parsing a serialized header, whatever payload follows, gives back what was serialized; and a stream
parses only if it is a serialized header followed by a payload. -/
def Obligations.ParsingInvertsSerializing : Prop :=
  (∀ (F : SymTable (BitVec 64)) (p : Nat) (payload : List Byte), tableSum F < 2 ^ 64 → p ≤ 7 →
    (payload = [] → p = 0) →
    parseHeader (serializeHeader F (tableSum F) p ++ payload) =
      .ok { freq := F, total := tableSum F, count := presentCount F, padding := p,
            length := 11 + 9 * presentCount F }) ∧
  ∀ (stream : List Byte) (h : Header), parseHeader stream = .ok h → ∃ payload,
    stream = serializeHeader h.freq h.total h.padding ++ payload ∧ h.length = 11 + 9 * h.count ∧
    h.total = tableSum h.freq ∧ h.total < 2 ^ 64 ∧ h.count = presentCount h.freq ∧ h.padding ≤ 7 ∧
    (payload = [] → h.padding = 0)

/-- R322 and R323: each header error says what is wrong with the stream: its length, its padding, its symbol count, an
entry out of order or with frequency 0, or the sum. -/
def Obligations.HeaderErrorsSayWhatIsWrong : Prop :=
  ∀ (stream : List Byte) (c : Cause) (k : Nat), parseHeader stream = .error (c, k) →
    (c = .fmtHdrShort ∧ k = 11 ∧ stream.length < 11) ∨
    (11 ≤ stream.length ∧
      ((c = .fmtPadding ∧ k = (stream.getD 0 0#8).toNat ∧ 7 < k) ∨
      ((stream.getD 0 0#8).toNat ≤ 7 ∧ ∃ n, n = ofBe ((stream.drop 9).take 2) ∧
        ((c = .fmtNsym ∧ k = n ∧ 256 < n) ∨
        (n ≤ 256 ∧
          ((c = .fmtHdrShort ∧ k = 11 + 9 * n ∧ stream.length < k) ∨
          (11 + 9 * n ≤ stream.length ∧
            ((c = .fmtTableOrder ∧ 0 < k ∧ k < n ∧
              (stream.getD (11 + 9 * k) 0#8).toNat ≤ (stream.getD (11 + 9 * (k - 1)) 0#8).toNat) ∨
            (c = .fmtZeroFreq ∧ k < n ∧ ofBe ((stream.drop (12 + 9 * k)).take 8) = 0) ∨
            (c = .fmtSum ∧ k = 0 ∧
              ((List.range n).map fun j => ofBe ((stream.drop (12 + 9 * j)).take 8)).sum ≠
                ofBe ((stream.drop 1).take 8)) ∨
            (c = .fmtPadding ∧ k = (stream.getD 0 0#8).toNat ∧ 0 < k ∧ stream.length = 11 + 9 * n)))))))))

/-! ### Round trips -/

/-- R287: what PACK wrote, UNPACK with the padding PACK set gives back, and succeeds. -/
def Obligations.UnpackInvertsPack : Prop :=
  ∀ s t u : State, s.Inv → s.err = false → s.codesValid = true → s.total.toNat = s.srcLen.toNat →
    exec .pack s = .next t → t.err = false →
    u.Inv → u.err = false → u.treeValid = true → u.node = t.node → u.root = t.root → u.total = t.total →
    u.padding = t.padding → u.srcLen = t.dstLen →
    (∀ k < t.dstLen.toNat, u.buf.read (u.srcBase.toNat + k) = t.buf.read (t.dstBase.toNat + k)) →
    u.rangesOk → s.srcLen.toNat ≤ u.dstCap.toNat →
    ∃ v, exec .unpack u = .next v ∧ v.err = false ∧ v.dstLen = s.srcLen ∧
      (∀ k < s.srcLen.toNat, v.buf.read (u.dstBase.toNat + k) = s.buf.read (s.srcBase.toNat + k)) ∧
      bufSameOutside u.buf v.buf u.dstBase.toNat s.srcLen.toNat

/-- R332: what ENCODE wrote, DECODE gives back, and succeeds, in whatever state it runs. -/
def Obligations.DecodeInvertsEncode : Prop :=
  ∀ s t u : State, s.Inv → s.err = false → exec .encode s = .next t → t.err = false →
    u.Inv → u.err = false → u.srcLen = t.dstLen →
    (∀ k < t.dstLen.toNat, u.buf.read (u.srcBase.toNat + k) = t.buf.read (t.dstBase.toNat + k)) →
    u.rangesOk → s.srcLen.toNat ≤ u.dstCap.toNat →
    ∃ v, exec .decode u = .next v ∧ v.err = false ∧ v.dstLen = s.srcLen ∧ v.freq = t.freq ∧ v.root = t.root ∧
      (∀ k < s.srcLen.toNat, v.buf.read (u.dstBase.toNat + k) = s.buf.read (s.srcBase.toNat + k)) ∧
      bufSameOutside u.buf v.buf u.dstBase.toNat s.srcLen.toNat

/-- R333: a stream that ENCODE wrote, cut short by one or more bytes, never decodes without error: the cause is a
format error, the one that the place of the cut gives; and a cut in the payload still gives the same symbols until the
bits run out. -/
def Obligations.TruncationIsDetected : Prop :=
  ∀ s t u : State, s.Inv → s.err = false → exec .encode s = .next t → t.err = false →
    u.Inv → u.err = false → u.srcLen.toNat < t.dstLen.toNat →
    (∀ k < u.srcLen.toNat, u.buf.read (u.srcBase.toNat + k) = t.buf.read (t.dstBase.toNat + k)) →
    u.rangesOk → s.srcLen.toNat ≤ u.dstCap.toNat →
    ∃ v, exec .decode u = .next v ∧ v.err = true ∧
      (u.srcLen.toNat < t.hdrLen.toNat → v.errCause = .fmtHdrShort) ∧
      (u.srcLen.toNat = t.hdrLen.toNat → t.padding ≠ 0#3 → v.errCause = .fmtPadding) ∧
      (u.srcLen.toNat = t.hdrLen.toNat → t.padding = 0#3 → v.errCause = .fmtCount ∧ v.errInfo = 0#32) ∧
      (t.hdrLen.toNat < u.srcLen.toNat → ∃ e < s.srcLen.toNat,
        ((v.errCause = .fmtCount ∧ v.errInfo.toNat = e) ∨ v.errCause = .fmtExhausted) ∧
        (∀ k < e, v.buf.read (u.dstBase.toNat + k) = s.buf.read (s.srcBase.toNat + k)) ∧
        bufSameOutside u.buf v.buf u.dstBase.toNat e)

/-! ### Commands made of others -/

/-- R331: DECODE is PARSE, the capacity check, BUILD and UNPACK over the payload range, as one command. The two ways
are equated on the whole state. For the node slots from `NODES` on, which R230 leaves unspecified (item 19 of
93_implementation_defined.md), and for the count of draws, that is the model's choice and no rule of the spec: both
ways draw those slots once, at equal counters (log entries 4 and 7). -/
def Obligations.DecodeIsParseThenBuildThenUnpack : Prop :=
  ∀ (s s1 : State) (h : Header), s.Inv → s.err = false → s.rangesOk → parseHeader s.srcBytes = .ok h →
    h.total ≤ s.dstCap.toNat → exec .parse s = .next s1 →
    ∃ s2 s3 s4, exec .build s1 = .next s2 ∧
      s3 = { s2 with
        srcBase := BitVec.ofNat 32 (s.srcBase.toNat + s1.hdrLen.toNat),
        srcLen := BitVec.ofNat 32 (s.srcLen.toNat - s1.hdrLen.toNat) } ∧
      exec .unpack s3 = .next s4 ∧
      exec .decode s = .next { s4 with srcBase := s.srcBase, srcLen := s.srcLen }

/-- R310: a successful ENCODE has the results of CLEAR, COUNT, BUILD, DERIVE and a PACK behind the header. `NODE` is
equated on all its slots. For those from `NODES` on, which R230 leaves unspecified (item 19 of
93_implementation_defined.md), that is the model's choice and no rule of the spec: ENCODE and BUILD draw them at equal
counters (log entries 4 and 7). -/
def Obligations.EncodeIsTheStepByStepPipeline : Prop :=
  ∀ s t : State, s.Inv → s.err = false → exec .encode s = .next t → t.err = false →
    ∃ s1 s2 s3 s4 s5, exec .clear s = .next s1 ∧ exec .count s1 = .next s2 ∧ exec .build s2 = .next s3 ∧
      exec .derive s3 = .next s4 ∧
      exec .pack { s4 with
        dstBase := BitVec.ofNat 32 (s.dstBase.toNat + t.hdrLen.toNat),
        dstCap := BitVec.ofNat 32 (s.dstCap.toNat - t.hdrLen.toNat) } = .next s5 ∧
      t.freq = s5.freq ∧ t.total = s5.total ∧ t.nsym = s5.nsym ∧ t.node = s5.node ∧ t.root = s5.root ∧
      t.nodes = s5.nodes ∧ t.codeLen = s5.codeLen ∧ t.codeBits = s5.codeBits ∧ t.totalBits = s5.totalBits ∧
      t.padding = s5.padding ∧ t.dstLen.toNat = t.hdrLen.toNat + s5.dstLen.toNat ∧
      t.freqValid = s5.freqValid ∧ t.treeValid = s5.treeValid ∧ t.codesValid = s5.codesValid ∧ s5.err = false ∧
      ∀ k < s5.dstLen.toNat,
        t.buf.read (s.dstBase.toNat + t.hdrLen.toNat + k) = s5.buf.read (s.dstBase.toNat + t.hdrLen.toNat + k)

/-- R317: two ENCODE commands over equal inputs, wherever they run, write byte-identical streams. -/
def Obligations.EncodeDependsOnTheInputAlone : Prop :=
  ∀ s u s' u' : State, s.Inv → u.Inv → s.err = false → u.err = false → s.srcBytes = u.srcBytes →
    exec .encode s = .next s' → exec .encode u = .next u' → s'.err = false → u'.err = false →
    s'.dstLen = u'.dstLen ∧
    ∀ k < s'.dstLen.toNat, s'.buf.read (s.dstBase.toNat + k) = u'.buf.read (u.dstBase.toNat + k)

/-! ### The whole machine -/

/-- R411 and R412: an error of class pre changes nothing but the error state; an error of class walk comes from UNPACK or
DECODE alone and sets `DST_LEN` to 0, and UNPACK then changes only the destination range besides. -/
def Obligations.ErrorsChangeOnlyWhatTheirClassAllows : Prop :=
  ∀ (i : Instr) (s t : State), s.err = false → s.buf.wf = true → exec i s = .next t → t.err = true →
    (t.errCause.isWalk = false → t = { s with
      errCause := t.errCause, errInfo := t.errInfo, err := true, busy := false, done := true }) ∧
    (t.errCause.isWalk = true → (i = .unpack ∨ i = .decode) ∧ t.dstLen = 0#32 ∧
      bufSameOutside s.buf t.buf s.dstBase.toNat s.dstCap.toNat ∧
      (i = .decode → t.freqValid = true ∧ t.treeValid = true ∧ t.codesValid = false) ∧
      (i = .unpack → t = { s with
        buf := t.buf, dstLen := 0#32, errCause := t.errCause, errInfo := t.errInfo, err := true,
        busy := false, done := true }))

/-- R64: what each command leaves in the three validity bits when it succeeds, and when it ends with an error. -/
def Obligations.ValidityBitsFollowTheCommand : Prop :=
  ∀ (i : Instr) (s t : State), s.err = false → exec i s = .next t →
    (t.err = false →
      match i with
      | .nop | .pack | .unpack =>
        t.freqValid = s.freqValid ∧ t.treeValid = s.treeValid ∧ t.codesValid = s.codesValid
      | .clear | .count | .parse => t.freqValid = true ∧ t.treeValid = false ∧ t.codesValid = false
      | .build => t.freqValid = s.freqValid ∧ s.freqValid = true ∧ t.treeValid = true ∧ t.codesValid = false
      | .derive => t.freqValid = s.freqValid ∧ t.treeValid = s.treeValid ∧ s.treeValid = true ∧ t.codesValid = true
      | .encode => t.freqValid = true ∧ t.treeValid = true ∧ t.codesValid = true
      | .decode => t.freqValid = true ∧ t.treeValid = true ∧ t.codesValid = false) ∧
    (t.err = true → t.errCause.isWalk = false ∨ i ≠ .decode →
      t.freqValid = s.freqValid ∧ t.treeValid = s.treeValid ∧ t.codesValid = s.codesValid) ∧
    (t.err = true → t.errCause.isWalk = true → i = .decode →
      t.freqValid = true ∧ t.treeValid = true ∧ t.codesValid = false)

/-- R39, R104, R152, R207: no command writes an operand register, `CTRL`, `OVR`, `CMD_LAST` or the parameter; every byte
of `BUF` outside the destination range stays, and all of `BUF` for a command without output; BUILD, DERIVE, PACK and
UNPACK never write the table; NOP, CLEAR, COUNT, PACK, UNPACK and PARSE never write the tree. -/
def Obligations.CommandsWriteOnlyWhatTheirRulesName : Prop :=
  ∀ (i : Instr) (s t : State), s.buf.wf = true → exec i s = .next t →
    t.srcBase = s.srcBase ∧ t.srcLen = s.srcLen ∧ t.dstBase = s.dstBase ∧ t.dstCap = s.dstCap ∧
    t.doneIE = s.doneIE ∧ t.errIE = s.errIE ∧ t.ovr = s.ovr ∧ t.cmdLast = s.cmdLast ∧ t.bufBytes = s.bufBytes ∧
    t.inputs = s.inputs ∧ t.response = s.response ∧
    bufSameOutside s.buf t.buf s.dstBase.toNat s.dstCap.toNat ∧
    (i ∉ [.pack, .unpack, .encode, .decode] → t.buf = s.buf ∧ t.dstLen = s.dstLen) ∧
    (i ∉ [.clear, .count, .encode, .parse, .decode] → t.freq = s.freq ∧ t.total = s.total ∧ t.nsym = s.nsym) ∧
    (i ∉ [.build, .encode, .decode] → t.node = s.node ∧ t.root = s.root ∧ t.nodes = s.nodes) ∧
    (i ∉ [.derive, .encode] → t.codeLen = s.codeLen ∧ t.codeBits = s.codeBits ∧ t.totalBits = s.totalBits) ∧
    (i ∉ [.encode, .parse, .decode] → t.hdrLen = s.hdrLen) ∧
    (i ∉ [.pack, .encode, .parse, .decode] → t.padding = s.padding)

/-- R65 and what stands around it hold at reset. -/
def Obligations.ResetStateMeetsTheInvariant : Prop := State.reset.Inv

/-- R65 and what stands around it hold in every state after one in which they hold, whatever the environment does. -/
def Obligations.EveryStepKeepsTheInvariant : Prop :=
  ∀ s t : State, s.Inv → step s = .next t → t.Inv

/-- No operation of HUFF hangs or stops the machine: in every state of the invariant the step gives a next state. -/
def Obligations.EveryStepOfAnInvariantStateGivesANextState : Prop :=
  ∀ s : State, s.Inv → ∃ t, step s = .next t

/-- R362: a command in flight has ended after at most one step more than the environment has things left to do. -/
def Obligations.CommandInFlightEnds : Prop :=
  ∀ s : State, s.Inv → s.busy = true →
    ∃ k t, k ≤ s.inputs.length + 1 ∧ Sys2Proof.core.run k s = .next t ∧ State.busy t = false

/-! ### Host scripts -/

/-- R171, R362; whatever the engine's turns (the choice of them is the model's, log entry 19).
On an idle engine the strobed writes that `wrbuf` expands to store exactly the given bytes and leave every other byte
of `BUF`, and the masked reads that `rdbuf` expands to change nothing and meet their assertions exactly when `BUF`
holds the given bytes.
`poll` ends with the first of its reads that shows `data & MASK = VAL`.
`wait` ends with a `STATUS` read that follows the completion of the command in flight, if there is one.
`run` of a command on an idle engine with no pending error has it accepted, and ends in the same way.
What a script does is what the machine does when it is run on the inputs that the playing performed. -/
def Obligations.ScriptStatementsDoWhatTheyExpandTo : Prop :=
  (∀ (s : State) (a : Nat) (bytes : List Byte) (turns : List Bool) (tries : Nat),
    s.Inv → s.busy = false → a + bytes.length ≤ s.bufBytes →
    (∃ q, (Stmt.wrbuf a bytes).play tries (.start s turns) = .ended q ∧ bufHolds q.state.buf a bytes ∧
      bufSameOutside s.buf q.state.buf a bytes.length ∧
      q.state = { s with buf := q.state.buf, response := q.state.response }) ∧
    (bufHolds s.buf a bytes →
      ∃ q, (Stmt.rdbuf a bytes).play tries (.start s turns) = .ended q ∧ s.sameBlock q.state) ∧
    (¬ bufHolds s.buf a bytes →
      ∃ q, (Stmt.rdbuf a bytes).play tries (.start s turns) = .wrong q ∧ s.sameBlock q.state)) ∧
  (∀ (p : Place) (mask val : Word) (tries : Nat) (q q' : Play),
    (Action.poll p mask val).play tries q = .ended q' ↔
      ∃ n < tries, (Action.poll p mask val).times (n + 1) q = some q' ∧
        (∃ r data, q'.state.response = some (.read r data) ∧ data &&& mask = val) ∧
        ∀ k < n, ∃ b, (Action.poll p mask val).times (k + 1) q = some b ∧
          ∃ r data, b.state.response = some (.read r data) ∧ data &&& mask ≠ val) ∧
  (∀ (s : State) (turns : List Bool) (tries : Nat), s.Inv → turns.length < tries →
    ∃ u t q, s.sameBlock u ∧ engineTurn u = .next t ∧ t.busy = false ∧
      Stmt.wait.play tries (.start s turns) = .ended q ∧ q.state = hostRead (at25 0x010) t) ∧
  (∀ (s : State) (i : Instr) (turns : List Bool) (tries : Nat),
    s.Inv → s.busy = false → s.err = false → turns.length < tries →
    ∃ u t q, (accept (encode i) s).sameBlock u ∧ exec i u = .next t ∧
      (Stmt.run i).play tries (.start s turns) = .ended q ∧ q.state = hostRead (at25 0x010) t) ∧
  ∀ (s : State) (script : List Stmt) (turns : List Bool) (tries : Nat) (q : Play) (rest : List Input),
    playScript tries script (.start s turns) = .ended q →
    Sys2Proof.core.run q.done.length { s with inputs := q.done ++ rest } = .next { q.state with inputs := rest }
end

