-- ==== Sys2Proof/Laws/Tables.lean ====
section
/-! SUPPORT. The laws of tables indexed by a symbol, of sums over the symbols, of big-endian integers, and of the
node pool. -/

namespace Sys2Proof.Machine

/-! ### Tables -/

@[simp] theorem symAt_symTable {α : Type} (f : Byte → α) (s : Byte) : symAt (symTable f) s = f s := by
  simp [symAt, symTable]

/-- A table is the list of its entries, symbol by symbol. -/
theorem toList_eq {α : Type} (t : SymTable α) : t.toList = symbols.map (symAt t) := by
  apply List.ext_getElem
  · simp [symbols]
  · intro i h1 h2
    have hi : i < 256 := by simpa using h1
    simp [symbols, symAt, Nat.mod_eq_of_lt hi]

@[simp] theorem symAt_symMap {α β : Type} (f : Byte → α → β) (t : SymTable α) (s : Byte) :
    symAt (symMap f t) s = f s (symAt t s) := by
  simp [symAt, symMap, symbols]

/-- `Σ_s FREQ[s]`, symbol by symbol (R45). -/
theorem tableSum_eq (F : SymTable (BitVec 64)) : tableSum F = (symbols.map fun s => (symAt F s).toNat).sum := by
  unfold tableSum
  rw [toList_eq, List.map_map]
  rfl

/-- The present symbols, symbol by symbol (R19). -/
theorem present_eq (F : SymTable (BitVec 64)) : present F = symbols.filter fun s => symAt F s != 0#64 := by
  unfold present
  rw [toList_eq]
  generalize symbols = l
  induction l with
  | nil => rfl
  | cons a l ih =>
    simp only [List.map_cons, List.zip_cons_cons, List.filter_cons]
    split <;> simp [ih]

/-- `Σ_s FREQ[s] · CODE_LEN[s]`, symbol by symbol (R255). -/
theorem codedBits_eq (F : SymTable (BitVec 64)) (len : SymTable (BitVec 8)) :
    codedBits F len = (symbols.map fun s => (symAt F s).toNat * (symAt len s).toNat).sum := by
  unfold codedBits
  rw [toList_eq, toList_eq, List.zipWith_map, List.zipWith_self]

theorem symAt_symSet {α : Type} (t : SymTable α) (s x : Byte) (v : α) :
    symAt (symSet t s v) x = if x = s then v else symAt t x := by
  unfold symAt symSet
  rw [Vector.getElem_set]
  by_cases h : x = s
  · simp [h]
  · simp [h, show ¬ s.toNat = x.toNat from fun e => h (BitVec.eq_of_toNat_eq e.symm)]

theorem symTable_ext {α : Type} {t u : SymTable α} (h : ∀ s, symAt t s = symAt u s) : t = u := by
  apply Vector.ext
  intro i hi
  have := h (BitVec.ofNat 8 i)
  simpa [symAt, Nat.mod_eq_of_lt hi] using this

@[simp] theorem mem_symbols (s : Byte) : s ∈ symbols := by
  simp only [symbols, List.mem_map, List.mem_range]
  exact ⟨s.toNat, s.isLt, by simp⟩

theorem nodup_symbols : symbols.Nodup := by
  unfold symbols
  refine List.Nodup.map_on ?_ List.nodup_range
  intro a ha b hb h
  have := congrArg BitVec.toNat h
  simp only [List.mem_range] at ha hb
  simpa [Nat.mod_eq_of_lt ha, Nat.mod_eq_of_lt hb] using this

/-- The symbols stand in ascending order. -/
theorem pairwise_symbols : symbols.Pairwise fun a b => a.toNat < b.toNat := by
  unfold symbols
  refine List.pairwise_map.mpr ?_
  refine List.Pairwise.imp_of_mem ?_ (List.pairwise_lt_range (n := 256))
  intro a b ha hb h
  simp only [List.mem_range] at ha hb
  simpa [Nat.mod_eq_of_lt ha, Nat.mod_eq_of_lt hb] using h

@[simp] theorem length_symbols : symbols.length = 256 := by simp [symbols]

/-! ### Sums over the symbols -/

theorem sum_map_add {α : Type} (l : List α) (f g : α → Nat) :
    (l.map fun x => f x + g x).sum = (l.map f).sum + (l.map g).sum := by
  induction l with
  | nil => rfl
  | cons a l ih => simp only [List.map_cons, List.sum_cons, ih]; omega

theorem sum_map_le {α : Type} (l : List α) (f g : α → Nat) (h : ∀ x ∈ l, f x ≤ g x) :
    (l.map f).sum ≤ (l.map g).sum := by
  induction l with
  | nil => simp
  | cons a l ih =>
    have h1 := h a (by simp)
    have h2 := ih fun x hx => h x (by simp [hx])
    simp only [List.map_cons, List.sum_cons]
    omega

theorem le_sum_map {α : Type} (l : List α) (f : α → Nat) {x : α} (h : x ∈ l) : f x ≤ (l.map f).sum := by
  induction l with
  | nil => simp at h
  | cons a l ih =>
    simp only [List.map_cons, List.sum_cons]
    rcases List.mem_cons.mp h with rfl | h
    · omega
    · have := ih h; omega

theorem sum_map_zero {α : Type} (l : List α) (f : α → Nat) (h : ∀ x ∈ l, f x = 0) : (l.map f).sum = 0 := by
  induction l with
  | nil => rfl
  | cons a l ih =>
    rw [List.map_cons, List.sum_cons, h a (by simp), ih fun x hx => h x (by simp [hx])]

theorem sum_map_congr {α : Type} (l : List α) (f g : α → Nat) (h : ∀ x ∈ l, f x = g x) :
    (l.map f).sum = (l.map g).sum := by
  rw [List.map_congr_left h]

/-- A sum over a list without repeats of a function that is 0 but at one member. -/
theorem sum_map_single {α : Type} [DecidableEq α] (l : List α) (hl : l.Nodup) (x : α) (hx : x ∈ l) (v : Nat) :
    (l.map fun y => if y = x then v else 0).sum = v := by
  induction l with
  | nil => simp at hx
  | cons a l ih =>
    simp only [List.nodup_cons] at hl
    simp only [List.map_cons, List.sum_cons]
    rcases List.mem_cons.mp hx with rfl | hx
    · rw [if_pos rfl, sum_map_congr l _ (fun _ => 0) (by
        intro y hy
        exact if_neg (by rintro rfl; exact hl.1 hy))]
      simp
    · rw [ih hl.2 hx, if_neg (by rintro rfl; exact hl.1 hx)]
      simp

theorem symAt_le_tableSum (F : SymTable (BitVec 64)) (s : Byte) : (symAt F s).toNat ≤ tableSum F :=
  (tableSum_eq F) ▸ le_sum_map symbols (fun s => (symAt F s).toNat) (mem_symbols s)

/-- Weighing each symbol by its count in a list is summing over the list. -/
theorem sum_symbols_count (l : List Byte) (w : Byte → Nat) :
    (symbols.map fun s => l.count s * w s).sum = (l.map w).sum := by
  induction l with
  | nil => exact sum_map_zero _ _ (by simp)
  | cons a l ih =>
    have : ∀ s ∈ symbols, (a :: l).count s * w s = (if s = a then w a else 0) + l.count s * w s := by
      intro s _
      rw [List.count_cons]
      by_cases h : s = a
      · subst h; simp; ring
      · simp [h, Ne.symm h]
    rw [sum_map_congr _ _ _ this, sum_map_add, ih, sum_map_single _ nodup_symbols _ (mem_symbols a)]
    simp

theorem sum_symbols_count_one (l : List Byte) : (symbols.map fun s => l.count s).sum = l.length := by
  simpa using sum_symbols_count l fun _ => 1

/-- Adding counts adds them exactly, as long as the total fits (R200, R206). -/
theorem symAt_addCounts (F : SymTable (BitVec 64)) (l : List Byte) (s : Byte)
    (h : tableSum F + l.length < 2 ^ 64) :
    (symAt (addCounts F l) s).toNat = (symAt F s).toNat + l.count s := by
  have h1 := symAt_le_tableSum F s
  have h2 : l.count s ≤ l.length := List.count_le_length
  simp only [addCounts, symAt_symMap, countBytes, BitVec.toNat_ofNat]
  exact Nat.mod_eq_of_lt (by omega)

theorem tableSum_addCounts (F : SymTable (BitVec 64)) (l : List Byte) (h : tableSum F + l.length < 2 ^ 64) :
    tableSum (addCounts F l) = tableSum F + l.length := by
  rw [tableSum_eq, tableSum_eq, sum_map_congr _ _ _ fun s _ => symAt_addCounts F l s h, sum_map_add, sum_symbols_count_one]

@[simp] theorem tableSum_zero : tableSum (symTable fun _ => 0#64) = 0 :=
  (tableSum_eq _).trans <| sum_map_zero _ _ (by simp)

/-! ### Present symbols -/

@[simp] theorem mem_present (F : SymTable (BitVec 64)) (s : Byte) : s ∈ present F ↔ symAt F s ≠ 0#64 := by
  simp [present_eq]

theorem pairwise_present (F : SymTable (BitVec 64)) : (present F).Pairwise fun a b => a.toNat < b.toNat :=
  present_eq F ▸ pairwise_symbols.sublist List.filter_sublist

theorem nodup_present (F : SymTable (BitVec 64)) : (present F).Nodup := present_eq F ▸ nodup_symbols.filter _

theorem presentCount_le (F : SymTable (BitVec 64)) : presentCount F ≤ 256 := by
  unfold presentCount
  rw [present_eq]
  simpa using List.length_filter_le _ symbols

@[simp] theorem toNat_nsym (F : SymTable (BitVec 64)) : (BitVec.ofNat 9 (presentCount F)).toNat = presentCount F := by
  have := presentCount_le F
  simp only [BitVec.toNat_ofNat]
  exact Nat.mod_eq_of_lt (by omega)

@[simp] theorem present_zero : present (symTable fun _ => 0#64) = [] := by simp [present_eq]

/-- A sum over all symbols of something that is 0 at absent symbols is the sum over the present ones. -/
theorem sum_symbols_eq_present (F : SymTable (BitVec 64)) (g : Byte → Nat) (h : ∀ s, symAt F s = 0#64 → g s = 0) :
    (symbols.map g).sum = ((present F).map g).sum := by
  rw [present_eq]
  generalize symbols = l
  induction l with
  | nil => rfl
  | cons a l ih =>
    by_cases ha : symAt F a = 0#64
    · simp [ha, h a ha, ih]
    · simp [ha, ih]

theorem tableSum_eq_present (F : SymTable (BitVec 64)) :
    tableSum F = ((present F).map fun s => (symAt F s).toNat).sum :=
  (tableSum_eq F).trans <| sum_symbols_eq_present F _ fun s hs => by simp [hs]

/-- A table with a positive total has a present symbol. -/
theorem present_ne_nil {F : SymTable (BitVec 64)} (h : 0 < tableSum F) : present F ≠ [] := by
  intro e
  rw [tableSum_eq_present, e] at h
  simp at h

/-! ### Big-endian integers -/

@[simp] theorem length_toBe (n v : Nat) : (toBe n v).length = n := by simp [toBe]

theorem ofBe_append (l : List Byte) (b : Byte) : ofBe (l ++ [b]) = ofBe l * 256 + b.toNat := by
  simp [ofBe]

theorem toBe_succ (n v : Nat) : toBe (n + 1) v = toBe n (v / 256) ++ [BitVec.ofNat 8 v] := by
  unfold toBe
  rw [List.range_succ, List.map_append]
  congr 1
  · apply List.map_congr_left
    intro k hk
    simp only [List.mem_range] at hk
    rw [show n + 1 - 1 - k = (n - 1 - k) + 1 by omega, pow_succ, Nat.mul_comm, Nat.div_div_eq_div_mul]
  · simp

theorem ofBe_toBe (n v : Nat) (h : v < 256 ^ n) : ofBe (toBe n v) = v := by
  induction n generalizing v with
  | zero => simp at h; subst h; rfl
  | succ n ih =>
    rw [toBe_succ, ofBe_append, ih (v / 256) (by rw [pow_succ] at h; omega)]
    simp only [BitVec.toNat_ofNat]
    omega

theorem ofBe_lt (l : List Byte) : ofBe l < 256 ^ l.length := by
  induction l using List.reverseRecOn with
  | nil => simp [ofBe]
  | append_singleton l b ih =>
    rw [ofBe_append]
    simp only [List.length_append, List.length_singleton, pow_succ]
    have : b.toNat < 256 := b.isLt
    omega

theorem toBe_ofBe (l : List Byte) : toBe l.length (ofBe l) = l := by
  induction l using List.reverseRecOn with
  | nil => rfl
  | append_singleton l b ih =>
    have hb : b.toNat < 256 := b.isLt
    simp only [List.length_append, List.length_singleton]
    rw [toBe_succ, ofBe_append, show (ofBe l * 256 + b.toNat) / 256 = ofBe l by omega, ih]
    congr 2
    apply BitVec.eq_of_toNat_eq
    simp only [BitVec.toNat_ofNat]
    omega

/-! ### The node pool -/

theorem getElem?_fillPool (n : Nat) (ns : List Node) (hl : ns.length ≤ 511) (i : Nat) (h : i < ns.length) :
    (fillPool n ns)[i]? = ns[i]? := by
  have hi : i < 511 := by omega
  simp [fillPool, hi, h]

/-- A slot exists exactly for an index that is not `NONE` (R50). -/
theorem nodeAt_isSome (pool : Vector Node 511) (i : NodeIndex) : (nodeAt pool i).isSome ↔ i ≠ Config.noNode := by
  have : i.toNat < 512 := i.isLt
  unfold nodeAt Config.noNode
  constructor
  · rintro h rfl
    simp at h
  · intro h
    have : i.toNat ≠ 511 := fun e => h (BitVec.eq_of_toNat_eq e)
    simp only [Vector.getElem?_eq_some_iff, Option.isSome_iff_exists]
    exact ⟨_, by omega, rfl⟩

@[simp] theorem nodeAt_none (pool : Vector Node 511) : nodeAt pool Config.noNode = none := by
  simp [nodeAt, Config.noNode]

@[simp] theorem toNat_nodeIndex {i : Nat} (h : i < 512) : (nodeIndex i).toNat = i := by
  simp only [nodeIndex, BitVec.toNat_ofNat]
  exact Nat.mod_eq_of_lt (by omega)

theorem nodeIndex_ne_none {i : Nat} (h : i < 511) : nodeIndex i ≠ Config.noNode := by
  intro e
  have := congrArg BitVec.toNat e
  rw [toNat_nodeIndex (by omega)] at this
  simp [Config.noNode] at this
  omega

end Sys2Proof.Machine
end

