-- ==== Sys2Proof/Laws/TreeBuilder.lean ====
section
/-! SUPPORT. The priority queue and the shape of the tree that `buildTree` makes (R222 to R229). -/

namespace Sys2Proof.Machine

/-! ### The queue -/

theorem enqueue_perm (k : Key) (q : List Key) : (enqueue k q).Perm (k :: q) := by
  induction q with
  | nil => exact .refl _
  | cons a q ih =>
    simp only [enqueue]
    split
    · exact .refl _
    · exact ((List.Perm.cons a ih).trans (List.Perm.swap k a q))

@[simp] theorem length_enqueue (k : Key) (q : List Key) : (enqueue k q).length = q.length + 1 :=
  (enqueue_perm k q).length_eq

@[simp] theorem mem_enqueue (k x : Key) (q : List Key) : x ∈ enqueue k q ↔ x = k ∨ x ∈ q := by
  rw [(enqueue_perm k q).mem_iff, List.mem_cons]

theorem Key.before_iff (a b : Key) : a.before b = true ↔ a.f < b.f ∨ (a.f = b.f ∧ a.idx < b.idx) := by
  simp [Key.before]

/-- Keys whose indices differ are ordered one way or the other (R222). -/
theorem Key.before_total {a b : Key} (h : a.idx ≠ b.idx) (hn : ¬ a.before b = true) : b.before a = true := by
  rw [Key.before_iff] at *
  omega

theorem Key.before_trans {a b c : Key} (h1 : a.before b = true) (h2 : b.before c = true) : a.before c = true := by
  rw [Key.before_iff] at *
  omega

/-- Insertion keeps the keys smallest first. -/
theorem sorted_enqueue (k : Key) (q : List Key) (h : q.Pairwise fun a b => a.before b = true)
    (hk : ∀ a ∈ q, a.idx ≠ k.idx) : (enqueue k q).Pairwise fun a b => a.before b = true := by
  induction q with
  | nil => simp [enqueue]
  | cons a q ih =>
    rw [List.pairwise_cons] at h
    simp only [enqueue]
    split
    · rename_i hka
      refine List.pairwise_cons.mpr ⟨fun b hb => ?_, List.pairwise_cons.mpr h⟩
      rcases List.mem_cons.mp hb with rfl | hb
      · exact hka
      · exact Key.before_trans hka (h.1 b hb)
    · rename_i hka
      refine List.pairwise_cons.mpr ⟨fun b hb => ?_, ih h.2 fun b hb => hk b (by simp [hb])⟩
      rcases (mem_enqueue k b q).mp hb with rfl | hb
      · exact Key.before_total (hk a (by simp)).symm hka
      · exact h.1 b hb

/-- The keys of the leaves. -/
def leafKeys : List Node → Nat → List Key
  | [], _ => []
  | nd :: ns, i => ⟨nd.f.toNat, i⟩ :: leafKeys ns (i + 1)

theorem enqueueLeaves_perm (ns : List Node) (i : Nat) (q : List Key) :
    (enqueueLeaves ns i q).Perm (leafKeys ns i ++ q) := by
  induction ns generalizing i q with
  | nil => exact .refl _
  | cons nd ns ih =>
    refine (ih _ _).trans ?_
    refine ((enqueue_perm _ _).append_left _).trans ?_
    exact List.perm_middle

theorem leafKeys_idx (ns : List Node) (i : Nat) :
    (leafKeys ns i).map Key.idx = List.range' i ns.length := by
  induction ns generalizing i with
  | nil => rfl
  | cons nd ns ih => simp [leafKeys, ih, List.range'_succ]

theorem mem_leafKeys {ns : List Node} {i : Nat} {k : Key} (h : k ∈ leafKeys ns i) :
    ∃ j, ∃ hj : j < ns.length, k = ⟨ns[j].f.toNat, i + j⟩ := by
  induction ns generalizing i with
  | nil => simp [leafKeys] at h
  | cons nd ns ih =>
    rcases List.mem_cons.mp h with rfl | h
    · exact ⟨0, by simp, by simp⟩
    · obtain ⟨j, hj, rfl⟩ := ih h
      exact ⟨j + 1, by simpa using hj, by simp; omega⟩

theorem leafKeys_sum (ns : List Node) (i : Nat) :
    ((leafKeys ns i).map Key.f).sum = (ns.map fun nd => nd.f.toNat).sum := by
  induction ns generalizing i with
  | nil => rfl
  | cons nd ns ih => simp [leafKeys, ih]

theorem sorted_enqueueLeaves (ns : List Node) (i : Nat) (q : List Key)
    (h : q.Pairwise fun a b => a.before b = true) (hi : ∀ k ∈ q, k.idx < i) :
    (enqueueLeaves ns i q).Pairwise fun a b => a.before b = true := by
  induction ns generalizing i q with
  | nil => exact h
  | cons nd ns ih =>
    refine ih _ _ (sorted_enqueue _ _ h fun a ha => by have := hi a ha; simp; omega) fun k hk => ?_
    rcases (mem_enqueue _ _ _).mp hk with rfl | hk
    · simp
    · have := hi k hk; omega

/-! ### The loop -/

/-- A property that every merge keeps holds of the nodes when one key is left. -/
theorem mergeAll_keeps (P : List Node → List Key → Prop)
    (hstep : ∀ ns a b q, P ns (a :: b :: q) →
      P (ns ++ [mergeNode (a.f + b.f) (nodeIndex a.idx) (nodeIndex b.idx)]) (enqueue ⟨a.f + b.f, ns.length⟩ q))
    (fuel : Nat) (ns : List Node) (q : List Key) (h : P ns q) (hq : q ≠ []) (hf : q.length ≤ fuel + 1) :
    ∃ k, P (mergeAll fuel ns q) [k] := by
  induction fuel generalizing ns q with
  | zero =>
    match q, hq, hf with
    | [a], _, _ => exact ⟨a, h⟩
  | succ fuel ih =>
    match q, hq, hf with
    | [a], _, _ => exact ⟨a, h⟩
    | a :: b :: q, _, hf =>
      refine ih _ _ (hstep ns a b q h) (fun e => ?_) ?_
      · have := congrArg List.length e
        simp at this
      · simp at hf ⊢; omega

/-- The indices of the children of the internal nodes, which stand from slot n on. -/
def childRefs (ns : List Node) (n : Nat) : List Nat :=
  (ns.drop n).flatMap fun nd => [nd.left.toNat, nd.right.toNat]

/-- What every merge keeps: the leaves stand first; each internal node's children stand before it; every slot is
exactly once a key of the queue or a child; the queue is smallest first; no frequency is lost. -/
structure Forest (F : SymTable (BitVec 64)) (ns : List Node) (q : List Key) : Prop where
  size   : ns.length + q.length = 2 * presentCount F
  lead   : presentCount F ≤ ns.length
  first  : ns.take (presentCount F) = leaves F
  inner  : ∀ i, presentCount F ≤ i → ∀ h : i < ns.length,
    ns[i].kind = 1#1 ∧ ns[i].left.toNat < i ∧ ns[i].right.toNat < i
  once   : (q.map Key.idx ++ childRefs ns (presentCount F)).Perm (List.range ns.length)
  sorted : q.Pairwise fun a b => a.before b = true
  total  : (q.map Key.f).sum = tableSum F
  keys   : tableSum F < 2 ^ 64 → ∀ k ∈ q, (ns[k.idx]?).map (fun nd => nd.f.toNat) = some k.f
  sums   : tableSum F < 2 ^ 64 → ∀ i, presentCount F ≤ i → ∀ h : i < ns.length,
    ∃ l r, ns[ns[i].left.toNat]? = some l ∧ ns[ns[i].right.toNat]? = some r ∧
      ns[i].f.toNat = l.f.toNat + r.f.toNat

@[simp] theorem length_leaves (F : SymTable (BitVec 64)) : (leaves F).length = presentCount F := by
  simp [leaves, presentCount]

theorem leaves_sum (F : SymTable (BitVec 64)) : ((leaves F).map fun nd => nd.f.toNat).sum = tableSum F := by
  rw [tableSum_eq_present, leaves, List.map_map]
  rfl

theorem Forest.mem_lt {F : SymTable (BitVec 64)} {ns : List Node} {q : List Key} (h : Forest F ns q) {k : Key}
    (hk : k ∈ q) : k.idx < ns.length := by
  have : k.idx ∈ List.range ns.length :=
    h.once.mem_iff.mp (List.mem_append_left _ (List.mem_map_of_mem hk))
  simpa using this

theorem Forest.start (F : SymTable (BitVec 64)) : Forest F (leaves F) (enqueueLeaves (leaves F) 0 []) := by
  have hp := enqueueLeaves_perm (leaves F) 0 []
  rw [List.append_nil] at hp
  constructor
  · rw [hp.length_eq, ← List.length_map (f := Key.idx), leafKeys_idx]
    simp; omega
  · simp
  · rw [← length_leaves, List.take_length]
  · intro i hi h
    simp at h; omega
  · have : childRefs (leaves F) (presentCount F) = [] := by simp [childRefs, ← length_leaves]
    rw [this, List.append_nil]
    refine (hp.map _).trans ?_
    rw [leafKeys_idx, List.range_eq_range']
  · exact sorted_enqueueLeaves _ _ _ .nil (by simp)
  · rw [(hp.map Key.f).sum_eq, leafKeys_sum, leaves_sum]
  · intro _ k hk
    obtain ⟨j, hj, rfl⟩ := mem_leafKeys (hp.mem_iff.mp hk)
    simp only [Nat.zero_add, List.getElem?_eq_getElem hj, Option.map_some]
  · intro _ i hi h
    simp at h; omega

theorem childRefs_append (ns : List Node) (n : Nat) (nd : Node) (h : n ≤ ns.length) :
    childRefs (ns ++ [nd]) n = childRefs ns n ++ [nd.left.toNat, nd.right.toNat] := by
  simp [childRefs, List.drop_append_of_le_length h]

theorem Forest.merge {F : SymTable (BitVec 64)} {ns : List Node} {a b : Key} {q : List Key}
    (h : Forest F ns (a :: b :: q)) :
    Forest F (ns ++ [mergeNode (a.f + b.f) (nodeIndex a.idx) (nodeIndex b.idx)])
      (enqueue ⟨a.f + b.f, ns.length⟩ q) := by
  have hsize := h.size
  have hlead := h.lead
  have hn := presentCount_le F
  simp only [List.length_cons] at hsize
  have ha := h.mem_lt (k := a) (by simp)
  have hb := h.mem_lt (k := b) (by simp)
  have hq : ∀ k ∈ q, k.idx < ns.length := fun k hk => h.mem_lt (by simp [hk])
  have ea : (nodeIndex a.idx).toNat = a.idx := toNat_nodeIndex (by omega)
  have eb : (nodeIndex b.idx).toNat = b.idx := toNat_nodeIndex (by omega)
  have htot := h.total
  simp only [List.map_cons, List.sum_cons] at htot
  have hkeys : tableSum F < 2 ^ 64 → ∀ k ∈ enqueue ⟨a.f + b.f, ns.length⟩ q,
      ((ns ++ [mergeNode (a.f + b.f) (nodeIndex a.idx) (nodeIndex b.idx)])[k.idx]?).map (fun nd => nd.f.toNat) =
        some k.f := by
    intro ht k hk
    rcases (mem_enqueue _ _ _).mp hk with rfl | hk
    · have : (a.f + b.f) % 2 ^ 64 = a.f + b.f := Nat.mod_eq_of_lt (by omega)
      simp only [List.getElem?_append_right (le_refl _), Nat.sub_self, List.getElem?_cons_zero, Option.map_some,
        mergeNode, BitVec.toNat_ofNat, this]
    · rw [List.getElem?_append_left (hq k hk)]
      exact h.keys ht k (by simp [hk])
  constructor
  · simp; omega
  · simp; omega
  · rw [List.take_append_of_le_length hlead]
    exact h.first
  · intro i hi hl
    simp only [List.length_append, List.length_singleton] at hl
    by_cases hi' : i < ns.length
    · rw [List.getElem_append_left hi']
      exact h.inner i hi hi'
    · obtain rfl : i = ns.length := by omega
      simp only [List.getElem_append_right (le_refl _), Nat.sub_self, List.getElem_cons_zero, mergeNode, ea, eb]
      exact ⟨trivial, ha, hb⟩
  · rw [childRefs_append _ _ _ hlead]
    simp only [mergeNode, ea, eb, List.length_append, List.length_singleton, List.range_succ]
    refine (((enqueue_perm _ _).map Key.idx).append_right _).trans ?_
    have h1 := h.once
    simp only [List.map_cons, List.cons_append] at h1
    refine List.Perm.trans ?_ (h1.append_right [ns.length])
    rw [List.perm_iff_count]
    intro x
    simp only [List.map_cons, List.cons_append, List.count_cons, List.count_append, List.count_nil]
    omega
  · exact sorted_enqueue _ _ (by have := h.sorted; simp only [List.pairwise_cons] at this; exact this.2.2)
      fun k hk => by have := hq k hk; simp; omega
  · rw [((enqueue_perm _ _).map Key.f).sum_eq]
    simp only [List.map_cons, List.sum_cons]
    omega
  · exact hkeys
  · intro ht i hi hl
    simp only [List.length_append, List.length_singleton] at hl
    by_cases hi' : i < ns.length
    · obtain ⟨l, r, hl', hr', hf⟩ := h.sums ht i hi hi'
      have hin := h.inner i hi hi'
      refine ⟨l, r, ?_, ?_, ?_⟩ <;> rw [List.getElem_append_left hi']
      · rwa [List.getElem?_append_left (by omega)]
      · rwa [List.getElem?_append_left (by omega)]
      · exact hf
    · obtain rfl : i = ns.length := by omega
      have ka := h.keys ht a (by simp)
      have kb := h.keys ht b (by simp)
      rw [List.getElem?_eq_getElem ha] at ka
      rw [List.getElem?_eq_getElem hb] at kb
      simp only [Option.map_some, Option.some.injEq] at ka kb
      have : (a.f + b.f) % 2 ^ 64 = a.f + b.f := Nat.mod_eq_of_lt (by omega)
      refine ⟨ns[a.idx]'ha, ns[b.idx]'hb, ?_, ?_, ?_⟩ <;>
        simp only [List.getElem_append_right (le_refl _), Nat.sub_self, List.getElem_cons_zero, mergeNode, ea, eb,
          BitVec.toNat_ofNat, this]
      · rw [List.getElem?_append_left ha, List.getElem?_eq_getElem ha]
      · rw [List.getElem?_append_left hb, List.getElem?_eq_getElem hb]
      · omega

/-- The tree of a table with two or more present symbols: the forest with one key left. -/
theorem buildTree_forest (F : SymTable (BitVec 64)) (h : 2 ≤ presentCount F) :
    ∃ k, Forest F (buildTree F).nodes [k] ∧ (buildTree F).root = nodeIndex ((buildTree F).nodes.length - 1) := by
  have hl := length_leaves F
  obtain ⟨a, b, ls, e⟩ : ∃ a b ls, leaves F = a :: b :: ls := by
    match hm : leaves F with
    | [] => rw [hm] at hl; simp at hl; omega
    | [a] => rw [hm] at hl; simp at hl; omega
    | a :: b :: ls => exact ⟨a, b, ls, rfl⟩
  have hp := enqueueLeaves_perm (leaves F) 0 []
  have hlen : (enqueueLeaves (leaves F) 0 []).length = presentCount F := by
    have := (Forest.start F).size
    rw [hl] at this
    omega
  obtain ⟨k, hk⟩ := mergeAll_keeps (Forest F) (fun ns a b q h => h.merge) (leaves F).length (leaves F)
    (enqueueLeaves (leaves F) 0 []) (Forest.start F)
    (by intro e; rw [e] at hlen; simp at hlen; omega) (by omega)
  refine ⟨k, ?_, ?_⟩
  · unfold buildTree
    rw [e] at hk ⊢
    exact hk
  · unfold buildTree
    rw [e]

theorem buildTree_empty (F : SymTable (BitVec 64)) (h : presentCount F = 0) :
    buildTree F = { nodes := [], root := Config.noNode } := by
  have hl := length_leaves F
  have : leaves F = [] := List.length_eq_zero_iff.mp (by omega)
  simp [buildTree, this]

theorem buildTree_single (F : SymTable (BitVec 64)) (h : presentCount F = 1) :
    ∃ s, present F = [s] ∧ buildTree F =
      { nodes := [leafNode s (symAt F s), mergeNode (symAt F s).toNat (nodeIndex 0) Config.noNode]
        root := nodeIndex 1 } := by
  obtain ⟨s, hs⟩ := List.length_eq_one_iff.mp h
  exact ⟨s, hs, by simp [buildTree, leaves, hs, leafNode]⟩

/-- The number of nodes (R227). -/
theorem length_buildTree (F : SymTable (BitVec 64)) :
    (buildTree F).nodes.length =
      if presentCount F = 0 then 0 else if presentCount F = 1 then 2 else 2 * presentCount F - 1 := by
  split
  · rename_i h; rw [buildTree_empty F h]; rfl
  · split
    · rename_i h; obtain ⟨s, _, e⟩ := buildTree_single F h; rw [e]; rfl
    · obtain ⟨k, hk, _⟩ := buildTree_forest F (by omega)
      have := hk.size
      simp at this; omega

theorem length_buildTree_le (F : SymTable (BitVec 64)) : (buildTree F).nodes.length ≤ 511 := by
  have := presentCount_le F
  rw [length_buildTree]
  split
  · omega
  · split <;> omega

/-- The root is the last node (R224, R227). -/
theorem root_buildTree (F : SymTable (BitVec 64)) (h : 1 ≤ presentCount F) :
    (buildTree F).root = nodeIndex ((buildTree F).nodes.length - 1) := by
  rcases Nat.lt_or_ge (presentCount F) 2 with h1 | h2
  · obtain ⟨s, _, e⟩ := buildTree_single F (by omega)
    rw [e]; rfl
  · obtain ⟨k, _, e⟩ := buildTree_forest F h2
    exact e

/-- The shape every non-empty tree has: leaves first, one for each present symbol in ascending order; then internal
nodes, whose children stand before them; the root last; every slot but the root exactly once a child (R229). A
missing child is only the right one of the single-symbol root (R226). -/
structure Shape (F : SymTable (BitVec 64)) (t : Tree) : Prop where
  some_present : 1 ≤ presentCount F
  more_nodes   : presentCount F < t.nodes.length
  few_nodes    : t.nodes.length ≤ 511
  depth_room   : t.nodes.length - presentCount F ≤ 255
  root_last    : t.root.toNat = t.nodes.length - 1
  leaf         : ∀ i, ∀ h : i < (present F).length,
    t.nodes[i]? = some (leafNode (present F)[i] (symAt F (present F)[i]))
  inner        : ∀ i, presentCount F ≤ i → ∀ h : i < t.nodes.length,
    t.nodes[i].kind = 1#1 ∧ t.nodes[i].left.toNat < i ∧
      (t.nodes[i].right.toNat < i ∨ (presentCount F = 1 ∧ t.nodes[i].right = Config.noNode))
  children     : ((childRefs t.nodes (presentCount F)).filter (· ≠ 511)).Perm (List.range (t.nodes.length - 1))

theorem buildTree_shape (F : SymTable (BitVec 64)) (h : 1 ≤ presentCount F) : Shape F (buildTree F) := by
  have hn := presentCount_le F
  have hpl : (present F).length = presentCount F := rfl
  rcases Nat.lt_or_ge (presentCount F) 2 with h1 | h2
  · have h1 : presentCount F = 1 := by omega
    obtain ⟨s, hs, e⟩ := buildTree_single F h1
    have e0 : (nodeIndex 0).toNat = 0 := by decide
    rw [e]
    constructor
    · exact h
    · simp [h1]
    · simp
    · simp [h1]
    · exact (by decide : (nodeIndex 1).toNat = 1)
    · intro i hi
      have : i = 0 := by rw [hs] at hi; simpa using hi
      subst this
      simp [hs]
    · intro i hi hl
      simp at hl
      obtain rfl : i = 1 := by omega
      simp [mergeNode, e0, h1]
    · rw [h1]
      simp only [childRefs, List.drop_succ_cons, List.drop_zero, List.flatMap_cons, List.flatMap_nil, mergeNode, e0,
        List.append_nil, List.length_cons, List.length_nil]
      decide
  · obtain ⟨k, hk, hr⟩ := buildTree_forest F h2
    have hs := hk.size
    simp only [List.length_singleton] at hs
    have hlead := hk.lead
    have hlt : ∀ x ∈ childRefs (buildTree F).nodes (presentCount F), x < (buildTree F).nodes.length - 1 := by
      intro x hx
      simp only [childRefs, List.mem_flatMap, List.mem_drop_iff_getElem] at hx
      obtain ⟨nd, ⟨j, hj, rfl⟩, hx⟩ := hx
      have := hk.inner (presentCount F + j) (by omega) (by omega)
      simp only [List.mem_cons, List.not_mem_nil, or_false] at hx
      rcases hx with rfl | rfl
      · omega
      · omega
    have hone := hk.once
    simp only [List.map_cons, List.map_nil, List.cons_append, List.nil_append] at hone
    have hkidx : k.idx = (buildTree F).nodes.length - 1 := by
      have hm : (buildTree F).nodes.length - 1 ∈ k.idx :: childRefs (buildTree F).nodes (presentCount F) :=
        hone.mem_iff.mpr (by simp; omega)
      rcases List.mem_cons.mp hm with e | hm
      · exact e.symm
      · have := hlt _ hm; omega
    constructor
    · exact h
    · omega
    · omega
    · omega
    · rw [hr]; exact toNat_nodeIndex (by omega)
    · intro i hi
      have hf := congrArg (fun l : List Node => l[i]?) hk.first
      simp only [List.getElem?_take, leaves, List.getElem?_map] at hf
      rw [if_pos (by omega)] at hf
      rw [hf]
      simp [hi]
    · intro i hi hl
      have := hk.inner i hi hl
      exact ⟨this.1, this.2.1, .inl this.2.2⟩
    · have hfil : (childRefs (buildTree F).nodes (presentCount F)).filter (· ≠ 511) =
          childRefs (buildTree F).nodes (presentCount F) := by
        rw [List.filter_eq_self]
        intro x hx
        have := hlt x hx
        simp; omega
      rw [hfil]
      have hrange : List.range (buildTree F).nodes.length =
          List.range ((buildTree F).nodes.length - 1) ++ [(buildTree F).nodes.length - 1] := by
        rw [← List.range_succ]; congr 1; omega
      rw [hrange, hkidx] at hone
      exact List.Perm.cons_inv (hone.trans (List.perm_append_singleton _ _))

/-- The root is `NONE` exactly for the empty table (R225, R227). -/
theorem root_ne_none (F : SymTable (BitVec 64)) (h : 1 ≤ presentCount F) : (buildTree F).root ≠ Config.noNode := by
  intro e
  have hs := buildTree_shape F h
  have := hs.root_last
  rw [e] at this
  have h1 := hs.few_nodes
  have h2 := hs.more_nodes
  simp [Config.noNode] at this
  omega

end Sys2Proof.Machine
end

