-- ==== Sys2Proof/Laws/CodeTable.lean ====
section
/-! SUPPORT. What the code derivation gives on a tree that `buildTree` made: it ends, it does not depend on the unused
slots, and each present symbol's code is its path from the root (R250 to R254, R258). -/

namespace Sys2Proof.Machine

/-! ### Paths as bits -/

/-- The d bits of a path value, first edge first (R16, R252). -/
def pathBits (d v : Nat) : List Bool := (List.range d).map fun k => v.testBit (d - 1 - k)

@[simp] theorem length_pathBits (d v : Nat) : (pathBits d v).length = d := by simp [pathBits]

theorem pathBits_succ (d v : Nat) (b : Bool) : pathBits (d + 1) (2 * v + b.toNat) = pathBits d v ++ [b] := by
  unfold pathBits
  rw [List.range_succ, List.map_append]
  congr 1
  · apply List.map_congr_left
    intro k hk
    simp only [List.mem_range] at hk
    rw [show d + 1 - 1 - k = (d - 1 - k) + 1 by omega, Nat.testBit_succ,
      show (2 * v + b.toNat) / 2 = v by cases b <;> simp; omega]
  · cases b <;> simp [Nat.testBit_zero]

theorem followBits_append (pool : Vector Node 511) (i : NodeIndex) (l l' : List Bool) :
    followBits pool i (l ++ l') = (followBits pool i l).bind fun j => followBits pool j l' := by
  induction l generalizing i with
  | nil => rfl
  | cons b l ih =>
    simp only [List.cons_append, followBits]
    cases nodeAt pool i with
    | none => rfl
    | some nd =>
      simp only
      split
      · rfl
      · exact ih _

/-! ### The slots of a tree in the pool -/

variable {F : SymTable (BitVec 64)} {t : Tree} {pool : Vector Node 511}

theorem nodeAt_of_lt (hp : poolHolds pool t) {i : NodeIndex} (h : i.toNat < t.nodes.length) :
    nodeAt pool i = some t.nodes[i.toNat] := by
  rw [nodeAt, hp _ h, List.getElem?_eq_getElem h]

theorem nodeAt_leaf (sh : Shape F t) (hp : poolHolds pool t) {i : NodeIndex} (h : i.toNat < (present F).length) :
    nodeAt pool i = some (leafNode (present F)[i.toNat] (symAt F (present F)[i.toNat])) := by
  have h' : i.toNat < t.nodes.length := lt_trans h sh.more_nodes
  rw [nodeAt, hp _ h', sh.leaf _ h]

theorem nodeAt_inner (sh : Shape F t) (hp : poolHolds pool t) {i : NodeIndex} (h : presentCount F ≤ i.toNat)
    (hi : i.toNat < t.nodes.length) :
    ∃ nd, nodeAt pool i = some nd ∧ nd.kind = 1#1 ∧ nd.left.toNat < i.toNat ∧
      (nd.right.toNat < i.toNat ∨ nd.right = Config.noNode) := by
  have hin := sh.inner _ h hi
  exact ⟨_, nodeAt_of_lt hp hi, hin.1, hin.2.1, hin.2.2.imp_right And.right⟩

theorem nodeIndex_toNat {i k : Nat} (h : k < i) (hi : i ≤ 511) : (nodeIndex k).toNat = k :=
  toNat_nodeIndex (by omega)

/-- Every slot but the root is the child of an internal node after it. -/
theorem exists_parent (sh : Shape F t) {k : Nat} (hk : k < t.nodes.length - 1) :
    ∃ p, ∃ hp : p < t.nodes.length, presentCount F ≤ p ∧ k < p ∧
      (t.nodes[p].left.toNat = k ∨ t.nodes[p].right.toNat = k) := by
  have hm : k ∈ (childRefs t.nodes (presentCount F)).filter (· ≠ 511) :=
    sh.children.mem_iff.mpr (by simpa using hk)
  simp only [List.mem_filter, childRefs, List.mem_flatMap, List.mem_drop_iff_getElem, List.mem_cons,
    List.not_mem_nil, or_false, decide_eq_true_eq] at hm
  obtain ⟨⟨nd, ⟨j, hj, rfl⟩, hx⟩, hne⟩ := hm
  have hj' : presentCount F + j < t.nodes.length := by omega
  have hin := sh.inner (presentCount F + j) (by omega) hj'
  refine ⟨presentCount F + j, hj', by omega, ?_, ?_⟩
  · rcases hx with e | e
    · omega
    · rcases hin.2.2 with h | ⟨_, h⟩
      · omega
      · rw [h] at e; simp [Config.noNode] at e; omega
  · rcases hx with e | e
    · exact .inl e.symm
    · exact .inr e.symm

/-- One branch. -/
theorem followBits_branch {p : NodeIndex} {nd : Node} (h : nodeAt pool p = some nd) (hk : nd.kind = 1#1) (b : Bool) :
    followBits pool p [b] = some (if b then nd.right else nd.left) := by
  simp [followBits, h, hk]

/-- The root reaches every slot of the tree (R229). -/
theorem root_reaches (sh : Shape F t) (hp : poolHolds pool t) (i : NodeIndex) (hi : i.toNat < t.nodes.length) :
    ∃ l, followBits pool t.root l = some i := by
  obtain ⟨d, hd⟩ : ∃ d, d = t.nodes.length - 1 - i.toNat := ⟨_, rfl⟩
  induction d using Nat.strongRecOn generalizing i with
  | _ d ih =>
    by_cases hr : i.toNat = t.nodes.length - 1
    · exact ⟨[], by simp [followBits, BitVec.eq_of_toNat_eq (sh.root_last.trans hr.symm)]⟩
    · obtain ⟨p, hpl, hpn, hip, hc⟩ := exists_parent sh (k := i.toNat) (by omega)
      have hfew := sh.few_nodes
      have ep : (nodeIndex p).toNat = p := toNat_nodeIndex (by omega)
      obtain ⟨l, hl⟩ := ih (t.nodes.length - 1 - p) (by omega) (nodeIndex p) (by omega) (by omega)
      have hn : nodeAt pool (nodeIndex p) = some t.nodes[p] := by
        rw [nodeAt_of_lt hp (by omega)]
        simp [ep]
      have hk := (sh.inner p hpn hpl).1
      rcases hc with e | e
      · refine ⟨l ++ [false], ?_⟩
        rw [followBits_append, hl, Option.bind_some, followBits_branch hn hk]
        simp [BitVec.eq_of_toNat_eq e]
      · refine ⟨l ++ [true], ?_⟩
        rw [followBits_append, hl, Option.bind_some, followBits_branch hn hk]
        simp [BitVec.eq_of_toNat_eq e]

/-! ### The traversal ends -/

/-- How many pops a stack can still need when every child has a smaller index than its parent. -/
def weight (st : List PathEntry) : Nat := (st.map fun e => 2 ^ (e.node.toNat + 1) - 1).sum

theorem weight_cons (e : PathEntry) (st : List PathEntry) :
    weight (e :: st) = 2 ^ (e.node.toNat + 1) - 1 + weight st := by simp [weight]

theorem mem_pushChild {i : NodeIndex} {d v : Nat} {st : List PathEntry} {x : PathEntry}
    (h : x ∈ pushChild i d v st) : (x = ⟨i, d, v⟩ ∧ i ≠ Config.noNode) ∨ x ∈ st := by
  unfold pushChild at h
  split at h
  · exact .inr h
  · rcases List.mem_cons.mp h with rfl | h
    · exact .inl ⟨rfl, by assumption⟩
    · exact .inr h

theorem mem_pushChild_of_mem {i : NodeIndex} {d v : Nat} {st : List PathEntry} {x : PathEntry} (h : x ∈ st) :
    x ∈ pushChild i d v st := by
  unfold pushChild
  split
  · exact h
  · exact List.mem_cons_of_mem _ h

theorem self_mem_pushChild {i : NodeIndex} {d v : Nat} {st : List PathEntry} (h : i ≠ Config.noNode) :
    (⟨i, d, v⟩ : PathEntry) ∈ pushChild i d v st := by
  simp [pushChild, h]

theorem weight_pushChild {i : NodeIndex} {d v : Nat} {st : List PathEntry} {b : Nat}
    (h : i.toNat < b ∨ i = Config.noNode) : weight (pushChild i d v st) ≤ 2 ^ b - 1 + weight st := by
  unfold pushChild
  split
  · omega
  · rename_i hne
    have hb : 2 ^ (i.toNat + 1) ≤ 2 ^ b := Nat.pow_le_pow_right (by omega) (by have := h.resolve_right hne; omega)
    rw [weight_cons]
    change 2 ^ (i.toNat + 1) - 1 + weight st ≤ _
    omega

/-- The fuel is enough for the root alone. -/
theorem weight_root {i : NodeIndex} (h : i.toNat < 511) : weight [⟨i, 0, 0⟩] ≤ Config.traversalFuel := by
  have : 2 ^ (i.toNat + 1) ≤ Config.traversalFuel := by
    unfold Config.traversalFuel
    exact Nat.pow_le_pow_right (by decide) (show _ ≤ Config.nodeMax from h)
  rw [weight_cons]
  change 2 ^ (i.toNat + 1) - 1 + 0 ≤ _
  omega

/-- A property that each visit keeps holds when the traversal ends; and it ends. -/
theorem traverse_keeps (sh : Shape F t) (hp : poolHolds pool t) (P : List PathEntry → CodeBook → Prop)
    (hleaf : ∀ e st c, ∀ h : e.node.toNat < (present F).length, P (e :: st) c →
      P st (c.record (present F)[e.node.toNat] e.depth e.path))
    (hinner : ∀ e st c nd, presentCount F ≤ e.node.toNat → e.node.toNat < t.nodes.length →
      nodeAt pool e.node = some nd → nd.kind = 1#1 → nd.left.toNat < e.node.toNat →
      (nd.right.toNat < e.node.toNat ∨ nd.right = Config.noNode) → P (e :: st) c →
      P (pushChild nd.left (e.depth + 1) (2 * e.path) (pushChild nd.right (e.depth + 1) (2 * e.path + 1) st)) c)
    (fuel : Nat) (st : List PathEntry) (c : CodeBook) (hv : ∀ e ∈ st, e.node.toNat < t.nodes.length)
    (hw : weight st ≤ fuel) (h : P st c) :
    ∃ c', traverse pool fuel st c = some c' ∧ P [] c' := by
  have hpos : ∀ k : Nat, 2 ^ k ≥ 1 := fun k => Nat.one_le_two_pow
  induction fuel generalizing st c with
  | zero =>
    match st with
    | [] => exact ⟨c, by simp [traverse], h⟩
    | e :: st =>
      rw [weight_cons] at hw
      have := hpos e.node.toNat
      rw [pow_succ] at hw
      omega
  | succ fuel ih =>
    match st with
    | [] => exact ⟨c, by simp [traverse], h⟩
    | e :: st =>
      rw [weight_cons, pow_succ] at hw
      have hpe := hpos e.node.toNat
      have he := hv e (by simp)
      have hv' : ∀ x ∈ st, x.node.toNat < t.nodes.length := fun x hx => hv x (by simp [hx])
      by_cases hl : e.node.toNat < (present F).length
      · simp only [traverse, nodeAt_leaf sh hp hl, leafNode, if_true]
        exact ih _ _ hv' (by omega) (hleaf e st c hl h)
      · obtain ⟨nd, hnd, hk, hleft, hright⟩ := nodeAt_inner sh hp (i := e.node) (by unfold presentCount; omega) he
        have hk0 : ¬ nd.kind = 0#1 := by rw [hk]; decide
        simp only [traverse, hnd, hk0, if_false]
        refine ih _ _ ?_ ?_ (hinner e st c nd (by unfold presentCount; omega) he hnd hk hleft hright h)
        · intro x hx
          rcases mem_pushChild hx with ⟨rfl, _⟩ | hx
          · exact lt_trans hleft he
          · rcases mem_pushChild hx with ⟨rfl, hne⟩ | hx
            · exact lt_trans (hright.resolve_right hne) he
            · exact hv' x hx
        · have h1 := weight_pushChild (i := nd.left) (d := e.depth + 1) (v := 2 * e.path)
            (st := pushChild nd.right (e.depth + 1) (2 * e.path + 1) st) (.inl hleft)
          have h2 := weight_pushChild (i := nd.right) (d := e.depth + 1) (v := 2 * e.path + 1) (st := st) hright
          omega

/-- The codebook does not depend on the slots that hold no node. -/
theorem traverse_congr (sh : Shape F t) {pool' : Vector Node 511} (hp : poolHolds pool t) (hp' : poolHolds pool' t)
    (fuel : Nat) (st : List PathEntry) (c : CodeBook) (hv : ∀ e ∈ st, e.node.toNat < t.nodes.length) :
    traverse pool fuel st c = traverse pool' fuel st c := by
  induction fuel generalizing st c with
  | zero => cases st <;> rfl
  | succ fuel ih =>
    cases st with
    | nil => rfl
    | cons e st =>
      have he := hv e (by simp)
      have hv' : ∀ x ∈ st, x.node.toNat < t.nodes.length := fun x hx => hv x (by simp [hx])
      by_cases hl : e.node.toNat < (present F).length
      · simp only [traverse, nodeAt_leaf sh hp hl, nodeAt_leaf sh hp' hl, leafNode, if_true]
        exact ih _ _ hv'
      · have hin := sh.inner e.node.toNat (by unfold presentCount; omega) he
        simp only [traverse, nodeAt_of_lt hp he, nodeAt_of_lt hp' he]
        have hk0 : ¬ t.nodes[e.node.toNat].kind = 0#1 := by rw [hin.1]; decide
        simp only [hk0, if_false]
        apply ih
        intro x hx
        rcases mem_pushChild hx with ⟨rfl, _⟩ | hx
        · exact lt_trans hin.2.1 he
        · rcases mem_pushChild hx with ⟨rfl, hne⟩ | hx
          · exact lt_trans (hin.2.2.resolve_right fun h => hne h.2) he
          · exact hv' x hx

theorem deriveCodes_congr (F : SymTable (BitVec 64)) {pool pool' : Vector Node 511}
    (hp : poolHolds pool (buildTree F)) (hp' : poolHolds pool' (buildTree F)) :
    deriveCodes pool (buildTree F).root = deriveCodes pool' (buildTree F).root := by
  unfold deriveCodes
  split
  · rfl
  · rename_i hr
    have h1 : 1 ≤ presentCount F := by
      rcases Nat.eq_zero_or_pos (presentCount F) with h0 | h0
      · rw [buildTree_empty F h0] at hr; exact absurd rfl hr
      · exact h0
    have sh := buildTree_shape F h1
    refine traverse_congr sh hp hp' _ _ _ fun e he => ?_
    have := sh.root_last
    have := sh.more_nodes
    simp only [List.mem_singleton] at he
    subst he
    change (buildTree F).root.toNat < _
    omega

/-! ### The codes are the paths -/

theorem codeOf_eq (c : CodeBook) (s : Byte) :
    codeOf c s = pathBits (symAt c.len s).toNat (symAt c.bits s).toNat := by
  simp only [codeOf, pathBits]
  rfl

theorem length_codeOf (c : CodeBook) (s : Byte) : (codeOf c s).length = (symAt c.len s).toNat := by
  simp [codeOf]

theorem codeOf_record (c : CodeBook) (s x : Byte) (d v : Nat) (hd : d ≤ 255) (hv : v < 2 ^ d) :
    codeOf (c.record s d v) x = if x = s then pathBits d v else codeOf c x := by
  rw [codeOf_eq, codeOf_eq]
  simp only [CodeBook.record, symAt_symSet]
  split
  · have h1 : d % 256 = d := Nat.mod_eq_of_lt (by omega)
    have h2 : v % 2 ^ 255 = v := Nat.mod_eq_of_lt (lt_of_lt_of_le hv (Nat.pow_le_pow_right (by omega) hd))
    simp only [BitVec.toNat_ofNat, h1, h2]
  · rfl

/-- What the traversal keeps: every stack entry is the path to its node, every recorded code is the path to its
symbol's leaf, and every leaf is recorded or still to be reached. -/
structure Progress (F : SymTable (BitVec 64)) (t : Tree) (pool : Vector Node 511) (st : List PathEntry)
    (c : CodeBook) : Prop where
  entry : ∀ e ∈ st, followBits pool t.root (pathBits e.depth e.path) = some e.node ∧
    e.depth + e.node.toNat ≤ t.nodes.length - 1 ∧ e.depth ≤ t.nodes.length - presentCount F ∧ e.path < 2 ^ e.depth
  code  : ∀ x, (symAt c.len x = 0#8 ∧ symAt c.bits x = 0#255) ∨
    (symAt F x ≠ 0#64 ∧ 1 ≤ (symAt c.len x).toNat ∧ (symAt c.len x).toNat ≤ t.nodes.length - presentCount F ∧
      (symAt c.bits x).toNat < 2 ^ (symAt c.len x).toNat ∧
      ∃ i, followBits pool t.root (codeOf c x) = some i ∧ nodeAt pool i = some (leafNode x (symAt F x)))
  cover : ∀ k : NodeIndex, ∀ h : k.toNat < (present F).length,
    symAt c.len (present F)[k.toNat] ≠ 0#8 ∨ ∃ e ∈ st, ∃ l, followBits pool e.node l = some k

theorem Progress.leaf (sh : Shape F t) (hp : poolHolds pool t) {e : PathEntry} {st : List PathEntry} {c : CodeBook}
    (h : e.node.toNat < (present F).length) (P : Progress F t pool (e :: st) c) :
    Progress F t pool st (c.record (present F)[e.node.toNat] e.depth e.path) := by
  obtain ⟨hf, _, hd, hv⟩ := P.entry e (by simp)
  have hroom := sh.depth_room
  have hd1 : 1 ≤ e.depth := by
    rcases Nat.eq_zero_or_pos e.depth with h0 | h0
    · rw [h0] at hf
      simp only [pathBits, List.range_zero, List.map_nil, followBits, Option.some.injEq] at hf
      have h1 := sh.root_last
      have h2 := sh.more_nodes
      have h3 : presentCount F = (present F).length := rfl
      rw [← hf] at h
      omega
    · exact h0
  have hd8 : e.depth % 256 = e.depth := Nat.mod_eq_of_lt (by omega)
  have hv255 : e.path % 2 ^ 255 = e.path :=
    Nat.mod_eq_of_lt (lt_of_lt_of_le hv (Nat.pow_le_pow_right (by omega) (by omega)))
  have hne : BitVec.ofNat 8 e.depth ≠ 0#8 := by
    intro e0
    have := congrArg BitVec.toNat e0
    simp only [BitVec.toNat_ofNat] at this
    omega
  constructor
  · exact fun x hx => P.entry x (by simp [hx])
  · intro x
    rw [codeOf_record _ _ _ _ _ (by omega) hv]
    simp only [CodeBook.record, symAt_symSet]
    by_cases hx : x = (present F)[e.node.toNat]
    · right
      simp only [if_pos hx, BitVec.toNat_ofNat]
      refine ⟨?_, by omega, by omega, ?_, e.node, hf, ?_⟩
      · rw [hx]; exact (mem_present F _).mp (List.getElem_mem h)
      · rw [hd8, hv255]; exact hv
      · rw [nodeAt_leaf sh hp h, hx]
    · simp only [if_neg hx]
      exact P.code x
  · intro k hk
    simp only [CodeBook.record, symAt_symSet]
    by_cases hx : (present F)[k.toNat] = (present F)[e.node.toNat]
    · left; rw [if_pos hx]; exact hne
    · rw [if_neg hx]
      rcases P.cover k hk with h1 | ⟨x, hxm, l, hl⟩
      · exact .inl h1
      · rcases List.mem_cons.mp hxm with rfl | hxm
        · exfalso
          cases l with
          | nil =>
            simp only [followBits, Option.some.injEq] at hl
            exact hx (by simp only [hl])
          | cons b l => simp [followBits, nodeAt_leaf sh hp h, leafNode] at hl
        · exact .inr ⟨x, hxm, l, hl⟩

theorem Progress.inner (sh : Shape F t) {e : PathEntry} {st : List PathEntry} {c : CodeBook} {nd : Node}
    (hn : presentCount F ≤ e.node.toNat) (hnd : nodeAt pool e.node = some nd) (hk : nd.kind = 1#1)
    (hleft : nd.left.toNat < e.node.toNat) (hright : nd.right.toNat < e.node.toNat ∨ nd.right = Config.noNode)
    (P : Progress F t pool (e :: st) c) :
    Progress F t pool
      (pushChild nd.left (e.depth + 1) (2 * e.path) (pushChild nd.right (e.depth + 1) (2 * e.path + 1) st)) c := by
  obtain ⟨hf, hd, _, hv⟩ := P.entry e (by simp)
  have hmore := sh.more_nodes
  have hb : ∀ b : Bool, followBits pool t.root (pathBits (e.depth + 1) (2 * e.path + b.toNat)) =
      some (if b then nd.right else nd.left) := by
    intro b
    rw [pathBits_succ, followBits_append, hf, Option.bind_some, followBits_branch hnd hk]
  constructor
  · intro x hx
    rcases mem_pushChild hx with ⟨rfl, _⟩ | hx
    · refine ⟨hb false, ?_, ?_, ?_⟩
      · simp; omega
      · simp; omega
      · simp only [pow_succ]; omega
    · rcases mem_pushChild hx with ⟨rfl, hne⟩ | hx
      · have := hright.resolve_right hne
        refine ⟨hb true, ?_, ?_, ?_⟩
        · simp; omega
        · simp; omega
        · simp only [pow_succ]; omega
      · exact P.entry x (by simp [hx])
  · exact P.code
  · intro k hk'
    rcases P.cover k hk' with h1 | ⟨x, hxm, l, hl⟩
    · exact .inl h1
    · right
      rcases List.mem_cons.mp hxm with hxe | hxm
      · rw [hxe] at hl
        cases l with
        | nil =>
          simp only [followBits, Option.some.injEq] at hl
          have h3 : presentCount F = (present F).length := rfl
          rw [← hl] at hk'
          omega
        | cons b l =>
          have hk0 : ¬ nd.kind = 0#1 := by rw [hk]; decide
          simp only [followBits, hnd, hk0, if_false] at hl
          have hne : (if b then nd.right else nd.left) ≠ Config.noNode := by
            intro e0
            rw [e0] at hl
            cases l with
            | nil =>
              simp only [followBits, Option.some.injEq] at hl
              have h3 : presentCount F = (present F).length := rfl
              have h4 := sh.few_nodes
              rw [← hl] at hk'
              simp [Config.noNode] at hk'
              omega
            | cons b l => simp [followBits] at hl
          cases b with
          | false =>
            refine ⟨⟨nd.left, e.depth + 1, 2 * e.path⟩, ?_, l, by simpa using hl⟩
            simp only [Bool.false_eq_true, if_false] at hne
            exact self_mem_pushChild hne
          | true =>
            refine ⟨⟨nd.right, e.depth + 1, 2 * e.path + 1⟩, ?_, l, by simpa using hl⟩
            simp only [if_true] at hne
            exact mem_pushChild_of_mem (self_mem_pushChild hne)
      · exact ⟨x, mem_pushChild_of_mem (mem_pushChild_of_mem hxm), l, hl⟩

theorem symAt_empty_len (x : Byte) : symAt CodeBook.empty.len x = 0#8 := by simp [CodeBook.empty]

theorem symAt_empty_bits (x : Byte) : symAt CodeBook.empty.bits x = 0#255 := by simp [CodeBook.empty]

/-- A codebook read off a tree: an absent symbol has no code; a present one has a code of 1 to m − n bits that is
the path from the root to its leaf (R250 to R253). -/
structure CodesOf (F : SymTable (BitVec 64)) (pool : Vector Node 511) (c : CodeBook) : Prop where
  absent : ∀ x, symAt F x = 0#64 → symAt c.len x = 0#8 ∧ symAt c.bits x = 0#255
  coded  : ∀ x, symAt F x ≠ 0#64 → 1 ≤ (symAt c.len x).toNat ∧
    (symAt c.len x).toNat ≤ (buildTree F).nodes.length - presentCount F ∧
    (symAt c.bits x).toNat < 2 ^ (symAt c.len x).toNat
  path   : ∀ x, symAt F x ≠ 0#64 → ∃ i, followBits pool (buildTree F).root (codeOf c x) = some i ∧
    nodeAt pool i = some (leafNode x (symAt F x))

/-- The code derivation ends on every tree that `buildTree` makes, and gives each present symbol its path. -/
theorem deriveCodes_buildTree (F : SymTable (BitVec 64)) (pool : Vector Node 511)
    (hp : poolHolds pool (buildTree F)) :
    ∃ c, deriveCodes pool (buildTree F).root = some c ∧ CodesOf F pool c := by
  rcases Nat.eq_zero_or_pos (presentCount F) with h0 | h1
  · have habs : ∀ x, symAt F x = 0#64 := by
      intro x
      by_contra hx
      have : x ∈ present F := (mem_present F x).mpr hx
      rw [List.length_eq_zero_iff.mp h0] at this
      simp at this
    refine ⟨CodeBook.empty, ?_, ?_⟩
    · rw [buildTree_empty F h0]; simp [deriveCodes]
    · exact ⟨fun x _ => ⟨symAt_empty_len x, symAt_empty_bits x⟩, fun x hx => absurd (habs x) hx,
        fun x hx => absurd (habs x) hx⟩
  · have sh := buildTree_shape F h1
    have hroot := sh.root_last
    have hmore := sh.more_nodes
    have hfew := sh.few_nodes
    have hstart : Progress F (buildTree F) pool [⟨(buildTree F).root, 0, 0⟩] CodeBook.empty := by
      constructor
      · intro e he
        simp only [List.mem_singleton] at he
        subst he
        refine ⟨rfl, ?_, ?_, ?_⟩
        · simp; omega
        · simp
        · simp
      · exact fun x => .inl ⟨symAt_empty_len x, symAt_empty_bits x⟩
      · intro k hk
        obtain ⟨l, hl⟩ := root_reaches sh hp k (lt_trans hk hmore)
        exact .inr ⟨⟨(buildTree F).root, 0, 0⟩, by simp, l, hl⟩
    obtain ⟨c, hc, P⟩ := traverse_keeps sh hp (Progress F (buildTree F) pool)
      (fun e st c h P => P.leaf sh hp h)
      (fun e st c nd hn _ hnd hk hl hr P => P.inner sh hn hnd hk hl hr)
      Config.traversalFuel [⟨(buildTree F).root, 0, 0⟩] CodeBook.empty
      (by simp; omega)
      (weight_root (by omega))
      hstart
    refine ⟨c, ?_, ?_⟩
    · unfold deriveCodes
      rw [if_neg (root_ne_none F h1)]
      exact hc
    · have hrec : ∀ x, symAt F x ≠ 0#64 → symAt c.len x ≠ 0#8 := by
        intro x hx
        obtain ⟨i, hi, rfl⟩ := List.mem_iff_getElem.mp ((mem_present F x).mpr hx)
        have hn := presentCount_le F
        have hi' : i < presentCount F := hi
        have ei : (nodeIndex i).toNat = i := toNat_nodeIndex (by omega)
        have := P.cover (nodeIndex i) (by rw [ei]; exact hi)
        simp only [ei, List.not_mem_nil, false_and, exists_false, or_false] at this
        exact this
      constructor
      · intro x hx
        rcases P.code x with h | h
        · exact h
        · exact absurd hx h.1
      · intro x hx
        rcases P.code x with h | h
        · exact absurd h.1 (hrec x hx)
        · exact ⟨h.2.1, h.2.2.1, h.2.2.2.1⟩
      · intro x hx
        rcases P.code x with h | h
        · exact absurd h.1 (hrec x hx)
        · exact h.2.2.2.2

end Sys2Proof.Machine
end

