-- ==== Sys2Proof/Laws/BitPacker.lean ====
section
/-! SUPPORT. The packer lays the code string out as a payload (R270 to R275); the walk reads the bits of a payload back
and emits the symbols of the codes it meets (R280 to R284). -/

namespace Sys2Proof.Machine

/-! ### Packing -/

theorem placedBit_append_left (bs cs : List Byte) (p : Nat) (h : p < 8 * bs.length) :
    placedBit (bs ++ cs) p = placedBit bs p := by
  have : p / 8 < bs.length := by omega
  simp [placedBit, List.getD_eq_getElem?_getD, List.getElem?_append_left this]

theorem placedBit_append_last (bs : List Byte) (b : Byte) (j : Nat) (h : j < 8) :
    placedBit (bs ++ [b]) (8 * bs.length + j) = b.getLsbD (7 - j) := by
  have h1 : (8 * bs.length + j) / 8 = bs.length := by omega
  have h2 : (8 * bs.length + j) % 8 = j := by omega
  simp [placedBit, List.getD_eq_getElem?_getD, h1, h2]

/-- The packer after the bits `l`. -/
def pushAll (l : List Bool) : Packer := l.foldl Packer.push ⟨[], 0, 0, 0⟩

theorem pushAll_append (l : List Bool) (b : Bool) : pushAll (l ++ [b]) = (pushAll l).push b := by simp [pushAll]

/-- What the packer holds after the bits `l`: the whole bytes, and the bits left over in the accumulator. -/
structure Packed8 (l : List Bool) (p : Packer) : Prop where
  cnt   : p.cnt = l.length % 8
  count : p.count = l.length
  whole : p.out.length = l.length / 8
  acc   : p.acc < 2 ^ p.cnt
  bits  : ∀ i, ∀ h : i < l.length, i < 8 * p.out.length → placedBit p.out.reverse i = l[i]
  rest  : ∀ j, ∀ h : 8 * p.out.length + j < l.length, p.acc.testBit (p.cnt - 1 - j) = l[8 * p.out.length + j]

theorem testBit_two_mul_add (a : Nat) (b : Bool) (k : Nat) :
    (2 * a + b.toNat).testBit k = if k = 0 then b else a.testBit (k - 1) := by
  cases k with
  | zero => cases b <;> simp [Nat.testBit_zero]
  | succ k =>
    rw [Nat.testBit_succ, show (2 * a + b.toNat) / 2 = a by cases b <;> simp; omega]
    simp

theorem pushAll_packed (l : List Bool) : Packed8 l (pushAll l) := by
  induction l using List.reverseRecOn with
  | nil => exact ⟨rfl, rfl, rfl, by decide, by simp, by simp⟩
  | append_singleton l b ih =>
    rw [pushAll_append]
    obtain ⟨hcnt, hcount, hwhole, hacc, hbits, hrest⟩ := ih
    generalize pushAll l = p at *
    have hc8 : p.cnt < 8 := by omega
    have hacc' : 2 * p.acc + b.toNat < 2 ^ (p.cnt + 1) := by
      have : b.toNat ≤ 1 := by cases b <;> simp
      rw [pow_succ]; omega
    have h256 : (2 * p.acc + b.toNat) % 256 = 2 * p.acc + b.toNat := by
      apply Nat.mod_eq_of_lt
      exact lt_of_lt_of_le hacc' (Nat.pow_le_pow_right (by omega) (by omega) : 2 ^ (p.cnt + 1) ≤ 2 ^ 8)
    have hrest' : ∀ j, ∀ h : 8 * p.out.length + j < (l ++ [b]).length,
        (2 * p.acc + b.toNat).testBit (p.cnt - j) = (l ++ [b])[8 * p.out.length + j] := by
      intro j h
      simp only [List.length_append, List.length_singleton] at h
      rw [testBit_two_mul_add]
      by_cases hj : 8 * p.out.length + j < l.length
      · rw [List.getElem_append_left hj, ← hrest j hj, if_neg (by omega)]
        congr 1; omega
      · have : p.cnt - j = 0 := by omega
        rw [if_pos this, List.getElem_append_right (by omega)]
        simp
    by_cases h8 : p.cnt + 1 = 8
    · have hpush : p.push b =
          { out := BitVec.ofNat 8 (2 * p.acc + b.toNat) :: p.out, acc := 0, cnt := 0, count := p.count + 1 } := by
        simp [Packer.push, h8, h256]
      rw [hpush]
      constructor
      · simp; omega
      · simp [hcount]
      · simp; omega
      · simp
      · intro i hi h
        simp only [List.length_cons] at h
        simp only [List.length_append, List.length_singleton] at hi
        rw [List.reverse_cons]
        by_cases hlt : i < 8 * p.out.length
        · rw [placedBit_append_left _ _ _ (by simpa using hlt), List.getElem_append_left (by omega)]
          exact hbits i (by omega) hlt
        · obtain ⟨j, rfl⟩ : ∃ j, i = 8 * p.out.length + j := ⟨i - 8 * p.out.length, by omega⟩
          have := placedBit_append_last p.out.reverse (BitVec.ofNat 8 (2 * p.acc + b.toNat)) j (by omega)
          rw [List.length_reverse] at this
          rw [this, ← hrest' j (by simpa using hi), BitVec.getLsbD_ofNat, show p.cnt = 7 by omega]
          simp only [show 7 - j < 8 by omega, decide_true, Bool.true_and]
      · intro j h
        simp at h
        omega
    · have hpush : p.push b =
          { out := p.out, acc := 2 * p.acc + b.toNat, cnt := p.cnt + 1, count := p.count + 1 } := by
        simp [Packer.push, h8, h256]
      rw [hpush]
      constructor
      · simp; omega
      · simp [hcount]
      · simp; omega
      · exact hacc'
      · intro i hi h
        simp only at h ⊢
        rw [List.getElem_append_left (by omega)]
        exact hbits i (by omega) h
      · intro j h
        simp only at h ⊢
        rw [← hrest' j h]
        congr 1

theorem bytes_isPayload (l : List Bool) : isPayload (pushAll l).bytes l := by
  obtain ⟨hcnt, hcount, hwhole, hacc, hbits, hrest⟩ := pushAll_packed l
  generalize pushAll l = p at *
  unfold Packer.bytes
  by_cases h0 : 0 < p.cnt
  · rw [if_pos h0]
    have hlen : (p.out.reverse ++ [BitVec.ofNat 8 (p.acc * 2 ^ (8 - p.cnt))]).length = ceil8 l.length := by
      simp [ceil8]; omega
    have hlast : ∀ j, j < 8 → placedBit (p.out.reverse ++ [BitVec.ofNat 8 (p.acc * 2 ^ (8 - p.cnt))])
        (8 * p.out.length + j) = (decide (j < p.cnt) && p.acc.testBit (p.cnt - 1 - j)) := by
      intro j hj
      have := placedBit_append_last p.out.reverse (BitVec.ofNat 8 (p.acc * 2 ^ (8 - p.cnt))) j hj
      rw [List.length_reverse] at this
      rw [this, BitVec.getLsbD_ofNat, Nat.testBit_mul_two_pow]
      by_cases hjc : j < p.cnt
      · simp only [show 7 - j < 8 by omega, show 8 - p.cnt ≤ 7 - j by omega, hjc, decide_true, Bool.true_and]
        congr 1; omega
      · simp [hjc]; intro _ h; omega
    refine ⟨hlen, fun i hi => ?_, fun i hi h => ?_⟩
    · by_cases hlt : i < 8 * p.out.length
      · rw [placedBit_append_left _ _ _ (by simpa using hlt)]
        exact hbits i hi hlt
      · obtain ⟨j, rfl⟩ : ∃ j, i = 8 * p.out.length + j := ⟨i - 8 * p.out.length, by omega⟩
        rw [hlast j (by omega), ← hrest j hi]
        simp only [show j < p.cnt by omega, decide_true, Bool.true_and]
    · simp only [List.length_append, List.length_reverse, List.length_singleton] at h
      obtain ⟨j, rfl⟩ : ∃ j, i = 8 * p.out.length + j := ⟨i - 8 * p.out.length, by omega⟩
      rw [hlast j (by omega)]
      simp only [show ¬ j < p.cnt by omega, decide_false, Bool.false_and]
  · rw [if_neg h0]
    refine ⟨by simp [ceil8]; omega, fun i hi => hbits i hi (by omega), fun i hi h => ?_⟩
    simp at h
    omega

theorem packBits_eq (c : CodeBook) (input : List Byte) :
    packBits c input = { bytes := (pushAll (codeString c input)).bytes, count := (codeString c input).length,
                         padding := pad (codeString c input).length } := by
  have h : input.foldl (fun p s => (codeOf c s).foldl Packer.push p) ⟨[], 0, 0, 0⟩ = pushAll (codeString c input) := by
    rw [pushAll, codeString, List.foldl_flatMap]
  have hc := (pushAll_packed (codeString c input)).count
  simp only [packBits, h, hc]

/-- The packed bytes are the payload of the code string (R270, R272, R273, R275). -/
theorem packBits_isPayload (c : CodeBook) (input : List Byte) :
    isPayload (packBits c input).bytes (codeString c input) := by
  rw [packBits_eq]
  exact bytes_isPayload _

theorem length_codeString (c : CodeBook) (input : List Byte) :
    (codeString c input).length = inputBits c.len input := by
  simp [codeString, inputBits, List.length_flatMap, length_codeOf]

theorem length_packBits (c : CodeBook) (input : List Byte) :
    (packBits c input).bytes.length = ceil8 (inputBits c.len input) := by
  rw [(packBits_isPayload c input).1, length_codeString]

theorem padding_packBits (c : CodeBook) (input : List Byte) :
    (packBits c input).padding = pad (inputBits c.len input) := by
  rw [packBits_eq, length_codeString]

theorem pad_le (b : Nat) : pad b ≤ 7 := by unfold pad; omega

theorem ceil8_pad (b : Nat) : 8 * ceil8 b - pad b = b := by unfold ceil8 pad; omega

/-! ### Reading the bits back -/

@[simp] theorem length_byteBits (b : Byte) : (byteBits b).length = 8 := by simp [byteBits]

theorem length_flatMap_byteBits (bs : List Byte) : (bs.flatMap byteBits).length = 8 * bs.length := by
  induction bs with
  | nil => rfl
  | cons b bs ih => simp [ih]; omega

theorem getElem_flatMap_byteBits (bs : List Byte) (p : Nat) (h : p < (bs.flatMap byteBits).length) :
    (bs.flatMap byteBits)[p] = placedBit bs p := by
  induction bs generalizing p with
  | nil => simp at h
  | cons b bs ih =>
    simp only [List.flatMap_cons]
    by_cases hp : p < 8
    · rw [List.getElem_append_left (by simpa using hp)]
      have h1 : p / 8 = 0 := by omega
      have h2 : p % 8 = p := by omega
      simp [byteBits, placedBit, h1, h2]
    · rw [List.getElem_append_right (by simpa using hp)]
      simp only [length_byteBits]
      rw [ih]
      have h1 : p / 8 = (p - 8) / 8 + 1 := by omega
      have h2 : p % 8 = (p - 8) % 8 := by omega
      simp [placedBit, h1, h2]

theorem payloadBits_eq (bs : List Byte) (p : Nat) : payloadBits bs p = (bs.flatMap byteBits).take (8 * bs.length - p) :=
  rfl

theorem length_payloadBits (bs : List Byte) (p : Nat) : (payloadBits bs p).length = 8 * bs.length - p := by
  rw [payloadBits_eq, List.length_take, length_flatMap_byteBits]
  omega

/-- The usable bits of a payload are the bits it was made of (R280). -/
theorem payloadBits_of_isPayload {bs : List Byte} {l : List Bool} (h : isPayload bs l) :
    payloadBits bs (pad l.length) = l := by
  have hlen : (payloadBits bs (pad l.length)).length = l.length := by
    rw [length_payloadBits, h.1, ceil8_pad]
  refine List.ext_getElem hlen fun i hi hi' => ?_
  simp only [payloadBits_eq, List.getElem_take, getElem_flatMap_byteBits]
  exact h.2.1 i hi'

/-- Dropping whole bytes from the end of a payload leaves the first bits of its string (R333). -/
theorem payloadBits_take {bs : List Byte} {l : List Bool} (h : isPayload bs l) {j : Nat} (hj : j ≤ bs.length) :
    payloadBits (bs.take j) (pad l.length) = l.take (8 * j - pad l.length) := by
  have h1 := h.1
  have hp := pad_le l.length
  have hc := ceil8_pad l.length
  have hlen : (payloadBits (bs.take j) (pad l.length)).length = (l.take (8 * j - pad l.length)).length := by
    rw [length_payloadBits, List.length_take, List.length_take]
    omega
  refine List.ext_getElem hlen fun i hi hi' => ?_
  simp only [payloadBits_eq, List.getElem_take, getElem_flatMap_byteBits]
  rw [List.length_take] at hi'
  rw [← h.2.1 i (by omega)]
  have : i / 8 < j := by omega
  simp [placedBit, List.getD_eq_getElem?_getD, this]

/-! ### The walk -/

variable {pool : Vector Node 511} {root : NodeIndex} {n : Nat}

/-- The walk from inside or at the start of a code whose remaining path leads to a leaf emits its symbol. -/
theorem walkFrom_code {x : Byte} {f : BitVec 64} {i : NodeIndex} (hleaf : nodeAt pool i = some (leafNode x f))
    (l rest : List Bool) (hl : l ≠ []) (pos e : Nat) (he : e < n) (cur : Option NodeIndex) (out : List Byte)
    (hf : followBits pool (cur.getD root) l = some i) :
    walkFrom pool root n (l ++ rest) pos e cur out =
      walkFrom pool root n rest (pos + l.length) (e + 1) none (x :: out) := by
  induction l generalizing pos cur with
  | nil => exact absurd rfl hl
  | cons b l ih =>
    simp only [followBits] at hf
    cases hnd : nodeAt pool (cur.getD root) with
    | none => rw [hnd] at hf; simp at hf
    | some nd =>
      rw [hnd] at hf
      simp only at hf
      split at hf
      · simp at hf
      · simp only [List.cons_append, walkFrom, he, not_true, and_false, if_false, hnd]
        cases l with
        | nil =>
          simp only [followBits, Option.some.injEq] at hf
          rw [hf]
          simp only [hleaf, leafNode, if_true, List.nil_append, List.length_singleton]
        | cons b' l =>
          have hf' := hf
          simp only [followBits] at hf'
          cases hc : nodeAt pool (if b then nd.right else nd.left) with
          | none => rw [hc] at hf'; simp at hf'
          | some child =>
            rw [hc] at hf'
            simp only at hf'
            split at hf'
            · simp at hf'
            · rename_i hk
              simp only [hk, if_false]
              rw [ih (by simp) (pos + 1) (some _) (by simpa using hf)]
              simp only [List.length_cons]
              congr 1
              omega

/-- The codes of an input, walked one after the other, give the input (R287). -/
theorem walkFrom_codeString (c : CodeBook) (input : List Byte)
    (hc : ∀ x ∈ input, codeOf c x ≠ [] ∧ ∃ i f, followBits pool root (codeOf c x) = some i ∧
      nodeAt pool i = some (leafNode x f))
    (rest : List Bool) (pos e : Nat) (he : e + input.length ≤ n) (out : List Byte) :
    walkFrom pool root n (codeString c input ++ rest) pos e none out =
      walkFrom pool root n rest (pos + (codeString c input).length) (e + input.length) none
        (input.reverse ++ out) := by
  induction input generalizing pos e out with
  | nil => simp [codeString]
  | cons x input ih =>
    obtain ⟨hne, i, f, hf, hleaf⟩ := hc x (by simp)
    simp only [List.length_cons] at he
    simp only [codeString, List.flatMap_cons, List.append_assoc]
    rw [walkFrom_code hleaf _ _ hne _ _ (by omega) none _ (by simpa using hf)]
    have := ih (fun y hy => hc y (by simp [hy])) (pos + (codeOf c x).length) (e + 1) (by omega) (x :: out)
    simp only [codeString] at this
    rw [this]
    simp only [List.length_append, List.length_cons, List.reverse_cons, List.append_assoc, List.cons_append,
      List.nil_append]
    congr 1 <;> omega

/-- The walk of exactly the codes of an input emits the input and is done. -/
theorem walkFrom_done (c : CodeBook) (input : List Byte)
    (hc : ∀ x ∈ input, codeOf c x ≠ [] ∧ ∃ i f, followBits pool root (codeOf c x) = some i ∧
      nodeAt pool i = some (leafNode x f)) :
    walkFrom pool root input.length (codeString c input) 0 0 none [] = ⟨input, .done⟩ := by
  have := walkFrom_codeString (n := input.length) c input hc [] 0 0 (by omega) []
  rw [List.append_nil] at this
  rw [this]
  simp [walkFrom]

/-- A proper beginning of a code ends the walk inside the code (R282). -/
theorem walkFrom_inside {i : NodeIndex} (l l' : List Bool) (hl' : l' ≠ []) (pos e : Nat) (he : e < n)
    (cur : Option NodeIndex) (hin : cur ≠ none ∨ l ≠ []) (out : List Byte)
    (hf : followBits pool (cur.getD root) (l ++ l') = some i) :
    walkFrom pool root n l pos e cur out = ⟨out.reverse, .failed .fmtExhausted (pos + l.length)⟩ := by
  induction l generalizing pos cur with
  | nil =>
    cases cur with
    | none => simp at hin
    | some j => simp [walkFrom]
  | cons b l ih =>
    simp only [List.cons_append, followBits] at hf
    cases hnd : nodeAt pool (cur.getD root) with
    | none => rw [hnd] at hf; simp at hf
    | some nd =>
      rw [hnd] at hf
      simp only at hf
      split at hf
      · simp at hf
      · simp only [walkFrom, he, not_true, and_false, if_false, hnd]
        have hcons : ∃ b' l'', l ++ l' = b' :: l'' := by
          cases hll : l ++ l' with
          | nil => simp at hll; exact absurd hll.2 hl'
          | cons b' l'' => exact ⟨b', l'', rfl⟩
        obtain ⟨b', l'', hll⟩ := hcons
        have hf' := hf
        rw [hll] at hf'
        simp only [followBits] at hf'
        cases hc : nodeAt pool (if b then nd.right else nd.left) with
        | none => rw [hc] at hf'; simp at hf'
        | some child =>
          rw [hc] at hf'
          simp only at hf'
          split at hf'
          · simp at hf'
          · rename_i hk
            simp only [hk, if_false]
            rw [ih (pos + 1) (some _) (by simp) (by simpa using hf), List.length_cons]
            congr 2
            omega

/-- A proper beginning of a code string gives a proper beginning of the input, and ends the walk with FMT_COUNT or
FMT_EXHAUSTED (R333). -/
theorem walkFrom_truncated (c : CodeBook) (input : List Byte)
    (hc : ∀ x ∈ input, codeOf c x ≠ [] ∧ ∃ i f, followBits pool root (codeOf c x) = some i ∧
      nodeAt pool i = some (leafNode x f))
    (j : Nat) (hj : j < (codeString c input).length) (pos e : Nat) (he : e + input.length = n) (out : List Byte) :
    ∃ m < input.length, ∃ w, (w = .failed .fmtCount (e + m) ∨ ∃ k, w = .failed .fmtExhausted k) ∧
      walkFrom pool root n ((codeString c input).take j) pos e none out = ⟨out.reverse ++ input.take m, w⟩ := by
  induction input generalizing j pos e out with
  | nil => simp [codeString] at hj
  | cons x input ih =>
    obtain ⟨hne, i, f, hf, hleaf⟩ := hc x (by simp)
    simp only [List.length_cons] at he
    simp only [codeString, List.flatMap_cons, List.length_append] at hj ⊢
    rw [List.take_append]
    by_cases hlt : j < (codeOf c x).length
    · rw [show j - (codeOf c x).length = 0 by omega, List.take_zero, List.append_nil]
      refine ⟨0, by simp, ?_⟩
      cases j with
      | zero => exact ⟨_, .inl rfl, by simp [walkFrom]; omega⟩
      | succ j =>
        refine ⟨.failed .fmtExhausted (pos + ((codeOf c x).take (j + 1)).length), .inr ⟨_, rfl⟩, ?_⟩
        rw [walkFrom_inside (root := root) (n := n) ((codeOf c x).take (j + 1)) ((codeOf c x).drop (j + 1))
          (by simp; omega) pos e (by omega) none (by simp; exact hne) out
          (by rw [List.take_append_drop]; exact hf)]
        simp
    · rw [List.take_of_length_le (by omega),
        walkFrom_code hleaf _ _ hne _ _ (by omega) none _ (by simpa using hf)]
      obtain ⟨m, hm, w, hw, h⟩ := ih (fun y hy => hc y (by simp [hy])) (j - (codeOf c x).length)
        (by simp only [codeString]; omega) (pos + (codeOf c x).length) (e + 1) (by omega) (x :: out)
      refine ⟨m + 1, by simp; omega, w, ?_, ?_⟩
      · rw [show e + (m + 1) = e + 1 + m by omega]; exact hw
      · rw [show (input.flatMap (codeOf c)) = codeString c input from rfl, h]
        simp

/-- The walk is stuck only when it starts from no node. -/
theorem walkFrom_not_stuck (hr : root ≠ Config.noNode ∨ n = 0) (l : List Bool) (pos e : Nat)
    (cur : Option NodeIndex) (hcur : ∀ i, cur = some i → i ≠ Config.noNode) (out : List Byte) (f : Fault) :
    (walkFrom pool root n l pos e cur out).last ≠ .stuck f := by
  induction l generalizing pos e cur out with
  | nil =>
    cases cur with
    | none => simp only [walkFrom]; split <;> simp
    | some i => simp [walkFrom]
  | cons b l ih =>
    simp only [walkFrom]
    split
    · simp
    · rename_i hc
      have hnode : cur.getD root ≠ Config.noNode := by
        cases cur with
        | none =>
          rcases hr with hr | hr
          · exact hr
          · simp [hr] at hc
        | some i => exact hcur i rfl
      obtain ⟨nd, hnd⟩ := Option.isSome_iff_exists.mp ((nodeAt_isSome pool _).mpr hnode)
      rw [hnd]
      simp only
      cases hch : nodeAt pool (if b then nd.right else nd.left) with
      | none => simp
      | some child =>
        simp only
        split
        · exact ih _ _ none (by simp) _
        · refine ih _ _ (some _) (fun i hi => ?_) _
          simp only [Option.some.injEq] at hi
          subst hi
          exact (nodeAt_isSome pool _).mp (by simp [hch])

/-- How many symbols the walk has emitted when it ends, and that only its own causes end it (R282, R283). -/
theorem walkFrom_out (l : List Bool) (pos e : Nat) (cur : Option NodeIndex) (out : List Byte)
    (he : e ≤ n) (hcur : cur ≠ none → e < n) (ho : out.length = e) :
    (walkFrom pool root n l pos e cur out).out.length ≤ n ∧
    ((walkFrom pool root n l pos e cur out).last = .done →
      (walkFrom pool root n l pos e cur out).out.length = n) ∧
    ∀ c i, (walkFrom pool root n l pos e cur out).last = .failed c i → c.isWalk = true := by
  induction l generalizing pos e cur out with
  | nil =>
    cases cur with
    | none =>
      simp only [walkFrom]
      split
      · refine ⟨by simp; omega, by simp, ?_⟩
        intro c i h
        simp only [WalkEnd.failed.injEq] at h
        rw [← h.1]; rfl
      · exact ⟨by simp; omega, by intro _; simp; omega, by simp⟩
    | some i =>
      refine ⟨by simp [walkFrom]; omega, by simp [walkFrom], ?_⟩
      intro c i h
      simp only [walkFrom, WalkEnd.failed.injEq] at h
      rw [← h.1]; rfl
  | cons b l ih =>
    simp only [walkFrom]
    split
    · refine ⟨by simp; omega, by simp, ?_⟩
      intro c i h
      simp only [WalkEnd.failed.injEq] at h
      rw [← h.1]; rfl
    · rename_i hc
      have hlt : e < n := by
        cases cur with
        | none => simpa using hc
        | some i => exact hcur (by simp)
      split
      · exact ⟨by simp; omega, by simp, by simp⟩
      · split
        · refine ⟨by simp; omega, by simp, ?_⟩
          intro c i h
          simp only [WalkEnd.failed.injEq] at h
          rw [← h.1]; rfl
        · split
          · exact ih _ _ _ _ (by omega) (by simp) (by simp; omega)
          · exact ih _ _ _ _ (by omega) (fun _ => hlt) ho

end Sys2Proof.Machine
end

