-- ==== Sys2Proof/Laws/Codec.lean ====
section
/-! SUPPORT. The header parser and the header serializer undo each other (R313, R322), and the payload length of an
encoded input (R314). -/

namespace Sys2Proof.Machine

/-- The serialized entries of the symbols `l` of table F (R120). -/
def entryBytes (F : SymTable (BitVec 64)) (l : List Byte) : List Byte :=
  l.flatMap fun s => s :: toBe 8 (symAt F s).toNat

theorem length_entryBytes (F : SymTable (BitVec 64)) (l : List Byte) : (entryBytes F l).length = 9 * l.length := by
  induction l with
  | nil => rfl
  | cons s l ih => simp only [entryBytes, List.flatMap_cons, List.length_append, List.length_cons, length_toBe] at *; omega

theorem serializeHeader_eq (F : SymTable (BitVec 64)) (n p : Nat) :
    serializeHeader F n p =
      BitVec.ofNat 8 p :: (toBe 8 n ++ (toBe 2 (presentCount F) ++ entryBytes F (present F))) := by
  simp [serializeHeader, entryBytes]

/-- The header length (R123, R313). -/
@[simp] theorem length_serializeHeader (F : SymTable (BitVec 64)) (n p : Nat) :
    (serializeHeader F n p).length = headerLength (presentCount F) := by
  rw [serializeHeader_eq]
  simp only [List.length_cons, List.length_append, length_toBe, length_entryBytes, headerLength]
  have : (present F).length = presentCount F := rfl
  omega

/-! ### Parsing what was serialized -/

theorem take_drop_append_left (a b rest : List Byte) (k n : Nat) (hk : a.length = k) (hn : b.length = n) :
    ((a ++ (b ++ rest)).drop k).take n = b := by
  subst hk hn
  simp

/-- What the entry loop leaves: the entries of `l` over those of G. -/
def withEntries (F : SymTable (BitVec 64)) (l : List Byte) (G : SymTable (BitVec 64)) : SymTable (BitVec 64) :=
  l.foldl (fun G s => symSet G s (symAt F s)) G

theorem symAt_withEntries (F G : SymTable (BitVec 64)) (l : List Byte) (x : Byte) :
    symAt (withEntries F l G) x = if x ∈ l then symAt F x else symAt G x := by
  induction l generalizing G with
  | nil => simp [withEntries]
  | cons s l ih =>
    have : withEntries F (s :: l) G = withEntries F l (symSet G s (symAt F s)) := rfl
    rw [this, ih, symAt_symSet]
    by_cases h1 : x ∈ l
    · simp [h1]
    · by_cases h2 : x = s
      · subst h2; simp [h1]
      · simp [h1, h2]

theorem parseEntries_entryBytes (F : SymTable (BitVec 64)) (stream rest : List Byte) (l : List Byte)
    (k : Nat) (prev : Option Byte) (G : SymTable (BitVec 64)) (sum : Nat)
    (hs : stream.drop (11 + 9 * k) = entryBytes F l ++ rest)
    (hsort : l.Pairwise fun a b => a.toNat < b.toNat)
    (hprev : ∀ q, prev = some q → ∀ s ∈ l, q.toNat < s.toNat)
    (hnz : ∀ s ∈ l, symAt F s ≠ 0#64) :
    parseEntries stream l.length k prev G sum =
      .ok (withEntries F l G, sum + (l.map fun s => (symAt F s).toNat).sum) := by
  induction l generalizing k prev G sum with
  | nil => simp [parseEntries, withEntries]
  | cons s l ih =>
    have hlt : (symAt F s).toNat < 2 ^ 64 := (symAt F s).isLt
    have hs' : stream.drop (11 + 9 * k) = s :: (toBe 8 (symAt F s).toNat ++ (entryBytes F l ++ rest)) := by
      rw [hs]; simp [entryBytes]
    have hb : streamByte stream (11 + 9 * k) = s := by
      have := congrArg (fun x : List Byte => x[0]?) hs'
      simp only [List.getElem?_drop, Nat.add_zero, List.getElem?_cons_zero] at this
      simp [streamByte, List.getD_eq_getElem?_getD, this]
    have hd1 : stream.drop (12 + 9 * k) = toBe 8 (symAt F s).toNat ++ (entryBytes F l ++ rest) := by
      have := congrArg (List.drop 1) hs'
      rw [List.drop_drop] at this
      simpa [show 11 + 9 * k + 1 = 12 + 9 * k by omega] using this
    have hn : streamNumber stream (12 + 9 * k) 8 = (symAt F s).toNat := by
      rw [streamNumber, hd1, List.take_append_of_le_length (by simp), List.take_of_length_le (by simp)]
      exact ofBe_toBe _ _ (by simpa using hlt)
    have hd9 : stream.drop (11 + 9 * (k + 1)) = entryBytes F l ++ rest := by
      have := congrArg (List.drop 8) hd1
      rw [List.drop_drop] at this
      rw [show 11 + 9 * (k + 1) = 12 + 9 * k + 8 by omega, this]
      rw [List.drop_append_of_le_length (by simp), List.drop_of_length_le (by simp), List.nil_append]
    have hord : prev.any (fun q => decide (s.toNat ≤ q.toNat)) = false := by
      cases prev with
      | none => rfl
      | some q => simpa using hprev q rfl s (by simp)
    have hne : (symAt F s).toNat ≠ 0 := fun e => hnz s (by simp) (BitVec.eq_of_toNat_eq e)
    rw [List.pairwise_cons] at hsort
    simp only [List.length_cons, parseEntries, hb, hn, hord, hne, if_false, Bool.false_eq_true,
      BitVec.ofNat_toNat, BitVec.setWidth_eq]
    rw [ih (k + 1) (some s) _ _ hd9 hsort.2 (by
        intro q hq x hx
        simp only [Option.some.injEq] at hq
        subst hq
        exact hsort.1 x hx) fun x hx => hnz x (by simp [hx])]
    simp only [withEntries, List.foldl_cons, List.map_cons, List.sum_cons]
    congr 2
    omega

theorem withEntries_present (F : SymTable (BitVec 64)) :
    withEntries F (present F) (symTable fun _ => 0#64) = F := by
  apply symTable_ext
  intro x
  rw [symAt_withEntries, symAt_symTable]
  by_cases h : symAt F x = 0#64
  · simp [h]
  · simp [h]

/-- Parsing a serialized header gives back what was serialized (R313, R322). -/
theorem parseHeader_serializeHeader (F : SymTable (BitVec 64)) (p : Nat) (rest : List Byte)
    (hsum : tableSum F < 2 ^ 64) (hp : p ≤ 7) (hrest : rest = [] → p = 0) :
    parseHeader (serializeHeader F (tableSum F) p ++ rest) =
      .ok { freq := F, total := tableSum F, count := presentCount F, padding := p,
            length := headerLength (presentCount F) } := by
  have hn := presentCount_le F
  have hlen := length_serializeHeader F (tableSum F) p
  have hH : headerLength (presentCount F) = 11 + 9 * presentCount F := rfl
  have h0 : streamByte (serializeHeader F (tableSum F) p ++ rest) 0 = BitVec.ofNat 8 p := by
    simp [streamByte, serializeHeader_eq]
  have hp' : (BitVec.ofNat 8 p).toNat = p := by
    simp only [BitVec.toNat_ofNat]; omega
  have h1 : streamNumber (serializeHeader F (tableSum F) p ++ rest) 1 8 = tableSum F := by
    rw [streamNumber, serializeHeader_eq]
    simp only [List.cons_append, List.append_assoc, List.drop_succ_cons, List.drop_zero]
    rw [List.take_append_of_le_length (by simp), List.take_of_length_le (by simp)]
    exact ofBe_toBe _ _ (by simpa using hsum)
  have h9 : streamNumber (serializeHeader F (tableSum F) p ++ rest) 9 2 = presentCount F := by
    rw [streamNumber, serializeHeader_eq]
    simp only [List.cons_append, List.append_assoc, List.drop_succ_cons]
    rw [List.drop_append_of_le_length (by simp), List.drop_of_length_le (by simp), List.nil_append,
      List.take_append_of_le_length (by simp), List.take_of_length_le (by simp)]
    exact ofBe_toBe _ _ (by omega)
  have hent : parseEntries (serializeHeader F (tableSum F) p ++ rest) (presentCount F) 0 none
      (symTable fun _ => 0#64) 0 = .ok (F, tableSum F) := by
    have := parseEntries_entryBytes F (serializeHeader F (tableSum F) p ++ rest) rest (present F) 0 none
      (symTable fun _ => 0#64) 0
      (by
        rw [serializeHeader_eq]
        simp only [List.cons_append, List.append_assoc, Nat.mul_zero, Nat.add_zero, List.drop_succ_cons]
        rw [← List.append_assoc, List.drop_append_of_le_length (by simp), List.drop_of_length_le (by simp),
          List.nil_append])
      (pairwise_present F) (by simp) (fun s hs => (mem_present F s).mp hs)
    rw [withEntries_present, Nat.zero_add, ← tableSum_eq_present] at this
    exact this
  have hl1 : ¬ (serializeHeader F (tableSum F) p ++ rest).length < 11 := by
    rw [List.length_append, hlen, hH]; omega
  have hl2 : ¬ (serializeHeader F (tableSum F) p ++ rest).length < headerLength (presentCount F) := by
    rw [List.length_append, hlen]; omega
  have hl3 : ¬ ((serializeHeader F (tableSum F) p ++ rest).length = headerLength (presentCount F) ∧ p ≠ 0) := by
    rintro ⟨h, hne⟩
    rw [List.length_append, hlen] at h
    exact hne (hrest (List.length_eq_zero_iff.mp (by omega)))
  unfold parseHeader
  rw [if_neg hl1]
  simp only [h0, hp', h1, h9, hent]
  rw [if_neg (by omega), if_neg (by omega), if_neg hl2, if_neg (by simp), if_neg hl3]

/-! ### Serializing what was parsed -/

theorem eq_present_of_sorted {F : SymTable (BitVec 64)} {l : List Byte}
    (hs : l.Pairwise fun a b => a.toNat < b.toNat) (hm : ∀ x, x ∈ l ↔ symAt F x ≠ 0#64) : l = present F := by
  have hnd : l.Nodup := hs.imp fun {a b} h => by rintro rfl; omega
  have hperm : l.Perm (present F) :=
    (List.perm_ext_iff_of_nodup hnd (nodup_present F)).mpr fun x => by rw [hm, mem_present]
  refine List.Perm.eq_of_pairwise (le := fun a b : Byte => a.toNat < b.toNat) ?_ hs (pairwise_present F) hperm
  intro a b _ _ h1 h2
  omega

theorem parseEntries_ok (stream : List Byte) (left k : Nat) (prev : Option Byte) (G F : SymTable (BitVec 64))
    (sum S : Nat) (hlen : 11 + 9 * (k + left) ≤ stream.length)
    (h : parseEntries stream left k prev G sum = .ok (F, S)) :
    ∃ l : List Byte, l.length = left ∧ l.Pairwise (fun a b => a.toNat < b.toNat) ∧
      (∀ q, prev = some q → ∀ s ∈ l, q.toNat < s.toNat) ∧ (∀ s ∈ l, symAt F s ≠ 0#64) ∧
      (∀ x, x ∉ l → symAt F x = symAt G x) ∧ S = sum + (l.map fun s => (symAt F s).toNat).sum ∧
      (stream.drop (11 + 9 * k)).take (9 * left) = entryBytes F l := by
  induction left generalizing k prev G sum with
  | zero =>
    simp only [parseEntries, Except.ok.injEq, Prod.mk.injEq] at h
    obtain ⟨rfl, rfl⟩ := h
    exact ⟨[], by simp [entryBytes]⟩
  | succ left ih =>
    simp only [parseEntries] at h
    split at h
    · simp at h
    · rename_i hord
      split at h
      · simp at h
      · rename_i hne
        obtain ⟨l, hl, hsort, hprev, hnz, hout, hS, hbytes⟩ := ih (k + 1) (some _) _ _ (by omega) h
        generalize hs : streamByte stream (11 + 9 * k) = s at *
        have hsl : s ∉ l := fun hm => by have := hprev s rfl s hm; omega
        have hfs : symAt F s = BitVec.ofNat 64 (streamNumber stream (12 + 9 * k) 8) := by
          rw [hout s hsl, symAt_symSet, if_pos rfl]
        have h8 : ((stream.drop (12 + 9 * k)).take 8).length = 8 := by simp; omega
        have hlt : streamNumber stream (12 + 9 * k) 8 < 2 ^ 64 := by
          have := ofBe_lt ((stream.drop (12 + 9 * k)).take 8)
          rw [h8] at this
          simpa [streamNumber] using this
        have hfn : (symAt F s).toNat = streamNumber stream (12 + 9 * k) 8 := by
          rw [hfs, BitVec.toNat_ofNat]
          exact Nat.mod_eq_of_lt hlt
        refine ⟨s :: l, by simp [hl], ?_, ?_, ?_, ?_, ?_, ?_⟩
        · exact List.pairwise_cons.mpr ⟨hprev s rfl, hsort⟩
        · intro q hq x hx
          subst hq
          have hqs : q.toNat < s.toNat := by simpa using hord
          rcases List.mem_cons.mp hx with rfl | hx
          · exact hqs
          · exact lt_trans hqs (hprev s rfl x hx)
        · intro x hx
          rcases List.mem_cons.mp hx with rfl | hx
          · intro e0
            rw [e0] at hfn
            exact hne (by simpa using hfn.symm)
          · exact hnz x hx
        · intro x hx
          simp only [List.mem_cons, not_or] at hx
          rw [hout x hx.2, symAt_symSet, if_neg hx.1]
        · rw [hS, List.map_cons, List.sum_cons, hfn]; omega
        · have hget : stream.drop (11 + 9 * k) = s :: stream.drop (12 + 9 * k) := by
            rw [List.drop_eq_getElem_cons (by omega)]
            congr 1
            · rw [← hs]; simp [streamByte, List.getD_eq_getElem?_getD, show 11 + 9 * k < stream.length by omega]
            · congr 1; omega
          rw [hget, show 9 * (left + 1) = (8 + 9 * left) + 1 by omega, List.take_succ_cons, List.take_add,
            List.drop_drop, show 12 + 9 * k + 8 = 11 + 9 * (k + 1) by omega, hbytes]
          have : (stream.drop (12 + 9 * k)).take 8 = toBe 8 (symAt F s).toNat := by
            have := toBe_ofBe ((stream.drop (12 + 9 * k)).take 8)
            rw [h8] at this
            rw [hfn, streamNumber, this]
          rw [this]
          simp [entryBytes]

/-- What a successful parse says of the stream: it is the serialized header of the table, then the payload; the sum
is the total, the count the number of present symbols (R322). -/
theorem parseHeader_ok {stream : List Byte} {h : Header} (hp : parseHeader stream = .ok h) :
    h.total = tableSum h.freq ∧ h.total < 2 ^ 64 ∧ h.count = presentCount h.freq ∧ h.padding ≤ 7 ∧
      h.length = headerLength h.count ∧ h.length ≤ stream.length ∧ (stream.length = h.length → h.padding = 0) ∧
      stream.take h.length = serializeHeader h.freq h.total h.padding := by
  unfold parseHeader at hp
  split at hp
  · simp at hp
  rename_i hl11
  simp only at hp
  split at hp
  · simp at hp
  rename_i hpad
  split at hp
  · simp at hp
  rename_i hcount
  split at hp
  · simp at hp
  rename_i hlH
  split at hp
  · simp at hp
  rename_i F sum hent
  split at hp
  · simp at hp
  rename_i hsum
  split at hp
  · simp at hp
  rename_i hempty
  simp only [Except.ok.injEq] at hp
  subst hp
  simp only
  have hsum' : sum = streamNumber stream 1 8 := by simpa using hsum
  simp only [headerLength] at hlH
  obtain ⟨l, hl, hsort, _, hnz, hout, hS, hbytes⟩ :=
    parseEntries_ok stream (streamNumber stream 9 2) 0 none (symTable fun _ => 0#64) F 0 sum (by omega) hent
  have hpres : l = present F := by
    refine eq_present_of_sorted hsort fun x => ⟨hnz x, fun hx => ?_⟩
    by_contra hxl
    exact hx (by rw [hout x hxl, symAt_symTable])
  have hpc : streamNumber stream 9 2 = presentCount F := by rw [← hl, hpres]; rfl
  have h8 : ((stream.drop 1).take 8).length = 8 := by simp; omega
  have h2 : ((stream.drop 9).take 2).length = 2 := by simp; omega
  have hN : streamNumber stream 1 8 < 2 ^ 64 := by
    have := ofBe_lt ((stream.drop 1).take 8)
    rw [h8] at this
    simpa [streamNumber] using this
  refine ⟨?_, hN, hpc, by omega, by trivial, by simp only [headerLength]; omega, ?_, ?_⟩
  · rw [tableSum_eq_present, ← hpres, ← hsum', hS]; omega
  · intro e
    by_contra hne
    exact hempty ⟨e, hne⟩
  · rw [serializeHeader_eq, ← hpc, headerLength, ← hpres]
    have e0 : stream = streamByte stream 0 :: stream.drop 1 := by
      have := List.drop_eq_getElem_cons (l := stream) (i := 0) (by omega)
      rw [List.drop_zero] at this
      conv_lhs => rw [this]
      congr 1
      simp [streamByte, List.getD_eq_getElem?_getD, show 0 < stream.length by omega]
    have e1 : (stream.drop 1).take 8 = toBe 8 (streamNumber stream 1 8) := by
      have := toBe_ofBe ((stream.drop 1).take 8)
      rw [h8] at this
      rw [streamNumber, this]
    have e2 : (stream.drop 9).take 2 = toBe 2 (streamNumber stream 9 2) := by
      have := toBe_ofBe ((stream.drop 9).take 2)
      rw [h2] at this
      rw [streamNumber, this]
    have et : stream.take (11 + 9 * streamNumber stream 9 2) =
        streamByte stream 0 :: ((stream.drop 1).take 8 ++ ((stream.drop 9).take 2 ++
          (stream.drop 11).take (9 * streamNumber stream 9 2))) := by
      generalize 9 * streamNumber stream 9 2 = m
      conv_lhs => rw [e0]
      rw [show 11 + m = (8 + (2 + m)) + 1 by omega,
        List.take_succ_cons, List.take_add, List.take_add, List.drop_drop, List.drop_drop]
    rw [Nat.mul_zero, Nat.add_zero] at hbytes
    rw [et, e1, e2, hbytes, BitVec.ofNat_toNat, BitVec.setWidth_eq]

/-! ### Sizes -/

/-- Counting an input and weighing by code length is the length of its code string (R314). -/
theorem codedBits_addCounts (input : List Byte) (len : SymTable (BitVec 8)) (h : input.length < 2 ^ 64) :
    codedBits (addCounts (symTable fun _ => 0#64) input) len = inputBits len input := by
  have h0 : tableSum (symTable fun _ => 0#64) + input.length < 2 ^ 64 := by simpa using h
  rw [codedBits_eq]
  unfold inputBits
  rw [← sum_symbols_count input fun s => (symAt len s).toNat]
  refine sum_map_congr _ _ _ fun s _ => ?_
  rw [symAt_addCounts _ _ _ h0]
  simp

theorem codedBits_le (F : SymTable (BitVec 64)) (len : SymTable (BitVec 8)) : codedBits F len ≤ 255 * tableSum F := by
  rw [codedBits_eq, tableSum_eq]
  rw [← List.sum_map_mul_left]
  refine sum_map_le _ _ _ fun s _ => ?_
  have : (symAt len s).toNat < 256 := (symAt len s).isLt
  calc (symAt F s).toNat * (symAt len s).toNat ≤ (symAt F s).toNat * 255 := Nat.mul_le_mul_left _ (by omega)
    _ = 255 * (symAt F s).toNat := Nat.mul_comm _ _

theorem toNat_totalBits (F : SymTable (BitVec 64)) (len : SymTable (BitVec 8)) (h : tableSum F < 2 ^ 64) :
    (BitVec.ofNat 72 (codedBits F len)).toNat = codedBits F len := by
  have := codedBits_le F len
  rw [BitVec.toNat_ofNat]
  exact Nat.mod_eq_of_lt (by omega)

end Sys2Proof.Machine
end

