-- ==== Sys2Proof/Laws/State.lean ====
section
/-! SUPPORT. One lemma per field for each named update of State, so that no proof unfolds a record update. -/

namespace Sys2Proof.Machine

/-! ### accept -/

@[simp] theorem accept_bufBytes (w : Word) (s : State) : (accept w s).bufBytes = s.bufBytes := rfl
@[simp] theorem accept_doneIE (w : Word) (s : State) : (accept w s).doneIE = s.doneIE := rfl
@[simp] theorem accept_errIE (w : Word) (s : State) : (accept w s).errIE = s.errIE := rfl
@[simp] theorem accept_busy (w : Word) (s : State) : (accept w s).busy = true := rfl
@[simp] theorem accept_done (w : Word) (s : State) : (accept w s).done = false := rfl
@[simp] theorem accept_err (w : Word) (s : State) : (accept w s).err = s.err := rfl
@[simp] theorem accept_ovr (w : Word) (s : State) : (accept w s).ovr = s.ovr := rfl
@[simp] theorem accept_freqValid (w : Word) (s : State) : (accept w s).freqValid = s.freqValid := rfl
@[simp] theorem accept_treeValid (w : Word) (s : State) : (accept w s).treeValid = s.treeValid := rfl
@[simp] theorem accept_codesValid (w : Word) (s : State) : (accept w s).codesValid = s.codesValid := rfl
@[simp] theorem accept_cmdLast (w : Word) (s : State) : (accept w s).cmdLast = w := rfl
@[simp] theorem accept_errCause (w : Word) (s : State) : (accept w s).errCause = s.errCause := rfl
@[simp] theorem accept_errInfo (w : Word) (s : State) : (accept w s).errInfo = s.errInfo := rfl
@[simp] theorem accept_srcBase (w : Word) (s : State) : (accept w s).srcBase = s.srcBase := rfl
@[simp] theorem accept_srcLen (w : Word) (s : State) : (accept w s).srcLen = s.srcLen := rfl
@[simp] theorem accept_dstBase (w : Word) (s : State) : (accept w s).dstBase = s.dstBase := rfl
@[simp] theorem accept_dstCap (w : Word) (s : State) : (accept w s).dstCap = s.dstCap := rfl
@[simp] theorem accept_dstLen (w : Word) (s : State) : (accept w s).dstLen = s.dstLen := rfl
@[simp] theorem accept_hdrLen (w : Word) (s : State) : (accept w s).hdrLen = s.hdrLen := rfl
@[simp] theorem accept_padding (w : Word) (s : State) : (accept w s).padding = s.padding := rfl
@[simp] theorem accept_nsym (w : Word) (s : State) : (accept w s).nsym = s.nsym := rfl
@[simp] theorem accept_total (w : Word) (s : State) : (accept w s).total = s.total := rfl
@[simp] theorem accept_totalBits (w : Word) (s : State) : (accept w s).totalBits = s.totalBits := rfl
@[simp] theorem accept_root (w : Word) (s : State) : (accept w s).root = s.root := rfl
@[simp] theorem accept_nodes (w : Word) (s : State) : (accept w s).nodes = s.nodes := rfl
@[simp] theorem accept_freq (w : Word) (s : State) : (accept w s).freq = s.freq := rfl
@[simp] theorem accept_node (w : Word) (s : State) : (accept w s).node = s.node := rfl
@[simp] theorem accept_codeLen (w : Word) (s : State) : (accept w s).codeLen = s.codeLen := rfl
@[simp] theorem accept_codeBits (w : Word) (s : State) : (accept w s).codeBits = s.codeBits := rfl
@[simp] theorem accept_buf (w : Word) (s : State) : (accept w s).buf = s.buf := rfl
@[simp] theorem accept_inputs (w : Word) (s : State) : (accept w s).inputs = s.inputs := rfl
@[simp] theorem accept_response (w : Word) (s : State) : (accept w s).response = s.response := rfl
@[simp] theorem accept_draws (w : Word) (s : State) : (accept w s).draws = s.draws := rfl

/-! ### dropWrite -/

@[simp] theorem dropWrite_bufBytes (s : State) : (dropWrite s).bufBytes = s.bufBytes := rfl
@[simp] theorem dropWrite_doneIE (s : State) : (dropWrite s).doneIE = s.doneIE := rfl
@[simp] theorem dropWrite_errIE (s : State) : (dropWrite s).errIE = s.errIE := rfl
@[simp] theorem dropWrite_busy (s : State) : (dropWrite s).busy = s.busy := rfl
@[simp] theorem dropWrite_done (s : State) : (dropWrite s).done = s.done := rfl
@[simp] theorem dropWrite_err (s : State) : (dropWrite s).err = s.err := rfl
@[simp] theorem dropWrite_ovr (s : State) : (dropWrite s).ovr = true := rfl
@[simp] theorem dropWrite_freqValid (s : State) : (dropWrite s).freqValid = s.freqValid := rfl
@[simp] theorem dropWrite_treeValid (s : State) : (dropWrite s).treeValid = s.treeValid := rfl
@[simp] theorem dropWrite_codesValid (s : State) : (dropWrite s).codesValid = s.codesValid := rfl
@[simp] theorem dropWrite_cmdLast (s : State) : (dropWrite s).cmdLast = s.cmdLast := rfl
@[simp] theorem dropWrite_errCause (s : State) : (dropWrite s).errCause = s.errCause := rfl
@[simp] theorem dropWrite_errInfo (s : State) : (dropWrite s).errInfo = s.errInfo := rfl
@[simp] theorem dropWrite_srcBase (s : State) : (dropWrite s).srcBase = s.srcBase := rfl
@[simp] theorem dropWrite_srcLen (s : State) : (dropWrite s).srcLen = s.srcLen := rfl
@[simp] theorem dropWrite_dstBase (s : State) : (dropWrite s).dstBase = s.dstBase := rfl
@[simp] theorem dropWrite_dstCap (s : State) : (dropWrite s).dstCap = s.dstCap := rfl
@[simp] theorem dropWrite_dstLen (s : State) : (dropWrite s).dstLen = s.dstLen := rfl
@[simp] theorem dropWrite_hdrLen (s : State) : (dropWrite s).hdrLen = s.hdrLen := rfl
@[simp] theorem dropWrite_padding (s : State) : (dropWrite s).padding = s.padding := rfl
@[simp] theorem dropWrite_nsym (s : State) : (dropWrite s).nsym = s.nsym := rfl
@[simp] theorem dropWrite_total (s : State) : (dropWrite s).total = s.total := rfl
@[simp] theorem dropWrite_totalBits (s : State) : (dropWrite s).totalBits = s.totalBits := rfl
@[simp] theorem dropWrite_root (s : State) : (dropWrite s).root = s.root := rfl
@[simp] theorem dropWrite_nodes (s : State) : (dropWrite s).nodes = s.nodes := rfl
@[simp] theorem dropWrite_freq (s : State) : (dropWrite s).freq = s.freq := rfl
@[simp] theorem dropWrite_node (s : State) : (dropWrite s).node = s.node := rfl
@[simp] theorem dropWrite_codeLen (s : State) : (dropWrite s).codeLen = s.codeLen := rfl
@[simp] theorem dropWrite_codeBits (s : State) : (dropWrite s).codeBits = s.codeBits := rfl
@[simp] theorem dropWrite_buf (s : State) : (dropWrite s).buf = s.buf := rfl
@[simp] theorem dropWrite_inputs (s : State) : (dropWrite s).inputs = s.inputs := rfl
@[simp] theorem dropWrite_response (s : State) : (dropWrite s).response = s.response := rfl
@[simp] theorem dropWrite_draws (s : State) : (dropWrite s).draws = s.draws := rfl

/-! ### installTable -/

@[simp] theorem installTable_bufBytes (F : SymTable (BitVec 64)) (N n : Nat) (s : State) :
    (installTable F N n s).bufBytes = s.bufBytes := rfl
@[simp] theorem installTable_doneIE (F : SymTable (BitVec 64)) (N n : Nat) (s : State) :
    (installTable F N n s).doneIE = s.doneIE := rfl
@[simp] theorem installTable_errIE (F : SymTable (BitVec 64)) (N n : Nat) (s : State) :
    (installTable F N n s).errIE = s.errIE := rfl
@[simp] theorem installTable_busy (F : SymTable (BitVec 64)) (N n : Nat) (s : State) :
    (installTable F N n s).busy = s.busy := rfl
@[simp] theorem installTable_done (F : SymTable (BitVec 64)) (N n : Nat) (s : State) :
    (installTable F N n s).done = s.done := rfl
@[simp] theorem installTable_err (F : SymTable (BitVec 64)) (N n : Nat) (s : State) :
    (installTable F N n s).err = s.err := rfl
@[simp] theorem installTable_ovr (F : SymTable (BitVec 64)) (N n : Nat) (s : State) :
    (installTable F N n s).ovr = s.ovr := rfl
@[simp] theorem installTable_freqValid (F : SymTable (BitVec 64)) (N n : Nat) (s : State) :
    (installTable F N n s).freqValid = s.freqValid := rfl
@[simp] theorem installTable_treeValid (F : SymTable (BitVec 64)) (N n : Nat) (s : State) :
    (installTable F N n s).treeValid = s.treeValid := rfl
@[simp] theorem installTable_codesValid (F : SymTable (BitVec 64)) (N n : Nat) (s : State) :
    (installTable F N n s).codesValid = s.codesValid := rfl
@[simp] theorem installTable_cmdLast (F : SymTable (BitVec 64)) (N n : Nat) (s : State) :
    (installTable F N n s).cmdLast = s.cmdLast := rfl
@[simp] theorem installTable_errCause (F : SymTable (BitVec 64)) (N n : Nat) (s : State) :
    (installTable F N n s).errCause = s.errCause := rfl
@[simp] theorem installTable_errInfo (F : SymTable (BitVec 64)) (N n : Nat) (s : State) :
    (installTable F N n s).errInfo = s.errInfo := rfl
@[simp] theorem installTable_srcBase (F : SymTable (BitVec 64)) (N n : Nat) (s : State) :
    (installTable F N n s).srcBase = s.srcBase := rfl
@[simp] theorem installTable_srcLen (F : SymTable (BitVec 64)) (N n : Nat) (s : State) :
    (installTable F N n s).srcLen = s.srcLen := rfl
@[simp] theorem installTable_dstBase (F : SymTable (BitVec 64)) (N n : Nat) (s : State) :
    (installTable F N n s).dstBase = s.dstBase := rfl
@[simp] theorem installTable_dstCap (F : SymTable (BitVec 64)) (N n : Nat) (s : State) :
    (installTable F N n s).dstCap = s.dstCap := rfl
@[simp] theorem installTable_dstLen (F : SymTable (BitVec 64)) (N n : Nat) (s : State) :
    (installTable F N n s).dstLen = s.dstLen := rfl
@[simp] theorem installTable_hdrLen (F : SymTable (BitVec 64)) (N n : Nat) (s : State) :
    (installTable F N n s).hdrLen = s.hdrLen := rfl
@[simp] theorem installTable_padding (F : SymTable (BitVec 64)) (N n : Nat) (s : State) :
    (installTable F N n s).padding = s.padding := rfl
@[simp] theorem installTable_nsym (F : SymTable (BitVec 64)) (N n : Nat) (s : State) :
    (installTable F N n s).nsym = BitVec.ofNat 9 n := rfl
@[simp] theorem installTable_total (F : SymTable (BitVec 64)) (N n : Nat) (s : State) :
    (installTable F N n s).total = BitVec.ofNat 64 N := rfl
@[simp] theorem installTable_totalBits (F : SymTable (BitVec 64)) (N n : Nat) (s : State) :
    (installTable F N n s).totalBits = s.totalBits := rfl
@[simp] theorem installTable_root (F : SymTable (BitVec 64)) (N n : Nat) (s : State) :
    (installTable F N n s).root = s.root := rfl
@[simp] theorem installTable_nodes (F : SymTable (BitVec 64)) (N n : Nat) (s : State) :
    (installTable F N n s).nodes = s.nodes := rfl
@[simp] theorem installTable_freq (F : SymTable (BitVec 64)) (N n : Nat) (s : State) :
    (installTable F N n s).freq = F := rfl
@[simp] theorem installTable_node (F : SymTable (BitVec 64)) (N n : Nat) (s : State) :
    (installTable F N n s).node = s.node := rfl
@[simp] theorem installTable_codeLen (F : SymTable (BitVec 64)) (N n : Nat) (s : State) :
    (installTable F N n s).codeLen = s.codeLen := rfl
@[simp] theorem installTable_codeBits (F : SymTable (BitVec 64)) (N n : Nat) (s : State) :
    (installTable F N n s).codeBits = s.codeBits := rfl
@[simp] theorem installTable_buf (F : SymTable (BitVec 64)) (N n : Nat) (s : State) :
    (installTable F N n s).buf = s.buf := rfl
@[simp] theorem installTable_inputs (F : SymTable (BitVec 64)) (N n : Nat) (s : State) :
    (installTable F N n s).inputs = s.inputs := rfl
@[simp] theorem installTable_response (F : SymTable (BitVec 64)) (N n : Nat) (s : State) :
    (installTable F N n s).response = s.response := rfl
@[simp] theorem installTable_draws (F : SymTable (BitVec 64)) (N n : Nat) (s : State) :
    (installTable F N n s).draws = s.draws := rfl

/-! ### installTree -/

@[simp] theorem installTree_bufBytes (t : Tree) (s : State) : (installTree t s).bufBytes = s.bufBytes := rfl
@[simp] theorem installTree_doneIE (t : Tree) (s : State) : (installTree t s).doneIE = s.doneIE := rfl
@[simp] theorem installTree_errIE (t : Tree) (s : State) : (installTree t s).errIE = s.errIE := rfl
@[simp] theorem installTree_busy (t : Tree) (s : State) : (installTree t s).busy = s.busy := rfl
@[simp] theorem installTree_done (t : Tree) (s : State) : (installTree t s).done = s.done := rfl
@[simp] theorem installTree_err (t : Tree) (s : State) : (installTree t s).err = s.err := rfl
@[simp] theorem installTree_ovr (t : Tree) (s : State) : (installTree t s).ovr = s.ovr := rfl
@[simp] theorem installTree_freqValid (t : Tree) (s : State) : (installTree t s).freqValid = s.freqValid := rfl
@[simp] theorem installTree_treeValid (t : Tree) (s : State) : (installTree t s).treeValid = s.treeValid := rfl
@[simp] theorem installTree_codesValid (t : Tree) (s : State) : (installTree t s).codesValid = s.codesValid := rfl
@[simp] theorem installTree_cmdLast (t : Tree) (s : State) : (installTree t s).cmdLast = s.cmdLast := rfl
@[simp] theorem installTree_errCause (t : Tree) (s : State) : (installTree t s).errCause = s.errCause := rfl
@[simp] theorem installTree_errInfo (t : Tree) (s : State) : (installTree t s).errInfo = s.errInfo := rfl
@[simp] theorem installTree_srcBase (t : Tree) (s : State) : (installTree t s).srcBase = s.srcBase := rfl
@[simp] theorem installTree_srcLen (t : Tree) (s : State) : (installTree t s).srcLen = s.srcLen := rfl
@[simp] theorem installTree_dstBase (t : Tree) (s : State) : (installTree t s).dstBase = s.dstBase := rfl
@[simp] theorem installTree_dstCap (t : Tree) (s : State) : (installTree t s).dstCap = s.dstCap := rfl
@[simp] theorem installTree_dstLen (t : Tree) (s : State) : (installTree t s).dstLen = s.dstLen := rfl
@[simp] theorem installTree_hdrLen (t : Tree) (s : State) : (installTree t s).hdrLen = s.hdrLen := rfl
@[simp] theorem installTree_padding (t : Tree) (s : State) : (installTree t s).padding = s.padding := rfl
@[simp] theorem installTree_nsym (t : Tree) (s : State) : (installTree t s).nsym = s.nsym := rfl
@[simp] theorem installTree_total (t : Tree) (s : State) : (installTree t s).total = s.total := rfl
@[simp] theorem installTree_totalBits (t : Tree) (s : State) : (installTree t s).totalBits = s.totalBits := rfl
@[simp] theorem installTree_root (t : Tree) (s : State) : (installTree t s).root = t.root := rfl
@[simp] theorem installTree_nodes (t : Tree) (s : State) :
    (installTree t s).nodes = BitVec.ofNat 10 t.nodes.length := rfl
@[simp] theorem installTree_freq (t : Tree) (s : State) : (installTree t s).freq = s.freq := rfl
@[simp] theorem installTree_node (t : Tree) (s : State) : (installTree t s).node = fillPool s.draws t.nodes := rfl
@[simp] theorem installTree_codeLen (t : Tree) (s : State) : (installTree t s).codeLen = s.codeLen := rfl
@[simp] theorem installTree_codeBits (t : Tree) (s : State) : (installTree t s).codeBits = s.codeBits := rfl
@[simp] theorem installTree_buf (t : Tree) (s : State) : (installTree t s).buf = s.buf := rfl
@[simp] theorem installTree_inputs (t : Tree) (s : State) : (installTree t s).inputs = s.inputs := rfl
@[simp] theorem installTree_response (t : Tree) (s : State) : (installTree t s).response = s.response := rfl
@[simp] theorem installTree_draws (t : Tree) (s : State) : (installTree t s).draws = s.draws + 1 := rfl

/-! ### installCodes -/

@[simp] theorem installCodes_bufBytes (F : SymTable (BitVec 64)) (c : CodeBook) (s : State) :
    (installCodes F c s).bufBytes = s.bufBytes := rfl
@[simp] theorem installCodes_doneIE (F : SymTable (BitVec 64)) (c : CodeBook) (s : State) :
    (installCodes F c s).doneIE = s.doneIE := rfl
@[simp] theorem installCodes_errIE (F : SymTable (BitVec 64)) (c : CodeBook) (s : State) :
    (installCodes F c s).errIE = s.errIE := rfl
@[simp] theorem installCodes_busy (F : SymTable (BitVec 64)) (c : CodeBook) (s : State) :
    (installCodes F c s).busy = s.busy := rfl
@[simp] theorem installCodes_done (F : SymTable (BitVec 64)) (c : CodeBook) (s : State) :
    (installCodes F c s).done = s.done := rfl
@[simp] theorem installCodes_err (F : SymTable (BitVec 64)) (c : CodeBook) (s : State) :
    (installCodes F c s).err = s.err := rfl
@[simp] theorem installCodes_ovr (F : SymTable (BitVec 64)) (c : CodeBook) (s : State) :
    (installCodes F c s).ovr = s.ovr := rfl
@[simp] theorem installCodes_freqValid (F : SymTable (BitVec 64)) (c : CodeBook) (s : State) :
    (installCodes F c s).freqValid = s.freqValid := rfl
@[simp] theorem installCodes_treeValid (F : SymTable (BitVec 64)) (c : CodeBook) (s : State) :
    (installCodes F c s).treeValid = s.treeValid := rfl
@[simp] theorem installCodes_codesValid (F : SymTable (BitVec 64)) (c : CodeBook) (s : State) :
    (installCodes F c s).codesValid = s.codesValid := rfl
@[simp] theorem installCodes_cmdLast (F : SymTable (BitVec 64)) (c : CodeBook) (s : State) :
    (installCodes F c s).cmdLast = s.cmdLast := rfl
@[simp] theorem installCodes_errCause (F : SymTable (BitVec 64)) (c : CodeBook) (s : State) :
    (installCodes F c s).errCause = s.errCause := rfl
@[simp] theorem installCodes_errInfo (F : SymTable (BitVec 64)) (c : CodeBook) (s : State) :
    (installCodes F c s).errInfo = s.errInfo := rfl
@[simp] theorem installCodes_srcBase (F : SymTable (BitVec 64)) (c : CodeBook) (s : State) :
    (installCodes F c s).srcBase = s.srcBase := rfl
@[simp] theorem installCodes_srcLen (F : SymTable (BitVec 64)) (c : CodeBook) (s : State) :
    (installCodes F c s).srcLen = s.srcLen := rfl
@[simp] theorem installCodes_dstBase (F : SymTable (BitVec 64)) (c : CodeBook) (s : State) :
    (installCodes F c s).dstBase = s.dstBase := rfl
@[simp] theorem installCodes_dstCap (F : SymTable (BitVec 64)) (c : CodeBook) (s : State) :
    (installCodes F c s).dstCap = s.dstCap := rfl
@[simp] theorem installCodes_dstLen (F : SymTable (BitVec 64)) (c : CodeBook) (s : State) :
    (installCodes F c s).dstLen = s.dstLen := rfl
@[simp] theorem installCodes_hdrLen (F : SymTable (BitVec 64)) (c : CodeBook) (s : State) :
    (installCodes F c s).hdrLen = s.hdrLen := rfl
@[simp] theorem installCodes_padding (F : SymTable (BitVec 64)) (c : CodeBook) (s : State) :
    (installCodes F c s).padding = s.padding := rfl
@[simp] theorem installCodes_nsym (F : SymTable (BitVec 64)) (c : CodeBook) (s : State) :
    (installCodes F c s).nsym = s.nsym := rfl
@[simp] theorem installCodes_total (F : SymTable (BitVec 64)) (c : CodeBook) (s : State) :
    (installCodes F c s).total = s.total := rfl
@[simp] theorem installCodes_totalBits (F : SymTable (BitVec 64)) (c : CodeBook) (s : State) :
    (installCodes F c s).totalBits = BitVec.ofNat 72 (codedBits F c.len) := rfl
@[simp] theorem installCodes_root (F : SymTable (BitVec 64)) (c : CodeBook) (s : State) :
    (installCodes F c s).root = s.root := rfl
@[simp] theorem installCodes_nodes (F : SymTable (BitVec 64)) (c : CodeBook) (s : State) :
    (installCodes F c s).nodes = s.nodes := rfl
@[simp] theorem installCodes_freq (F : SymTable (BitVec 64)) (c : CodeBook) (s : State) :
    (installCodes F c s).freq = s.freq := rfl
@[simp] theorem installCodes_node (F : SymTable (BitVec 64)) (c : CodeBook) (s : State) :
    (installCodes F c s).node = s.node := rfl
@[simp] theorem installCodes_codeLen (F : SymTable (BitVec 64)) (c : CodeBook) (s : State) :
    (installCodes F c s).codeLen = c.len := rfl
@[simp] theorem installCodes_codeBits (F : SymTable (BitVec 64)) (c : CodeBook) (s : State) :
    (installCodes F c s).codeBits = c.bits := rfl
@[simp] theorem installCodes_buf (F : SymTable (BitVec 64)) (c : CodeBook) (s : State) :
    (installCodes F c s).buf = s.buf := rfl
@[simp] theorem installCodes_inputs (F : SymTable (BitVec 64)) (c : CodeBook) (s : State) :
    (installCodes F c s).inputs = s.inputs := rfl
@[simp] theorem installCodes_response (F : SymTable (BitVec 64)) (c : CodeBook) (s : State) :
    (installCodes F c s).response = s.response := rfl
@[simp] theorem installCodes_draws (F : SymTable (BitVec 64)) (c : CodeBook) (s : State) :
    (installCodes F c s).draws = s.draws := rfl

/-! ### installHeader -/

@[simp] theorem installHeader_bufBytes (h : Header) (s : State) : (installHeader h s).bufBytes = s.bufBytes := rfl
@[simp] theorem installHeader_doneIE (h : Header) (s : State) : (installHeader h s).doneIE = s.doneIE := rfl
@[simp] theorem installHeader_errIE (h : Header) (s : State) : (installHeader h s).errIE = s.errIE := rfl
@[simp] theorem installHeader_busy (h : Header) (s : State) : (installHeader h s).busy = s.busy := rfl
@[simp] theorem installHeader_done (h : Header) (s : State) : (installHeader h s).done = s.done := rfl
@[simp] theorem installHeader_err (h : Header) (s : State) : (installHeader h s).err = s.err := rfl
@[simp] theorem installHeader_ovr (h : Header) (s : State) : (installHeader h s).ovr = s.ovr := rfl
@[simp] theorem installHeader_freqValid (h : Header) (s : State) : (installHeader h s).freqValid = s.freqValid := rfl
@[simp] theorem installHeader_treeValid (h : Header) (s : State) : (installHeader h s).treeValid = s.treeValid := rfl
@[simp] theorem installHeader_codesValid (h : Header) (s : State) :
    (installHeader h s).codesValid = s.codesValid := rfl
@[simp] theorem installHeader_cmdLast (h : Header) (s : State) : (installHeader h s).cmdLast = s.cmdLast := rfl
@[simp] theorem installHeader_errCause (h : Header) (s : State) : (installHeader h s).errCause = s.errCause := rfl
@[simp] theorem installHeader_errInfo (h : Header) (s : State) : (installHeader h s).errInfo = s.errInfo := rfl
@[simp] theorem installHeader_srcBase (h : Header) (s : State) : (installHeader h s).srcBase = s.srcBase := rfl
@[simp] theorem installHeader_srcLen (h : Header) (s : State) : (installHeader h s).srcLen = s.srcLen := rfl
@[simp] theorem installHeader_dstBase (h : Header) (s : State) : (installHeader h s).dstBase = s.dstBase := rfl
@[simp] theorem installHeader_dstCap (h : Header) (s : State) : (installHeader h s).dstCap = s.dstCap := rfl
@[simp] theorem installHeader_dstLen (h : Header) (s : State) : (installHeader h s).dstLen = s.dstLen := rfl
@[simp] theorem installHeader_hdrLen (h : Header) (s : State) :
    (installHeader h s).hdrLen = BitVec.ofNat 32 h.length := rfl
@[simp] theorem installHeader_padding (h : Header) (s : State) :
    (installHeader h s).padding = BitVec.ofNat 3 h.padding := rfl
@[simp] theorem installHeader_nsym (h : Header) (s : State) : (installHeader h s).nsym = BitVec.ofNat 9 h.count := rfl
@[simp] theorem installHeader_total (h : Header) (s : State) :
    (installHeader h s).total = BitVec.ofNat 64 h.total := rfl
@[simp] theorem installHeader_totalBits (h : Header) (s : State) : (installHeader h s).totalBits = s.totalBits := rfl
@[simp] theorem installHeader_root (h : Header) (s : State) : (installHeader h s).root = s.root := rfl
@[simp] theorem installHeader_nodes (h : Header) (s : State) : (installHeader h s).nodes = s.nodes := rfl
@[simp] theorem installHeader_freq (h : Header) (s : State) : (installHeader h s).freq = h.freq := rfl
@[simp] theorem installHeader_node (h : Header) (s : State) : (installHeader h s).node = s.node := rfl
@[simp] theorem installHeader_codeLen (h : Header) (s : State) : (installHeader h s).codeLen = s.codeLen := rfl
@[simp] theorem installHeader_codeBits (h : Header) (s : State) : (installHeader h s).codeBits = s.codeBits := rfl
@[simp] theorem installHeader_buf (h : Header) (s : State) : (installHeader h s).buf = s.buf := rfl
@[simp] theorem installHeader_inputs (h : Header) (s : State) : (installHeader h s).inputs = s.inputs := rfl
@[simp] theorem installHeader_response (h : Header) (s : State) : (installHeader h s).response = s.response := rfl
@[simp] theorem installHeader_draws (h : Header) (s : State) : (installHeader h s).draws = s.draws := rfl

end Sys2Proof.Machine
end

