-- ==== Sys2Proof/Laws/Exec.lean ====
section
/-! SUPPORT. What each shared operation and each meaning can do, said once; later proofs cite these and unfold
nothing. -/

namespace Sys2Proof.Machine

/-- The state an error completion leaves (R361, R400). -/
def raised (cause : Cause) (info : Word) (s : State) : State :=
  { s with errCause := cause, errInfo := info, err := true, busy := false, done := true }

/-- The state a successful completion leaves (R361). -/
def succeeded (s : State) : State := { s with busy := false, done := true }

theorem raise_eq (c : Cause) (k : Word) (s : State) : raise c k s = .next (raised c k s) := rfl

theorem succeed_eq (s : State) : succeed s = .next (succeeded s) := rfl

/-! ### The checks -/

@[simp] theorem firstFailure_nil : firstFailure [] = none := rfl

theorem firstFailure_cons (c : Check) (cs : List Check) :
    firstFailure (c :: cs) = if c.ok then firstFailure cs else some (c.cause, c.info) := rfl

/-- The failure reported is that of a check of the list that does not hold. -/
theorem firstFailure_mem {cs : List Check} {e : Cause × Word} (h : firstFailure cs = some e) :
    ∃ c ∈ cs, c.ok = false ∧ e = (c.cause, c.info) := by
  induction cs with
  | nil => simp at h
  | cons c cs ih =>
    rw [firstFailure_cons] at h
    split at h
    · obtain ⟨d, hd, he⟩ := ih h
      exact ⟨d, List.mem_cons_of_mem _ hd, he⟩
    · rename_i hc
      simp only [Option.some.injEq] at h
      exact ⟨c, by simp, by simpa using hc, h.symm⟩

theorem firstFailure_none {cs : List Check} : firstFailure cs = none ↔ ∀ c ∈ cs, c.ok = true := by
  induction cs with
  | nil => simp
  | cons c cs ih =>
    rw [firstFailure_cons]
    by_cases hc : c.ok <;> simp [hc, ih]

/-- A checked command ends with the first failure, or goes on. -/
theorem checked_next {cs : List Check} {s t : State} {k : Unit → Result} (h : checked cs s k = .next t) :
    (∃ e, firstFailure cs = some e ∧ t = raised e.1 e.2 s) ∨ (firstFailure cs = none ∧ k () = .next t) := by
  unfold checked at h
  cases he : firstFailure cs with
  | none => rw [he] at h; exact .inr ⟨rfl, h⟩
  | some e =>
    rw [he] at h
    exact .inl ⟨e, rfl, by simpa [raise_eq] using h.symm⟩

theorem checked_of_none {cs : List Check} (s : State) (k : Unit → Result) (h : firstFailure cs = none) :
    checked cs s k = k () := by simp [checked, h]

theorem checked_of_some {cs : List Check} (s : State) (k : Unit → Result) {e : Cause × Word}
    (h : firstFailure cs = some e) : checked cs s k = .next (raised e.1 e.2 s) := by
  simp [checked, h, raise_eq]

/-! ### The end of a walk -/

/-- UNPACK and DECODE end as the walk ends. -/
theorem finishWalk_next {w : Walk} {n : Nat} {s t : State} (h : finishWalk w n s = .next t) :
    (w.last = .done ∧ t = succeeded { s with buf := s.storeDst w.out, dstLen := BitVec.ofNat 32 n }) ∨
    ∃ c i, w.last = .failed c i ∧
      t = raised c (BitVec.ofNat 32 i) { s with buf := s.storeDst w.out, dstLen := 0#32 } := by
  unfold finishWalk at h
  cases hl : w.last with
  | done => rw [hl] at h; exact .inl ⟨rfl, by simpa [succeed_eq] using h.symm⟩
  | failed c i => rw [hl] at h; exact .inr ⟨c, i, rfl, by simpa [raise_eq] using h.symm⟩
  | stuck f => rw [hl] at h; simp at h

/-! ### The commands -/

/-- NOP succeeds, whatever the state. -/
theorem execNop_eq (s : State) : execNop s = .next (succeeded s) := rfl

/-- CLEAR succeeds, whatever the state. -/
theorem execClear_eq (s : State) :
    execClear s = .next (succeeded { s with
      freq := symTable fun _ => 0#64, total := 0#64, nsym := 0#9
      freqValid := true, treeValid := false, codesValid := false }) := rfl

/-- The state a successful COUNT leaves. -/
def counted (s : State) : State :=
  succeeded { s with
    freq := addCounts s.freq s.srcBytes
    total := BitVec.ofNat 64 (s.total.toNat + s.srcLen.toNat)
    nsym := BitVec.ofNat 9 (presentCount (addCounts s.freq s.srcBytes))
    freqValid := true, treeValid := false, codesValid := false }

theorem execCount_next {s t : State} (h : execCount s = .next t) :
    (∃ e, firstFailure (countChecks s) = some e ∧ t = raised e.1 e.2 s) ∨
    (firstFailure (countChecks s) = none ∧ t = counted s) := by
  rcases checked_next h with h | ⟨hn, h⟩
  · exact .inl h
  · exact .inr ⟨hn, (Host.Outcome.next.inj h).symm⟩

/-- The state a successful BUILD leaves. -/
def built (s : State) : State :=
  succeeded { installTree (buildTree s.freq) s with treeValid := true, codesValid := false }

theorem execBuild_next {s t : State} (h : execBuild s = .next t) :
    (s.freqValid = false ∧ t = raised .sequence 0x1#32 s) ∨ (s.freqValid = true ∧ t = built s) := by
  rcases checked_next h with ⟨e, he, rfl⟩ | ⟨hn, h⟩
  · cases hf : s.freqValid <;> simp [firstFailure_cons, sequenceCheck, hf] at he
    exact .inl ⟨rfl, by rw [← he]⟩
  · cases hf : s.freqValid <;> simp [firstFailure_cons, sequenceCheck, hf] at hn
    exact .inr ⟨rfl, (Host.Outcome.next.inj h).symm⟩

/-- The state a successful DERIVE leaves. -/
def derived (c : CodeBook) (s : State) : State := succeeded { installCodes s.freq c s with codesValid := true }

theorem execDerive_next {s t : State} (h : execDerive s = .next t) :
    (s.treeValid = false ∧ t = raised .sequence 0x2#32 s) ∨
    (s.treeValid = true ∧ ∃ c, deriveCodes s.node s.root = some c ∧ t = derived c s) := by
  rcases checked_next h with ⟨e, he, rfl⟩ | ⟨hn, h⟩
  · cases hf : s.treeValid <;> simp [firstFailure_cons, sequenceCheck, hf] at he
    exact .inl ⟨rfl, by rw [← he]⟩
  · cases hf : s.treeValid <;> simp [firstFailure_cons, sequenceCheck, hf] at hn
    cases hd : deriveCodes s.node s.root with
    | none => simp [hd] at h
    | some c =>
      simp only [hd] at h
      exact .inr ⟨rfl, c, rfl, (Host.Outcome.next.inj h).symm⟩

/-- The state a successful PACK leaves. -/
def packed (s : State) : State :=
  succeeded { s with
    buf := s.storeDst (packBits s.codeBook s.srcBytes).bytes
    dstLen := BitVec.ofNat 32 (packBits s.codeBook s.srcBytes).bytes.length
    padding := BitVec.ofNat 3 (packBits s.codeBook s.srcBytes).padding }

theorem execPack_next {s t : State} (h : execPack s = .next t) :
    (∃ c k, c.isWalk = false ∧ c ≠ .none ∧ t = raised c k s) ∨
    (s.codesValid = true ∧ firstFailure s.rangeChecks = none ∧ firstAbsent s.codeLen s.srcBytes = none ∧
      ceil8 (inputBits s.codeLen s.srcBytes) ≤ s.dstCap.toNat ∧ t = packed s) := by
  rcases checked_next h with ⟨e, he, rfl⟩ | ⟨hn, h⟩
  · refine .inl ⟨e.1, e.2, ?_, ?_, rfl⟩ <;>
      · obtain ⟨c, hc, -, rfl⟩ := firstFailure_mem he
        simp only [State.rangeChecks, State.srcCheck, sequenceCheck, List.mem_cons, List.not_mem_nil, or_false] at hc
        rcases hc with rfl | rfl | rfl | rfl <;> simp [Cause.isWalk]
  · rw [firstFailure_cons] at hn
    cases hv : s.codesValid
    · simp [sequenceCheck, hv] at hn
    simp only [sequenceCheck, hv, if_true] at hn
    cases ha : firstAbsent s.codeLen s.srcBytes with
    | some j =>
      simp only [ha, raise_eq] at h
      exact .inl ⟨_, _, by simp [Cause.isWalk], by simp, (Host.Outcome.next.inj h).symm⟩
    | none =>
      simp only [ha] at h
      rcases checked_next h with ⟨e, he, rfl⟩ | ⟨hn', h⟩
      · obtain ⟨c, hc, -, rfl⟩ := firstFailure_mem he
        simp only [List.mem_singleton] at hc
        subst hc
        exact .inl ⟨_, _, by simp [Cause.isWalk], by simp, rfl⟩
      · refine .inr ⟨rfl, hn, rfl, ?_, (Host.Outcome.next.inj h).symm⟩
        have := firstFailure_none.mp hn' _ (List.mem_singleton.mpr rfl)
        exact of_decide_eq_true this

theorem unpackChecks_causes {s : State} {e : Cause × Word} (h : firstFailure (unpackChecks s) = some e) :
    e.1.isWalk = false ∧ e.1 ≠ .none := by
  obtain ⟨c, hc, -, rfl⟩ := firstFailure_mem h
  simp only [unpackChecks, State.rangeChecks, State.srcCheck, sequenceCheck, List.mem_cons, List.mem_append,
    List.not_mem_nil, or_false] at hc
  rcases hc with (rfl | rfl | rfl | rfl) | rfl | rfl <;> simp [Cause.isWalk]

/-- UNPACK is turned away, or ends as its walk ends. -/
theorem execUnpack_next {s t : State} (h : execUnpack s = .next t) :
    (∃ e, firstFailure (unpackChecks s) = some e ∧ t = raised e.1 e.2 s) ∨
    (firstFailure (unpackChecks s) = none ∧
      finishWalk (walkDecode s.node s.root s.srcBytes s.padding.toNat s.total.toNat) s.total.toNat s = .next t) :=
  checked_next h

/-- The table of the input of ENCODE (R315). -/
def State.inputTable (s : State) : SymTable (BitVec 64) := addCounts (symTable fun _ => 0#64) s.srcBytes

theorem State.inputTable_eq (s : State) : addCounts (symTable fun _ => 0#64) s.srcBytes = s.inputTable := rfl

/-- The state a successful ENCODE with the codebook c leaves. -/
def encoded (c : CodeBook) (s : State) : State :=
  succeeded { installCodes s.inputTable c (installTree (buildTree s.inputTable)
      (installTable s.inputTable s.srcLen.toNat (presentCount s.inputTable) s)) with
    buf := s.storeDst (serializeHeader s.inputTable s.srcLen.toNat (pad (codedBits s.inputTable c.len)) ++
      (packBits c s.srcBytes).bytes)
    dstLen := BitVec.ofNat 32 (headerLength (presentCount s.inputTable) + ceil8 (codedBits s.inputTable c.len))
    hdrLen := BitVec.ofNat 32 (headerLength (presentCount s.inputTable))
    padding := BitVec.ofNat 3 (packBits c s.srcBytes).padding
    freqValid := true, treeValid := true, codesValid := true }

theorem rangeChecks_causes {s : State} {e : Cause × Word} (h : firstFailure s.rangeChecks = some e) :
    e.1.isWalk = false ∧ e.1 ≠ .none := by
  obtain ⟨c, hc, -, rfl⟩ := firstFailure_mem h
  simp only [State.rangeChecks, State.srcCheck, List.mem_cons, List.not_mem_nil, or_false] at hc
  rcases hc with rfl | rfl | rfl <;> simp [Cause.isWalk]

theorem execEncode_next {s t : State} (h : execEncode s = .next t) :
    (∃ c k, c.isWalk = false ∧ c ≠ .none ∧ t = raised c k s) ∨
    (firstFailure s.rangeChecks = none ∧ ∃ c,
      deriveCodes (fillPool s.draws (buildTree s.inputTable).nodes) (buildTree s.inputTable).root = some c ∧
      headerLength (presentCount s.inputTable) + ceil8 (codedBits s.inputTable c.len) ≤ s.dstCap.toNat ∧
      t = encoded c s) := by
  rcases checked_next h with ⟨e, he, rfl⟩ | ⟨hn, h⟩
  · exact .inl ⟨e.1, e.2, (rangeChecks_causes he).1, (rangeChecks_causes he).2, rfl⟩
  · simp only [State.inputTable_eq] at h
    cases hd : deriveCodes (fillPool s.draws (buildTree s.inputTable).nodes) (buildTree s.inputTable).root with
    | none => rw [hd] at h; cases h
    | some c =>
      rw [hd] at h
      rcases checked_next h with ⟨e, he, rfl⟩ | ⟨hn', h⟩
      · obtain ⟨c', hc, -, rfl⟩ := firstFailure_mem he
        simp only [List.mem_singleton] at hc
        subst hc
        exact .inl ⟨_, _, by simp [Cause.isWalk], by simp, rfl⟩
      · refine .inr ⟨hn, c, rfl, ?_, ?_⟩
        rotate_left
        · rw [← Host.Outcome.next.inj h]
          simp only [encoded, succeeded]
        have := firstFailure_none.mp hn' _ (List.mem_singleton.mpr rfl)
        exact of_decide_eq_true this

/-- The errors of a header are all of class pre. -/
theorem parseEntries_causes (stream : List Byte) (left k : Nat) (prev : Option Byte) (F : SymTable (BitVec 64))
    (sum : Nat) (e : Cause × Nat) (h : parseEntries stream left k prev F sum = .error e) :
    e.1.isWalk = false ∧ e.1 ≠ .none := by
  induction left generalizing k prev F sum with
  | zero => simp [parseEntries] at h
  | succ left ih =>
    simp only [parseEntries] at h
    split at h
    · rw [← Except.error.inj h]; simp [Cause.isWalk]
    · split at h
      · rw [← Except.error.inj h]; simp [Cause.isWalk]
      · exact ih _ _ _ _ h

theorem parseHeader_causes {stream : List Byte} {e : Cause × Nat} (h : parseHeader stream = .error e) :
    e.1.isWalk = false ∧ e.1 ≠ .none := by
  unfold parseHeader at h
  split at h
  · rw [← Except.error.inj h]; simp [Cause.isWalk]
  simp only at h
  split at h
  · rw [← Except.error.inj h]; simp [Cause.isWalk]
  split at h
  · rw [← Except.error.inj h]; simp [Cause.isWalk]
  split at h
  · rw [← Except.error.inj h]; simp [Cause.isWalk]
  split at h
  · rename_i e' he
    rw [← Except.error.inj h]
    exact parseEntries_causes _ _ _ _ _ _ _ he
  · split at h
    · rw [← Except.error.inj h]; simp [Cause.isWalk]
    · split at h
      · rw [← Except.error.inj h]; simp [Cause.isWalk]
      · simp at h

/-- The state a successful PARSE leaves. -/
def parsed (h : Header) (s : State) : State :=
  succeeded { installHeader h s with freqValid := true, treeValid := false, codesValid := false }

theorem execParse_next {s t : State} (h : execParse s = .next t) :
    (∃ c k, c.isWalk = false ∧ c ≠ .none ∧ t = raised c k s) ∨
    (s.srcInRange = true ∧ ∃ hd, parseHeader s.srcBytes = .ok hd ∧ t = parsed hd s) := by
  rcases checked_next h with ⟨e, he, rfl⟩ | ⟨hn, h⟩
  · obtain ⟨c, hc, -, rfl⟩ := firstFailure_mem he
    simp only [State.srcCheck, List.mem_singleton] at hc
    subst hc
    exact .inl ⟨_, _, by simp [Cause.isWalk], by simp, rfl⟩
  · have hs := firstFailure_none.mp hn _ (List.mem_singleton.mpr rfl)
    cases hp : parseHeader s.srcBytes with
    | error e =>
      simp only [hp, raise_eq] at h
      exact .inl ⟨_, _, (parseHeader_causes hp).1, (parseHeader_causes hp).2, (Host.Outcome.next.inj h).symm⟩
    | ok hd =>
      simp only [hp] at h
      exact .inr ⟨hs, hd, rfl, (Host.Outcome.next.inj h).symm⟩

/-- The state in which DECODE starts its walk. -/
def treeLoaded (h : Header) (s : State) : State :=
  { installTree (buildTree h.freq) (installHeader h s) with freqValid := true, treeValid := true, codesValid := false }

theorem execDecode_next {s t : State} (h : execDecode s = .next t) :
    (∃ c k, c.isWalk = false ∧ c ≠ .none ∧ t = raised c k s) ∨
    (firstFailure s.rangeChecks = none ∧ ∃ hd, parseHeader s.srcBytes = .ok hd ∧ hd.total ≤ s.dstCap.toNat ∧
      finishWalk (walkDecode (treeLoaded hd s).node (treeLoaded hd s).root (s.srcBytes.drop hd.length) hd.padding
        hd.total) hd.total (treeLoaded hd s) = .next t) := by
  rcases checked_next h with ⟨e, he, rfl⟩ | ⟨hn, h⟩
  · exact .inl ⟨e.1, e.2, (rangeChecks_causes he).1, (rangeChecks_causes he).2, rfl⟩
  · cases hp : parseHeader s.srcBytes with
    | error e =>
      simp only [hp, raise_eq] at h
      exact .inl ⟨_, _, (parseHeader_causes hp).1, (parseHeader_causes hp).2, (Host.Outcome.next.inj h).symm⟩
    | ok hd =>
      simp only [hp] at h
      rcases checked_next h with ⟨e, he, rfl⟩ | ⟨hn', h⟩
      · obtain ⟨c', hc, -, rfl⟩ := firstFailure_mem he
        simp only [List.mem_singleton] at hc
        subst hc
        exact .inl ⟨_, _, by simp [Cause.isWalk], by simp, rfl⟩
      · refine .inr ⟨hn, hd, rfl, ?_, h⟩
        have := firstFailure_none.mp hn' _ (List.mem_singleton.mpr rfl)
        exact of_decide_eq_true this

end Sys2Proof.Machine
end

