-- ==== Sys2Proof/Laws/Memory.lean ====
section
/-! SUPPORT. The laws of `BUF` as memory: read after write, the canonical form, strings of bytes. -/

namespace Sys2Proof.Machine

theorem Memory.read_write (m : Memory) (a b : Nat) (v : Byte) (h : m.wf = true) :
    (m.write a v).read b = if b = a then v else m.read b := by
  induction m with
  | nil => by_cases hv : v = Config.background <;> simp [Memory.write, Memory.read, hv, eq_comm]
  | cons c m ih =>
    simp only [Memory.wf, Bool.and_eq_true, List.all_eq_true, decide_eq_true_eq, bne_iff_ne] at h
    obtain ⟨⟨_, hlt⟩, hm⟩ := h
    have absent : ∀ x, x ≤ c.1 → Memory.read m x = Config.background := by
      intro x hx
      clear ih hm
      induction m with
      | nil => rfl
      | cons d m ih =>
        have hd := hlt d (by simp)
        simp only [Memory.read]
        rw [if_neg (by omega)]
        exact ih fun e he => hlt e (by simp [he])
    by_cases h1 : a < c.1
    · by_cases hv : v = Config.background
      · simp only [Memory.write, if_pos h1, hv, if_true]
        by_cases hb : b = a
        · subst hb
          simp only [if_true, Memory.read, if_neg (by omega : ¬ c.1 = b)]
          exact absent b (by omega)
        · simp [hb]
      · simp only [Memory.write, if_pos h1, hv, if_false, Memory.read, eq_comm (a := a)]
    · by_cases h2 : a = c.1
      · subst h2
        by_cases hv : v = Config.background
        · simp only [Memory.write, lt_irrefl, hv, if_true, if_false]
          by_cases hb : b = c.1
          · subst hb; simp [absent]
          · simp [hb, Memory.read, Ne.symm hb]
        · by_cases hb : b = c.1
          · subst hb; simp [Memory.write, hv, Memory.read]
          · simp [Memory.write, hv, Memory.read, hb, Ne.symm hb]
      · simp only [Memory.write, if_neg h1, if_neg h2, Memory.read, ih hm]
        by_cases hb : b = a
        · subst hb; simp [Ne.symm h2]
        · simp [hb]

/-- A write lists no address but the old ones and the one written. -/
theorem Memory.mem_write {m : Memory} {a : Nat} {v : Byte} {c : Host.Cell} (h : c ∈ m.write a v) :
    c ∈ m ∨ c = (a, v) := by
  induction m with
  | nil => by_cases hv : v = Config.background <;> simp_all [Memory.write]
  | cons d m ih =>
    simp only [Memory.write] at h
    split at h
    · split at h <;> (simp_all; try tauto)
    · split at h
      · split at h <;> (simp_all; try tauto)
      · simp only [List.mem_cons] at h ⊢
        rcases h with h | h
        · exact .inl (.inl h)
        · exact (ih h).elim (fun h => .inl (.inr h)) .inr

theorem Memory.wf_write (m : Memory) (a : Nat) (v : Byte) (h : m.wf = true) : (m.write a v).wf = true := by
  induction m with
  | nil => by_cases hv : v = Config.background <;> simp [Memory.write, Memory.wf, hv]
  | cons c m ih =>
    have h0 := h
    simp only [Memory.wf, Bool.and_eq_true, List.all_eq_true, decide_eq_true_eq, bne_iff_ne] at h
    obtain ⟨⟨hc, hlt⟩, hm⟩ := h
    simp only [Memory.write]
    split
    · split
      · exact h0
      · rename_i h1 hv
        simp only [Memory.wf, Bool.and_eq_true, List.all_eq_true, decide_eq_true_eq, bne_iff_ne,
          List.mem_cons, forall_eq_or_imp]
        exact ⟨⟨hv, h1, fun d hd => lt_trans h1 (hlt d hd)⟩, ⟨hc, hlt⟩, hm⟩
    · split
      · rename_i h2
        subst h2
        split
        · exact hm
        · rename_i hv
          simp only [Memory.wf, Bool.and_eq_true, List.all_eq_true, decide_eq_true_eq, bne_iff_ne]
          exact ⟨⟨hv, hlt⟩, hm⟩
      · rename_i h1 h2
        simp only [Memory.wf, Bool.and_eq_true, List.all_eq_true, decide_eq_true_eq, bne_iff_ne]
        refine ⟨⟨hc, fun d hd => ?_⟩, ih hm⟩
        rcases Memory.mem_write hd with hd | rfl
        · exact hlt d hd
        · exact lt_of_le_of_ne (not_lt.mp h1) (Ne.symm h2)

/-- Every listed address is below n. -/
def Memory.inside (m : Memory) (n : Nat) : Prop := ∀ c ∈ m, c.1 < n

theorem Memory.inside_write {m : Memory} {n a : Nat} {v : Byte} (h : m.inside n) (ha : a < n) :
    (m.write a v).inside n := by
  intro c hc
  rcases Memory.mem_write hc with hc | rfl
  · exact h c hc
  · exact ha

@[simp] theorem Memory.length_readBytes (m : Memory) (base len : Nat) : (m.readBytes base len).length = len := by
  simp [Memory.readBytes]

theorem Memory.getElem_readBytes (m : Memory) (base len k : Nat) (h : k < (m.readBytes base len).length) :
    (m.readBytes base len)[k] = m.read (base + k) := by
  simp [Memory.readBytes]

theorem Memory.wf_writeBytes (m : Memory) (base : Nat) (bs : List Byte) (h : m.wf = true) :
    (m.writeBytes base bs).wf = true := by
  induction bs generalizing m base with
  | nil => exact h
  | cons b bs ih => exact ih _ _ (Memory.wf_write _ _ _ h)

theorem Memory.inside_writeBytes {m : Memory} {n base : Nat} {bs : List Byte} (h : m.inside n)
    (hb : base + bs.length ≤ n) : (m.writeBytes base bs).inside n := by
  induction bs generalizing m base with
  | nil => exact h
  | cons b bs ih =>
    simp only [List.length_cons] at hb
    exact ih (Memory.inside_write h (by omega)) (by omega)

/-- What a stored string of bytes reads as: the bytes in their range, the old bytes outside it. -/
theorem Memory.read_writeBytes (m : Memory) (base a : Nat) (bs : List Byte) (h : m.wf = true) :
    (m.writeBytes base bs).read a =
      if base ≤ a ∧ a < base + bs.length then bs.getD (a - base) 0 else m.read a := by
  induction bs generalizing m base with
  | nil => simp [Memory.writeBytes]
  | cons b bs ih =>
    simp only [Memory.writeBytes, List.length_cons]
    rw [ih _ _ (Memory.wf_write _ _ _ h), Memory.read_write _ _ _ _ h]
    by_cases h1 : a = base
    · subst h1; simp
    · by_cases h2 : base + 1 ≤ a ∧ a < base + 1 + bs.length
      · rw [if_pos h2, if_pos (by omega)]
        obtain ⟨k, rfl⟩ : ∃ k, a = base + 1 + k := ⟨a - (base + 1), by omega⟩
        have e1 : base + 1 + k - (base + 1) = k := by omega
        have e2 : base + 1 + k - base = k + 1 := by omega
        simp [e1, e2]
      · rw [if_neg h2, if_neg h1, if_neg (by omega)]

theorem Memory.read_writeBytes_inside (m : Memory) (base k : Nat) (bs : List Byte) (h : m.wf = true)
    (hk : k < bs.length) : (m.writeBytes base bs).read (base + k) = bs[k] := by
  rw [Memory.read_writeBytes _ _ _ _ h, if_pos (by omega)]
  simp [List.getD_eq_getElem?_getD, hk]

theorem Memory.read_writeBytes_outside (m : Memory) (base a : Nat) (bs : List Byte) (h : m.wf = true)
    (ha : a < base ∨ base + bs.length ≤ a) : (m.writeBytes base bs).read a = m.read a := by
  rw [Memory.read_writeBytes _ _ _ _ h, if_neg (by omega)]

theorem Memory.wf_fill (m : Memory) (lo n : Nat) (f : Nat → Byte) (h : m.wf = true) :
    (m.fill lo n f).wf = true :=
  Memory.wf_writeBytes _ _ _ h

theorem Memory.inside_fill {m : Memory} {lo n top : Nat} {f : Nat → Byte} (h : m.inside top) (hn : lo + n ≤ top) :
    (m.fill lo n f).inside top :=
  Memory.inside_writeBytes h (by simpa using hn)

theorem Memory.read_fill_outside (m : Memory) (lo n a : Nat) (f : Nat → Byte) (h : m.wf = true)
    (ha : a < lo ∨ lo + n ≤ a) : (m.fill lo n f).read a = m.read a :=
  Memory.read_writeBytes_outside _ _ _ _ h (by simpa using ha)

/-- Equal canonical memories are equal lists: a memory is known by what it reads as. -/
theorem Memory.ext_read {m m' : Memory} (h : m.wf = true) (h' : m'.wf = true)
    (heq : ∀ a, m.read a = m'.read a) : m = m' := by
  have low : ∀ (m : Memory) (x : Nat), (∀ c ∈ m, x < c.1) → m.read x = Config.background := by
    intro m x hx
    induction m with
    | nil => rfl
    | cons d m ih =>
      have := hx d (by simp)
      simp only [Memory.read, if_neg (by omega : ¬ d.1 = x)]
      exact ih fun c hc => hx c (by simp [hc])
  induction m generalizing m' with
  | nil =>
    cases m' with
    | nil => rfl
    | cons c m' =>
      simp only [Memory.wf, Bool.and_eq_true, bne_iff_ne] at h'
      have := heq c.1
      simp [Memory.read] at this
      exact absurd this.symm h'.1.1
  | cons c m ih =>
    have hw := h
    simp only [Memory.wf, Bool.and_eq_true, List.all_eq_true, decide_eq_true_eq, bne_iff_ne] at h
    cases m' with
    | nil =>
      have := heq c.1
      simp [Memory.read] at this
      exact absurd this h.1.1
    | cons d m' =>
      have hw' := h'
      simp only [Memory.wf, Bool.and_eq_true, List.all_eq_true, decide_eq_true_eq, bne_iff_ne] at h'
      have hcd : c.1 = d.1 := by
        rcases lt_trichotomy c.1 d.1 with hlt | heq' | hlt
        · have e := heq c.1
          rw [low (d :: m') c.1 (by
            intro x hx; rcases List.mem_cons.mp hx with rfl | hx
            · exact hlt
            · exact lt_trans hlt (h'.1.2 x hx))] at e
          simp [Memory.read] at e
          exact absurd e h.1.1
        · exact heq'
        · have e := heq d.1
          rw [low (c :: m) d.1 (by
            intro x hx; rcases List.mem_cons.mp hx with rfl | hx
            · exact hlt
            · exact lt_trans hlt (h.1.2 x hx))] at e
          simp [Memory.read] at e
          exact absurd e.symm h'.1.1
      have hv : c.2 = d.2 := by
        have e := heq c.1
        simpa [Memory.read, hcd] using e
      have hm : m = m' := by
        refine ih h.2 h'.2 fun a => ?_
        have e := heq a
        simp only [Memory.read, ← hcd] at e
        by_cases ha : c.1 = a
        · subst ha
          rw [low m c.1 h.1.2, low m' c.1 (by rw [hcd]; exact h'.1.2)]
        · simpa [ha] using e
      obtain ⟨c1, c2⟩ := c
      obtain ⟨d1, d2⟩ := d
      simp only at hcd hv
      rw [hcd, hv, hm]

end Sys2Proof.Machine
end

