-- ==== Sys2Proof/Laws/Invariant.lean ====
section
/-! SUPPORT. What one command, one host transaction and one reset do to the invariant, one lemma each. -/

namespace Sys2Proof.Machine

/-! ### The checks as facts -/

theorem srcInRange_iff (s : State) : s.srcInRange = true ↔ s.srcOk := by
  unfold State.srcInRange State.srcOk; exact decide_eq_true_iff

theorem dstInRange_iff (s : State) : s.dstInRange = true ↔ s.dstOk := by
  unfold State.dstInRange State.dstOk; exact decide_eq_true_iff

/-- The overlap formula of R131 says that some byte lies in both ranges. -/
theorem overlap_iff (s : State) : s.overlap = false ↔ s.apart := by
  unfold State.overlap State.apart
  simp only [Bool.and_eq_false_iff, decide_eq_false_iff_not]
  constructor
  · intro h a ha
    omega
  · intro h
    by_contra hc
    push Not at hc
    exact h (max s.srcBase.toNat s.dstBase.toNat) (by omega)

theorem rangeChecks_none (s : State) : firstFailure s.rangeChecks = none ↔ s.rangesOk := by
  rw [firstFailure_none]
  simp only [State.rangeChecks, State.srcCheck, List.mem_cons, List.not_mem_nil, or_false, forall_eq_or_imp, forall_eq,
    Bool.not_eq_true', srcInRange_iff, dstInRange_iff, overlap_iff]
  rfl

theorem countChecks_none (s : State) : firstFailure (countChecks s) = none ↔
    s.freqValid = true ∧ s.srcOk ∧ s.total.toNat + s.srcLen.toNat ≤ 2 ^ 64 - 1 := by
  rw [firstFailure_none]
  simp only [countChecks, sequenceCheck, State.srcCheck, List.mem_cons, List.not_mem_nil, or_false, forall_eq_or_imp,
    forall_eq, srcInRange_iff, decide_eq_true_eq]

theorem unpackChecks_none (s : State) : firstFailure (unpackChecks s) = none ↔
    s.treeValid = true ∧ s.rangesOk ∧ ¬ (s.srcLen = 0#32 ∧ s.padding ≠ 0#3) ∧ s.total.toNat ≤ s.dstCap.toNat := by
  rw [firstFailure_none]
  simp only [unpackChecks, sequenceCheck, State.rangeChecks, State.srcCheck, List.mem_cons, List.mem_append,
    List.not_mem_nil, or_false, State.rangesOk, Bool.not_eq_true', srcInRange_iff, dstInRange_iff, overlap_iff,
    decide_eq_true_eq, forall_eq, or_imp, forall_and, Bool.and_eq_false_iff,
    decide_eq_false_iff_not]
  tauto

@[simp] theorem length_srcBytes (s : State) : s.srcBytes.length = s.srcLen.toNat := by
  simp [State.srcBytes, Memory.readBytes]

/-! ### What the invariant says about sizes -/

theorem State.Inv.bufBytes_le {s : State} (h : s.Inv) : s.bufBytes ≤ 2 ^ 24 := by
  have := h.bufBytes_legal
  simp only [legalBufBytes, Bool.and_eq_true, decide_eq_true_eq] at this
  exact this.2

theorem State.Inv.tableSum_lt {s : State} (h : s.Inv) (hf : s.freqValid = true) : tableSum s.freq < 2 ^ 64 := by
  rw [← (h.freq_valid hf).1]; exact s.total.isLt

theorem State.holdsTree.pool {s : State} {t : Tree} (h : s.holdsTree t) : poolHolds s.node t := h.2.2

theorem presentCount_toNat (F : SymTable (BitVec 64)) : (BitVec.ofNat 9 (presentCount F)).toNat = presentCount F := by
  have := presentCount_le F
  rw [BitVec.toNat_ofNat]
  exact Nat.mod_eq_of_lt (by omega)

theorem poolHolds_fillPool (n : Nat) (F : SymTable (BitVec 64)) :
    poolHolds (fillPool n (buildTree F).nodes) (buildTree F) :=
  fun i hi => getElem?_fillPool n _ (length_buildTree_le F) i hi

theorem length_nodes_toNat (F : SymTable (BitVec 64)) :
    (BitVec.ofNat 10 (buildTree F).nodes.length).toNat = (buildTree F).nodes.length := by
  have := length_buildTree_le F
  rw [BitVec.toNat_ofNat]
  exact Nat.mod_eq_of_lt (by omega)

/-- The input of ENCODE is shorter than 2^64 bytes, so its table counts it exactly. -/
theorem tableSum_inputTable (s : State) : tableSum s.inputTable = s.srcLen.toNat := by
  have := s.srcLen.isLt
  rw [State.inputTable, tableSum_addCounts _ _ (by simp; omega)]
  simp

/-! ### Commands keep the invariant -/

theorem State.Inv.raised {s : State} (h : s.Inv) (c : Cause) (k : Word) : (Machine.raised c k s).Inv where
  bufBytes_legal := h.bufBytes_legal
  buf_wf := h.buf_wf
  buf_inside := h.buf_inside
  busy_pending := by intro hb; cases hb
  tree_valid := h.tree_valid
  codes_valid := h.codes_valid
  freq_valid := h.freq_valid
  bits_valid := h.bits_valid

theorem State.Inv.succeeded {s : State} (h : s.Inv) : (Machine.succeeded s).Inv where
  bufBytes_legal := h.bufBytes_legal
  buf_wf := h.buf_wf
  buf_inside := h.buf_inside
  busy_pending := by intro hb; cases hb
  tree_valid := h.tree_valid
  codes_valid := h.codes_valid
  freq_valid := h.freq_valid
  bits_valid := h.bits_valid

/-- Storing bytes in the destination range, and writing registers the invariant does not speak of. -/
theorem State.Inv.store {s : State} (h : s.Inv) (hd : s.dstOk) {bytes : List Byte} (hb : bytes.length ≤ s.dstCap.toNat)
    (dl : Word) (p : BitVec 3) : State.Inv { s with buf := s.storeDst bytes, dstLen := dl, padding := p } where
  bufBytes_legal := h.bufBytes_legal
  buf_wf := Memory.wf_writeBytes _ _ _ h.buf_wf
  buf_inside := Memory.inside_writeBytes h.buf_inside (le_trans (Nat.add_le_add_left hb _) hd)
  busy_pending := h.busy_pending
  tree_valid := h.tree_valid
  codes_valid := h.codes_valid
  freq_valid := h.freq_valid
  bits_valid := h.bits_valid

theorem execClear_inv {s t : State} (h : s.Inv) (he : execClear s = .next t) : t.Inv := by
  rw [execClear_eq] at he
  rw [← Host.Outcome.next.inj he]
  refine State.Inv.succeeded ⟨h.bufBytes_legal, h.buf_wf, h.buf_inside, h.busy_pending, ?_, ?_, ?_, ?_⟩
  · intro hv; cases hv
  · intro hv; cases hv
  · intro _
    refine ⟨by simp, ?_⟩
    have : presentCount (symTable fun _ => 0#64) = 0 := by simp [presentCount]
    simp [this]
  · intro hv; cases hv

theorem execCount_inv {s t : State} (h : s.Inv) (he : execCount s = .next t) : t.Inv := by
  rcases execCount_next he with ⟨e, -, rfl⟩ | ⟨hn, rfl⟩
  · exact h.raised _ _
  · obtain ⟨hf, -, ht⟩ := (countChecks_none s).mp hn
    have hs := (h.freq_valid hf).1
    refine State.Inv.succeeded ⟨h.bufBytes_legal, h.buf_wf, h.buf_inside, h.busy_pending, ?_, ?_, ?_, ?_⟩
    · intro hv; cases hv
    · intro hv; cases hv
    · intro _
      refine ⟨?_, presentCount_toNat _⟩
      rw [tableSum_addCounts _ _ (by rw [length_srcBytes, ← hs]; omega), length_srcBytes, ← hs]
      rw [BitVec.toNat_ofNat]
      exact Nat.mod_eq_of_lt (by omega)
    · intro hv; cases hv

theorem execBuild_inv {s t : State} (h : s.Inv) (he : execBuild s = .next t) : t.Inv := by
  rcases execBuild_next he with ⟨-, rfl⟩ | ⟨hf, rfl⟩
  · exact h.raised _ _
  · refine State.Inv.succeeded ⟨h.bufBytes_legal, h.buf_wf, h.buf_inside, h.busy_pending, ?_, ?_, h.freq_valid, ?_⟩
    · intro _
      exact ⟨hf, rfl, length_nodes_toNat _, poolHolds_fillPool _ _⟩
    · intro hv; cases hv
    · intro hv; cases hv

theorem execDerive_inv {s t : State} (h : s.Inv) (he : execDerive s = .next t) : t.Inv := by
  rcases execDerive_next he with ⟨-, rfl⟩ | ⟨hv, c, hc, rfl⟩
  · exact h.raised _ _
  · refine State.Inv.succeeded ⟨h.bufBytes_legal, h.buf_wf, h.buf_inside, h.busy_pending, h.tree_valid, ?_,
      h.freq_valid, ?_⟩
    · intro _
      exact ⟨hv, hc⟩
    · intro _
      simp only [installCodes_totalBits, installCodes_freq, installCodes_codeLen]
      exact toNat_totalBits _ _ (h.tableSum_lt (h.tree_valid hv).1)

theorem length_packBits_inputBits (c : CodeBook) (input : List Byte) :
    (packBits c input).bytes.length = ceil8 (inputBits c.len input) := length_packBits c input

theorem execPack_inv {s t : State} (h : s.Inv) (he : execPack s = .next t) : t.Inv := by
  rcases execPack_next he with ⟨c, k, -, -, rfl⟩ | ⟨-, hr, -, hcap, rfl⟩
  · exact h.raised _ _
  · exact State.Inv.succeeded (h.store ((rangeChecks_none s).mp hr).2.1
      (by rw [length_packBits_inputBits]; exact hcap) _ _)

/-- The walk of N symbols emits at most N. -/
theorem length_walkDecode (pool : Vector Node 511) (root : NodeIndex) (payload : List Byte) (p n : Nat) :
    (walkDecode pool root payload p n).out.length ≤ n :=
  (walkFrom_out (payloadBits payload p) 0 0 none [] (Nat.zero_le _) (by simp) rfl).1

theorem finishWalk_inv {w : Walk} {n : Nat} {s t : State} (h : s.Inv) (hd : s.dstOk)
    (hw : w.out.length ≤ s.dstCap.toNat) (he : finishWalk w n s = .next t) : t.Inv := by
  rcases finishWalk_next he with ⟨-, rfl⟩ | ⟨c, i, -, rfl⟩
  · exact State.Inv.succeeded (h.store hd hw _ s.padding)
  · exact State.Inv.raised (h.store hd hw _ s.padding) _ _

theorem execUnpack_inv {s t : State} (h : s.Inv) (he : execUnpack s = .next t) : t.Inv := by
  rcases execUnpack_next he with ⟨e, -, rfl⟩ | ⟨hn, hw⟩
  · exact h.raised _ _
  · obtain ⟨-, hr, -, hcap⟩ := (unpackChecks_none s).mp hn
    exact finishWalk_inv h hr.2.1 (le_trans (length_walkDecode _ _ _ _ _) hcap) hw

/-- The invariant after a table and its tree have been installed. -/
theorem State.Inv.withTree {s : State} (h : s.Inv) (F : SymTable (BitVec 64)) (N n : Nat) (hN : N = tableSum F)
    (hlt : N < 2 ^ 64) (hn : n = presentCount F) (p : BitVec 3) (hl : Word) :
    State.Inv { installTree (buildTree F) (installTable F N n s) with
      padding := p, hdrLen := hl, freqValid := true, treeValid := true, codesValid := false } where
  bufBytes_legal := h.bufBytes_legal
  buf_wf := h.buf_wf
  buf_inside := h.buf_inside
  busy_pending := h.busy_pending
  tree_valid := fun _ => ⟨rfl, rfl, length_nodes_toNat _, poolHolds_fillPool _ _⟩
  codes_valid := by intro hv; cases hv
  freq_valid := by
    intro _
    subst hn hN
    refine ⟨?_, presentCount_toNat _⟩
    simp only [installTree_total, installTable_total, installTree_freq, installTable_freq, BitVec.toNat_ofNat]
    exact Nat.mod_eq_of_lt hlt
  bits_valid := by intro hv; cases hv

theorem codedBits_inputTable (s : State) (len : SymTable (BitVec 8)) :
    codedBits s.inputTable len = inputBits len s.srcBytes := by
  have := s.srcLen.isLt
  exact codedBits_addCounts _ _ (by rw [length_srcBytes]; omega)

theorem length_encoded (c : CodeBook) (s : State) :
    (serializeHeader s.inputTable s.srcLen.toNat (pad (codedBits s.inputTable c.len)) ++
      (packBits c s.srcBytes).bytes).length =
      headerLength (presentCount s.inputTable) + ceil8 (codedBits s.inputTable c.len) := by
  rw [List.length_append, length_serializeHeader, length_packBits_inputBits, codedBits_inputTable]

theorem execEncode_inv {s t : State} (h : s.Inv) (he : execEncode s = .next t) : t.Inv := by
  rcases execEncode_next he with ⟨c, k, -, -, rfl⟩ | ⟨hr, c, hc, hcap, rfl⟩
  · exact h.raised _ _
  · have hlen := tableSum_inputTable s
    have hN := s.srcLen.isLt
    have hs := h.withTree s.inputTable s.srcLen.toNat _ hlen.symm (by omega) rfl
      (BitVec.ofNat 3 (packBits c s.srcBytes).padding) (BitVec.ofNat 32 (headerLength (presentCount s.inputTable)))
    have hd := ((rangeChecks_none s).mp hr).2.1
    refine State.Inv.succeeded ⟨h.bufBytes_legal, ?_, ?_, h.busy_pending, ?_, ?_, ?_, ?_⟩
    · exact Memory.wf_writeBytes _ _ _ h.buf_wf
    · refine Memory.inside_writeBytes h.buf_inside ?_
      rw [length_encoded]
      unfold State.dstOk at hd
      simp only [installCodes_bufBytes, installTree_bufBytes, installTable_bufBytes]
      omega
    · exact fun _ => hs.tree_valid rfl
    · intro _
      exact ⟨rfl, hc⟩
    · exact fun _ => hs.freq_valid rfl
    · intro _
      simp only [installCodes_totalBits, installCodes_freq, installCodes_codeLen, installTree_freq, installTable_freq]
      exact toNat_totalBits _ _ (by rw [hlen]; omega)

theorem execParse_inv {s t : State} (h : s.Inv) (he : execParse s = .next t) : t.Inv := by
  rcases execParse_next he with ⟨c, k, -, -, rfl⟩ | ⟨-, hd, hp, rfl⟩
  · exact h.raised _ _
  · obtain ⟨h1, h2, h3, -⟩ := parseHeader_ok hp
    have hs := h.withTree hd.freq hd.total hd.count h1 h2 h3 0#3 0#32
    refine State.Inv.succeeded ⟨h.bufBytes_legal, h.buf_wf, h.buf_inside, h.busy_pending, ?_, ?_, ?_, ?_⟩
    · intro hv; cases hv
    · intro hv; cases hv
    · exact fun _ => hs.freq_valid rfl
    · intro hv; cases hv

theorem treeLoaded_inv {s : State} (h : s.Inv) {hd : Header} (hp : parseHeader s.srcBytes = .ok hd) :
    (treeLoaded hd s).Inv := by
  obtain ⟨h1, h2, h3, -⟩ := parseHeader_ok hp
  have hs := h.withTree hd.freq hd.total hd.count h1 h2 h3 0#3 0#32
  refine ⟨h.bufBytes_legal, h.buf_wf, h.buf_inside, h.busy_pending, fun _ => hs.tree_valid rfl, ?_,
    fun _ => hs.freq_valid rfl, ?_⟩
  · intro hv; cases hv
  · intro hv; cases hv

theorem execDecode_inv {s t : State} (h : s.Inv) (he : execDecode s = .next t) : t.Inv := by
  rcases execDecode_next he with ⟨c, k, -, -, rfl⟩ | ⟨hr, hd, hp, hcap, hw⟩
  · exact h.raised _ _
  · exact finishWalk_inv (treeLoaded_inv h hp) ((rangeChecks_none s).mp hr).2.1
      (le_trans (length_walkDecode _ _ _ _ _) hcap) hw

/-! ### Commands end in states of the invariant -/

theorem execDerive_ends {s : State} (h : s.Inv) : ∃ t, execDerive s = .next t := by
  cases hv : s.treeValid with
  | false =>
    exact ⟨_, checked_of_some (e := (.sequence, 0x2#32)) _ _ (by simp [firstFailure_cons, sequenceCheck, hv])⟩
  | true =>
    obtain ⟨hf, hr, -, hp⟩ := h.tree_valid hv
    obtain ⟨c, hc, -⟩ := deriveCodes_buildTree s.freq s.node hp
    rw [← hr] at hc
    exact ⟨derived c s, by
      unfold execDerive
      rw [checked_of_none _ _ (by simp [firstFailure_cons, sequenceCheck, hv]), hc]
      rfl⟩

/-- The root of the tree of a table with a positive total is a node. -/
theorem walk_has_root (F : SymTable (BitVec 64)) {n : Nat} (hn : n = tableSum F) :
    (buildTree F).root ≠ Config.noNode ∨ n = 0 := by
  rcases Nat.eq_zero_or_pos n with h0 | h0
  · exact .inr h0
  · refine .inl (root_ne_none F ?_)
    have := present_ne_nil (F := F) (by omega)
    exact Nat.one_le_iff_ne_zero.mpr fun h => this (List.length_eq_zero_iff.mp h)

theorem finishWalk_ends {w : Walk} (n : Nat) (s : State) (h : ∀ f, w.last ≠ .stuck f) :
    ∃ t, finishWalk w n s = .next t := by
  unfold finishWalk
  cases hl : w.last with
  | done => exact ⟨_, rfl⟩
  | failed c i => exact ⟨_, rfl⟩
  | stuck f => exact absurd hl (h f)

theorem walkDecode_not_stuck {pool : Vector Node 511} {root : NodeIndex} {n : Nat}
    (h : root ≠ Config.noNode ∨ n = 0) (payload : List Byte) (p : Nat) (f : Fault) :
    (walkDecode pool root payload p n).last ≠ .stuck f :=
  walkFrom_not_stuck h _ _ _ none (by simp) _ _

theorem checked_ends {cs : List Check} {s : State} {k : Unit → Result}
    (h : firstFailure cs = none → ∃ t, k () = .next t) : ∃ t, checked cs s k = .next t := by
  cases he : firstFailure cs with
  | none => rw [checked_of_none _ _ he]; exact h he
  | some e => exact ⟨_, checked_of_some _ _ he⟩

theorem execUnpack_ends {s : State} (h : s.Inv) : ∃ t, execUnpack s = .next t := by
  refine checked_ends fun hn => ?_
  obtain ⟨hv, -⟩ := (unpackChecks_none s).mp hn
  obtain ⟨hf, hr, -⟩ := h.tree_valid hv
  exact finishWalk_ends _ _ fun f => walkDecode_not_stuck (by
    rw [hr]; exact walk_has_root s.freq (h.freq_valid hf).1) _ _ f

theorem execEncode_ends (s : State) : ∃ t, execEncode s = .next t := by
  refine checked_ends fun _ => ?_
  obtain ⟨c, hc, -⟩ := deriveCodes_buildTree s.inputTable _ (poolHolds_fillPool s.draws s.inputTable)
  simp only [State.inputTable_eq]
  rw [hc]
  exact checked_ends fun _ => ⟨_, rfl⟩

theorem execDecode_ends (s : State) : ∃ t, execDecode s = .next t := by
  refine checked_ends fun _ => ?_
  cases hp : parseHeader s.srcBytes with
  | error e => exact ⟨_, rfl⟩
  | ok hd =>
    refine checked_ends fun _ => ?_
    exact finishWalk_ends _ _ fun f => walkDecode_not_stuck (walk_has_root hd.freq (parseHeader_ok hp).1) _ _ f

theorem execPack_ends (s : State) : ∃ t, execPack s = .next t := by
  refine checked_ends fun _ => ?_
  cases firstAbsent s.codeLen s.srcBytes with
  | some j => exact ⟨_, rfl⟩
  | none => exact checked_ends fun _ => ⟨_, rfl⟩

theorem execParse_ends (s : State) : ∃ t, execParse s = .next t := by
  refine checked_ends fun _ => ?_
  cases parseHeader s.srcBytes with
  | error e => exact ⟨_, rfl⟩
  | ok hd => exact ⟨_, rfl⟩

end Sys2Proof.Machine
end

