-- ==== Sys2Proof/Laws/Bus.lean ====
section
/-! SUPPORT. The host side: what each offset names, what a read and a write do to the state, and the resets. -/

namespace Sys2Proof.Machine

/-! ### Byte lanes -/

theorem laneMask_getLsbD (strb : BitVec 4) (i : Nat) (h : i < 32) :
    (laneMask strb).getLsbD i = strb.getLsbD (i / 8) := by
  have : ∀ strb : BitVec 4, ∀ i : Fin 32, (laneMask strb).getLsbD i = strb.getLsbD (i / 8) := by decide
  exact this strb ⟨i, h⟩

theorem laneByte_getLsbD (w : Word) (j i : Nat) (h : i < 8) : (laneByte w j).getLsbD i = w.getLsbD (8 * j + i) := by
  simp [laneByte, h]

/-- A write with strobes replaces exactly the strobed byte lanes (R351). -/
theorem laneByte_mergeLanes (old data : Word) (strb : BitVec 4) (j : Nat) (h : j < 4) :
    laneByte (mergeLanes old data strb) j = laneOf old data strb j := by
  refine BitVec.eq_of_getLsbD_eq fun i hi => ?_
  rw [laneByte_getLsbD _ _ _ hi]
  simp only [mergeLanes, BitVec.getLsbD_or, BitVec.getLsbD_and, BitVec.getLsbD_not,
    laneMask_getLsbD strb (8 * j + i) (by omega), show (8 * j + i) / 8 = j by omega, show 8 * j + i < 32 by omega,
    decide_true, Bool.true_and]
  unfold laneOf
  split
  · rename_i hs; rw [laneByte_getLsbD _ _ _ hi]; simp [hs]
  · rename_i hs; rw [laneByte_getLsbD _ _ _ hi]; simp [hs]

/-- The bits of a word made of eight flags. -/
theorem lowByteWord_getLsbD (b7 b6 b5 b4 b3 b2 b1 b0 : Bool) (i : Nat) :
    (lowByteWord b7 b6 b5 b4 b3 b2 b1 b0).getLsbD i = ([b0, b1, b2, b3, b4, b5, b6, b7][i]?).getD false := by
  by_cases h : i < 8
  · have : ∀ b7 b6 b5 b4 b3 b2 b1 b0 : Bool, ∀ i : Fin 8,
        (lowByteWord b7 b6 b5 b4 b3 b2 b1 b0).getLsbD i = ([b0, b1, b2, b3, b4, b5, b6, b7][i.val]?).getD false := by
      decide +kernel
    exact this b7 b6 b5 b4 b3 b2 b1 b0 ⟨i, h⟩
  · rw [List.getElem?_eq_none (by simpa using h), Option.getD_none, lowByteWord, BitVec.getLsbD_append, if_neg h]
    simp

/-- The bits of a word made of four fields, the last one lowest. -/
theorem getLsbD_fields {n3 n2 n1 n0 : Nat} (a3 : BitVec n3) (a2 : BitVec n2) (a1 : BitVec n1) (a0 : BitVec n0) (i : Nat) :
    (a3 ++ a2 ++ a1 ++ a0).getLsbD i =
      if i < n0 then a0.getLsbD i
      else if i - n0 < n1 then a1.getLsbD (i - n0)
      else if i - n0 - n1 < n2 then a2.getLsbD (i - n0 - n1)
      else a3.getLsbD (i - n0 - n1 - n2) := by
  simp only [BitVec.getLsbD_append]

theorem getLsbD_nodeWord_zero (nd : Node) (i : Nat) : (nodeWord nd 0).getLsbD i =
    if i < 1 then nd.kind.getLsbD i else if i - 1 < 7 then false
    else if i - 1 - 7 < 8 then nd.sym.getLsbD (i - 1 - 7) else false := by
  refine (getLsbD_fields 0#16 nd.sym 0#7 nd.kind i).trans ?_
  simp

theorem getLsbD_nodeWord_one (nd : Node) (i : Nat) : (nodeWord nd 1).getLsbD i =
    if i < 9 then nd.left.getLsbD i else if i - 9 < 7 then false
    else if i - 9 - 7 < 9 then nd.right.getLsbD (i - 9 - 7) else false := by
  refine (getLsbD_fields 0#7 nd.right 0#7 nd.left i).trans ?_
  simp

/-- Byte j of the word at `BUF[4k]` stands in lane j (R101). -/
theorem laneByte_bufWord (m : Memory) (k j : Nat) (h : j < 4) : laneByte (bufWord m k) j = m.read (4 * k + j) := by
  refine BitVec.eq_of_getLsbD_eq fun i hi => ?_
  rw [laneByte_getLsbD _ _ _ hi]
  refine (getLsbD_fields (m.read (4 * k + 3)) (m.read (4 * k + 2)) (m.read (4 * k + 1)) (m.read (4 * k)) _).trans ?_
  interval_cases j
  all_goals
    split_ifs <;> first | omega | (congr 1; omega)

/-! ### The address map -/

theorem toNat_at25 {a : Nat} (h : a < 2 ^ 25) : (at25 a).toNat = a := by
  unfold at25
  rw [BitVec.toNat_ofNat]
  exact Nat.mod_eq_of_lt h

theorem aligned_at25 {a : Nat} (h : a < 2 ^ 25) (h4 : a % 4 = 0) : aligned (at25 a) = true := by
  simp [aligned, toNat_at25 h, h4]

theorem Reg.offset_lt (r : Reg) : r.offset ≤ 0x058 ∧ r.offset % 4 = 0 := by cases r <;> decide

theorem decodeOffset_reg (n : Nat) (r : Reg) : decodeOffset n (at25 r.offset) = some (.reg r) := by
  have h := r.offset_lt
  unfold decodeOffset
  rw [toNat_at25 (by omega), if_pos (by omega)]
  cases r <;> rfl

/-- An offset in the FREQ window names its word (R59). -/
theorem decodeOffset_freq (n : Nat) (x : Byte) (w : Nat) (h : w < 2) :
    decodeOffset n (at25 (0x1000 + 8 * x.toNat + 4 * w)) = some (.freq x w) := by
  have hx := x.isLt
  have hd : (0x1000 + 8 * x.toNat + 4 * w - 0x1000) / 8 = x.toNat := by omega
  have hm : (0x1000 + 8 * x.toNat + 4 * w - 0x1000) % 8 / 4 = w := by omega
  simp only [decodeOffset, toNat_at25 (show 0x1000 + 8 * x.toNat + 4 * w < 2 ^ 25 by omega)]
  split_ifs <;> first | omega | simp [hd, hm]

/-- An offset in the NODE window names its word (R60). -/
theorem decodeOffset_node (n i w : Nat) (hi : i < 511) (h : w < 4) :
    decodeOffset n (at25 (0x2000 + 16 * i + 4 * w)) = some (.node i w) := by
  have hd : (0x2000 + 16 * i + 4 * w - 0x2000) / 16 = i := by omega
  have hm : (0x2000 + 16 * i + 4 * w - 0x2000) % 16 / 4 = w := by omega
  simp only [decodeOffset, toNat_at25 (show 0x2000 + 16 * i + 4 * w < 2 ^ 25 by omega)]
  split_ifs <;> first | omega | rw [hd, hm]

/-- An offset in the CODE window names its word (R61). -/
theorem decodeOffset_code (n : Nat) (x : Byte) (w : Nat) (h : w < 16) :
    decodeOffset n (at25 (0x4000 + 64 * x.toNat + 4 * w)) = some (.code x w) := by
  have hx := x.isLt
  have hd : (0x4000 + 64 * x.toNat + 4 * w - 0x4000) / 64 = x.toNat := by omega
  have hm : (0x4000 + 64 * x.toNat + 4 * w - 0x4000) % 64 / 4 = w := by omega
  simp only [decodeOffset, toNat_at25 (show 0x4000 + 64 * x.toNat + 4 * w < 2 ^ 25 by omega)]
  split_ifs <;> first | omega | simp [hd, hm]

/-- An offset in the BUF window names its word (R101). -/
theorem decodeOffset_buf (n k : Nat) (hn : n ≤ 2 ^ 24) (h : 4 * k < n) :
    decodeOffset n (at25 (0x1000000 + 4 * k)) = some (.buf k) := by
  have hd : (0x1000000 + 4 * k - 0x1000000) / 4 = k := by omega
  simp only [decodeOffset, Config.bufWindow, toNat_at25 (show 0x1000000 + 4 * k < 2 ^ 25 by omega)]
  split_ifs <;> first | omega | rw [hd]

theorem find_reg_some {a : Nat} (h : a ≤ 0x058) (h4 : a % 4 = 0) : ∃ r, Reg.all.find? (fun r => r.offset = a) = some r := by
  have : ∀ q : Fin 23, (Reg.all.find? fun r => r.offset = 4 * q.val).isSome = true := by decide
  have := this ⟨a / 4, by omega⟩
  rw [show 4 * (a / 4) = a by omega] at this
  exact Option.isSome_iff_exists.mp this

theorem find_reg_none {a : Nat} (h : 0x058 < a) : Reg.all.find? (fun r => r.offset = a) = none := by
  rw [List.find?_eq_none]
  intro r _
  have := r.offset_lt
  simp only [decide_eq_true_eq]
  omega

/-- The aligned offsets that name nothing are those R58 lists as unmapped. -/
theorem decodeOffset_eq_none {n : Nat} {off : Offset} (h4 : off.toNat % 4 = 0) :
    decodeOffset n off = none ↔ unmappedOffset n off.toNat := by
  have hlt := off.isLt
  generalize ha : off.toNat = a at *
  unfold decodeOffset unmappedOffset Config.bufWindow
  rw [ha]
  simp only
  by_cases h1 : a < 0x1000
  · rw [if_pos h1]
    by_cases h2 : a ≤ 0x058
    · obtain ⟨r, hr⟩ := find_reg_some h2 h4
      rw [hr]
      simp only [Option.map_some, reduceCtorEq, false_iff]
      omega
    · rw [find_reg_none (by omega)]
      simp only [Option.map_none, true_iff]
      omega
  · rw [if_neg h1]
    split_ifs <;> simp <;> omega

/-! ### Reads and writes -/

theorem hostRead_response {s : State} {off : Offset} {t : Target} (ha : aligned off = true)
    (hd : decodeOffset s.bufBytes off = some t) :
    readsAs s off (readTarget s (Config.drawWord s.draws) t) := by
  simp [readsAs, hostRead, readAnswer, ha, hd]

theorem hostWrite_mapped {s : State} {off : Offset} {t : Target} (ha : aligned off = true)
    (hd : decodeOffset s.bufBytes off = some t) (data : Word) (strb : BitVec 4) :
    hostWrite off data strb s = { writeTarget data strb s t with response := some (.write .okay) } := by
  simp [hostWrite, ha, hd]

theorem reads_reg (s : State) (r : Reg) : readsAs s (at25 r.offset) (readReg s (Config.drawWord s.draws) r) := by
  have h := r.offset_lt
  exact hostRead_response (aligned_at25 (by omega) h.2) (decodeOffset_reg _ r)

theorem writes_reg (s : State) (r : Reg) (data : Word) (strb : BitVec 4) :
    hostWrite (at25 r.offset) data strb s = { writeReg data strb s r with response := some (.write .okay) } := by
  have h := r.offset_lt
  exact hostWrite_mapped (aligned_at25 (by omega) h.2) (decodeOffset_reg _ r) data strb

/-! ### Lanes of the BUF window -/

theorem writeLanes_eq (m : Memory) (k : Nat) (data : Word) (strb : BitVec 4) :
    writeLanes m k data strb =
      (fun m => if strb.getLsbD 3 then m.write (4 * k + 3) (laneByte data 3) else m)
      ((fun m => if strb.getLsbD 2 then m.write (4 * k + 2) (laneByte data 2) else m)
      ((fun m => if strb.getLsbD 1 then m.write (4 * k + 1) (laneByte data 1) else m)
      (if strb.getLsbD 0 then m.write (4 * k) (laneByte data 0) else m))) := rfl

theorem wf_writeLanes {m : Memory} (k : Nat) (data : Word) (strb : BitVec 4) (h : m.wf = true) :
    (writeLanes m k data strb).wf = true := by
  have hstep : ∀ (m : Memory) (a : Nat) (v : Byte) (b : Bool), m.wf = true → (if b then m.write a v else m).wf = true := by
    intro m a v b hm
    split
    · exact Memory.wf_write _ _ _ hm
    · exact hm
  rw [writeLanes_eq]
  exact hstep _ _ _ _ (hstep _ _ _ _ (hstep _ _ _ _ (hstep _ _ _ _ h)))

theorem inside_writeLanes {m : Memory} {n k : Nat} (data : Word) (strb : BitVec 4) (h : m.inside n)
    (hk : 4 * k + 3 < n) : (writeLanes m k data strb).inside n := by
  have hstep : ∀ (m : Memory) (a : Nat) (v : Byte) (b : Bool), a < n → m.inside n →
      (if b then m.write a v else m).inside n := by
    intro m a v b ha hm
    split
    · exact Memory.inside_write hm ha
    · exact hm
  rw [writeLanes_eq]
  exact hstep _ _ _ _ (by omega) (hstep _ _ _ _ (by omega) (hstep _ _ _ _ (by omega) (hstep _ _ _ _ (by omega) h)))

/-- A BUF write stores the strobed lanes and nothing else (R101). -/
theorem read_writeLanes {m : Memory} (k : Nat) (data : Word) (strb : BitVec 4) (h : m.wf = true) (a : Nat) :
    (writeLanes m k data strb).read a =
      if 4 * k ≤ a ∧ a < 4 * k + 4 ∧ strb.getLsbD (a - 4 * k) = true then laneByte data (a - 4 * k) else m.read a := by
  have hwf : ∀ (m : Memory) (a : Nat) (v : Byte) (b : Bool), m.wf = true → (if b then m.write a v else m).wf = true := by
    intro m a v b hm
    split
    · exact Memory.wf_write _ _ _ hm
    · exact hm
  have hread : ∀ (m : Memory) (a b : Nat) (v : Byte) (c : Bool), m.wf = true →
      (if c then m.write b v else m).read a = if a = b ∧ c = true then v else m.read a := by
    intro m a b v c hm
    cases c
    · simp
    · simp only [if_true, and_true]; exact Memory.read_write _ _ _ _ hm
  rw [writeLanes_eq]
  simp only
  rw [hread _ _ _ _ _ (hwf _ _ _ _ (hwf _ _ _ _ (hwf _ _ _ _ h))), hread _ _ _ _ _ (hwf _ _ _ _ (hwf _ _ _ _ h)),
    hread _ _ _ _ _ (hwf _ _ _ _ h), hread _ _ _ _ _ h]
  rcases Nat.lt_or_ge a (4 * k) with h0 | h0
  · split_ifs <;> first | omega | rfl
  rcases Nat.lt_or_ge a (4 * k + 4) with h1 | h1
  · obtain ⟨j, rfl⟩ : ∃ j, a = 4 * k + j := ⟨a - 4 * k, by omega⟩
    have hj : j < 4 := by omega
    rw [show 4 * k + j - 4 * k = j by omega]
    interval_cases j <;> simp
  · split_ifs <;> first | omega | rfl

/-! ### Host transactions and resets keep the invariant -/

/-- The invariant speaks of none of the fields a host can move without touching `BUF`, a command or a pending bit. -/
theorem State.Inv.frame {s t : State} (h : s.Inv)
    (ht : t = { s with
      doneIE := t.doneIE, errIE := t.errIE, done := t.done, err := t.err, ovr := t.ovr, cmdLast := t.cmdLast,
      srcBase := t.srcBase, srcLen := t.srcLen, dstBase := t.dstBase, dstCap := t.dstCap,
      response := t.response, draws := t.draws, inputs := t.inputs })
    (hd : t.done = true → s.done = true) (he : t.err = true → s.err = true) : t.Inv := by
  rw [ht]
  refine ⟨h.bufBytes_legal, h.buf_wf, h.buf_inside, ?_, h.tree_valid, h.codes_valid, h.freq_valid, h.bits_valid⟩
  intro hb
  have := h.busy_pending hb
  exact ⟨by simpa [this.1] using hd, by simpa [this.2] using he⟩

theorem hostRead_inv {s : State} (h : s.Inv) (off : Offset) : (hostRead off s).Inv :=
  h.frame rfl id id

theorem resetWith_inv {s : State} (h : s.Inv) {m : Memory} (hw : m.wf = true) (hi : m.inside s.bufBytes) :
    (resetWith m s).Inv where
  bufBytes_legal := h.bufBytes_legal
  buf_wf := hw
  buf_inside := hi
  busy_pending := by intro hb; cases hb
  tree_valid := by intro hb; cases hb
  codes_valid := by intro hb; cases hb
  freq_valid := by intro hb; cases hb
  bits_valid := by intro hb; cases hb

theorem abandonedBuf_wf {s : State} (h : s.buf.wf = true) : (abandonedBuf s).wf = true := by
  unfold abandonedBuf
  split
  · exact Memory.wf_fill _ _ _ _ h
  · exact h

theorem abandonedBuf_inside {s : State} (h : s.Inv) : (abandonedBuf s).inside s.bufBytes := by
  unfold abandonedBuf
  split
  · by_cases hb : s.dstBase.toNat ≤ s.bufBytes
    · exact Memory.inside_fill h.buf_inside (by omega)
    · rw [show min (s.dstBase.toNat + s.dstCap.toNat) s.bufBytes - s.dstBase.toNat = 0 by omega]
      exact h.buf_inside
  · exact h.buf_inside

theorem softReset_inv {s : State} (h : s.Inv) : (softReset s).Inv :=
  resetWith_inv h (abandonedBuf_wf h.buf_wf) (abandonedBuf_inside h)

theorem hardReset_inv {s : State} (h : s.Inv) : (hardReset s).Inv := by
  have hi : Memory.inside [] s.bufBytes := by simp [Memory.inside]
  refine (resetWith_inv h (m := Memory.fill [] 0 s.bufBytes (Config.drawBuf s.draws)) (Memory.wf_fill _ _ _ _ rfl)
    (Memory.inside_fill hi (by omega))).frame ?_ id id
  rfl

/-- A write that is not dropped finds the engine idle (R358). -/
theorem drops_busy {s : State} {strb : BitVec 4} (h : ¬ s.drops strb = true) : s.busy = false := by
  unfold State.drops at h
  cases hb : s.busy
  · rfl
  · simp [hb] at h

/-- What a write to a register other than by a soft reset or an acceptance can move. -/
theorem writeTarget_cases (data : Word) (strb : BitVec 4) (s : State) (t : Target) :
    (t = .reg .ctrl ∧ asksSoftReset data strb = true ∧ writeTarget data strb s t = softReset s) ∨
    (t = .reg .cmd ∧ s.busy = false ∧ s.err = false ∧ writeTarget data strb s t = accept data s) ∨
    (∃ k, t = .buf k ∧ s.busy = false ∧
      writeTarget data strb s t = { s with buf := writeLanes s.buf k data strb }) ∨
    (∃ u, writeTarget data strb s t = u ∧
      u = { s with
        doneIE := u.doneIE, errIE := u.errIE, done := u.done, err := u.err, ovr := u.ovr,
        srcBase := u.srcBase, srcLen := u.srcLen, dstBase := u.dstBase, dstCap := u.dstCap } ∧
      (u.done = true → s.done = true) ∧ (u.err = true → s.err = true) ∧
      (s.busy = true → u.srcBase = s.srcBase ∧ u.srcLen = s.srcLen ∧ u.dstBase = s.dstBase ∧ u.dstCap = s.dstCap)) := by
  cases t with
  | freq x w => exact .inr (.inr (.inr ⟨s, rfl, rfl, id, id, fun _ => ⟨rfl, rfl, rfl, rfl⟩⟩))
  | node i w => exact .inr (.inr (.inr ⟨s, rfl, rfl, id, id, fun _ => ⟨rfl, rfl, rfl, rfl⟩⟩))
  | code x w => exact .inr (.inr (.inr ⟨s, rfl, rfl, id, id, fun _ => ⟨rfl, rfl, rfl, rfl⟩⟩))
  | buf k =>
    by_cases hb : s.drops strb = true
    · exact .inr (.inr (.inr ⟨dropWrite s, by simp [writeTarget, writeBuf, hb], rfl, id, id,
        fun _ => ⟨rfl, rfl, rfl, rfl⟩⟩))
    · exact .inr (.inr (.inl ⟨k, rfl, drops_busy hb, by simp [writeTarget, writeBuf, hb]⟩))
  | reg r =>
    have hop : ∀ (f : Word → State) (old : Word),
        (∀ v, f v = { s with
            doneIE := (f v).doneIE, errIE := (f v).errIE, done := (f v).done, err := (f v).err, ovr := (f v).ovr,
            srcBase := (f v).srcBase, srcLen := (f v).srcLen, dstBase := (f v).dstBase, dstCap := (f v).dstCap } ∧
          ((f v).done = true → s.done = true) ∧ ((f v).err = true → s.err = true)) →
        ∃ u, writeOperand f old data strb s = u ∧
        u = { s with
          doneIE := u.doneIE, errIE := u.errIE, done := u.done, err := u.err, ovr := u.ovr,
          srcBase := u.srcBase, srcLen := u.srcLen, dstBase := u.dstBase, dstCap := u.dstCap } ∧
        (u.done = true → s.done = true) ∧ (u.err = true → s.err = true) ∧
        (s.busy = true → u.srcBase = s.srcBase ∧ u.srcLen = s.srcLen ∧ u.dstBase = s.dstBase ∧
          u.dstCap = s.dstCap) := by
      intro f old hf
      by_cases hb : s.drops strb = true
      · exact ⟨dropWrite s, by simp [writeOperand, hb], rfl, id, id, fun _ => ⟨rfl, rfl, rfl, rfl⟩⟩
      · exact ⟨f (mergeLanes old data strb), by simp [writeOperand, hb], (hf _).1, (hf _).2.1, (hf _).2.2,
          fun h => absurd h (by simp [drops_busy hb])⟩
    cases r with
    | ctrl =>
      cases ha : asksSoftReset data strb
      · refine .inr (.inr (.inr ⟨writeEnables data strb s, by simp [writeTarget, writeReg, writeCtrl, ha], ?_⟩))
        unfold writeEnables
        split
        · exact ⟨rfl, id, id, fun _ => ⟨rfl, rfl, rfl, rfl⟩⟩
        · exact ⟨rfl, id, id, fun _ => ⟨rfl, rfl, rfl, rfl⟩⟩
      · exact .inl ⟨rfl, rfl, by simp [writeTarget, writeReg, writeCtrl, ha]⟩
    | status =>
      refine .inr (.inr (.inr ⟨writeStatus data strb s, rfl, ?_⟩))
      unfold writeStatus
      split
      · refine ⟨rfl, ?_, ?_, fun _ => ⟨rfl, rfl, rfl, rfl⟩⟩ <;> simp +contextual
      · exact ⟨rfl, id, id, fun _ => ⟨rfl, rfl, rfl, rfl⟩⟩
    | cmd =>
      by_cases hc : strb = 0b1111#4 ∧ s.busy = false ∧ s.err = false
      · exact .inr (.inl ⟨rfl, hc.2.1, hc.2.2, by simp [writeTarget, writeReg, writeCmd, hc]⟩)
      · exact .inr (.inr (.inr ⟨dropWrite s, by simp only [writeTarget, writeReg, writeCmd, if_neg hc], rfl, id, id,
          fun _ => ⟨rfl, rfl, rfl, rfl⟩⟩))
    | srcBase =>
      exact .inr (.inr (.inr (hop (fun v => { s with srcBase := v }) s.srcBase fun _ => ⟨rfl, id, id⟩)))
    | srcLen =>
      exact .inr (.inr (.inr (hop (fun v => { s with srcLen := v }) s.srcLen fun _ => ⟨rfl, id, id⟩)))
    | dstBase =>
      exact .inr (.inr (.inr (hop (fun v => { s with dstBase := v }) s.dstBase fun _ => ⟨rfl, id, id⟩)))
    | dstCap =>
      exact .inr (.inr (.inr (hop (fun v => { s with dstCap := v }) s.dstCap fun _ => ⟨rfl, id, id⟩)))
    | id | version | bufSize | errCause | errInfo | dstLen | hdrLen | padding | nsym
    | totalLo | totalHi | totalBits0 | totalBits1 | totalBits2 | root | nodes =>
      exact .inr (.inr (.inr ⟨s, rfl, rfl, id, id, fun _ => ⟨rfl, rfl, rfl, rfl⟩⟩))

/-- A BUF word that an offset names lies whole in `BUF`, whose size is a multiple of 4. -/
theorem decodeOffset_buf_lt {n : Nat} {off : Offset} {k : Nat} (hn : legalBufBytes n = true)
    (h : decodeOffset n off = some (.buf k)) : 4 * k + 3 < n := by
  simp only [legalBufBytes, Bool.and_eq_true, beq_iff_eq, decide_eq_true_eq] at hn
  unfold decodeOffset Config.bufWindow at h
  simp only at h
  split_ifs at h <;> simp only [Option.map_eq_some_iff, reduceCtorEq, and_false, exists_false, Option.some.injEq,
    Target.buf.injEq] at h
  omega

/-- Only its own offset names a register. -/
theorem decodeOffset_reg_inj {n : Nat} {off : Offset} {r : Reg} (h : decodeOffset n off = some (.reg r)) :
    off.toNat = r.offset := by
  unfold decodeOffset at h
  simp only at h
  split at h
  · cases hf : Reg.all.find? (fun r => r.offset = off.toNat) with
    | none => simp [hf] at h
    | some q =>
      simp only [hf, Option.map_some, Option.some.injEq, Target.reg.injEq] at h
      have := List.find?_some hf
      rw [decide_eq_true_eq] at this
      rw [← this, h]
  · split_ifs at h <;> simp at h

theorem accept_inv {s : State} (h : s.Inv) (he : s.err = false) (w : Word) : (accept w s).Inv where
  bufBytes_legal := h.bufBytes_legal
  buf_wf := h.buf_wf
  buf_inside := h.buf_inside
  busy_pending := fun _ => ⟨rfl, he⟩
  tree_valid := h.tree_valid
  codes_valid := h.codes_valid
  freq_valid := h.freq_valid
  bits_valid := h.bits_valid

theorem hostWrite_inv {s : State} (h : s.Inv) (off : Offset) (data : Word) (strb : BitVec 4) :
    (hostWrite off data strb s).Inv := by
  unfold hostWrite
  split
  · exact h.frame rfl id id
  · split
    · exact h.frame rfl id id
    · rename_i t ht
      rcases writeTarget_cases data strb s t with ⟨-, -, e⟩ | ⟨-, hb, he, e⟩ | ⟨k, rfl, hb, e⟩ | ⟨u, e, hu, hd, he, -⟩
      · rw [e]; exact (softReset_inv h).frame rfl id id
      · rw [e]; exact (accept_inv h he data).frame rfl id id
      · rw [e]
        exact ⟨h.bufBytes_legal, wf_writeLanes _ _ _ h.buf_wf,
          inside_writeLanes _ _ h.buf_inside (decodeOffset_buf_lt h.bufBytes_legal ht),
          h.busy_pending, h.tree_valid, h.codes_valid, h.freq_valid, h.bits_valid⟩
      · rw [e]
        have : u.Inv := by
          refine h.frame ?_ hd he
          rw [hu]
        exact this.frame rfl id id

end Sys2Proof.Machine
end

