-- ==== Sys2Proof/Laws/Script.lean ====
section
/-! SUPPORT. No command reads the list of inputs, so performing inputs one after the other is running the machine; what
one transaction of a script does, and what its loops do. -/

namespace Sys2Proof.Machine

/-! ### The list of inputs is only read by `step` -/

/-- The state with the list of inputs replaced. -/
def State.withInputs (l : List Input) (s : State) : State := { s with inputs := l }

/-- The outcome with the list of inputs replaced in its next state. -/
def withInputs (l : List Input) : Result → Result
  | .next t => .next (t.withInputs l)
  | .fault f => .fault f
  | .refused r => .refused r

/-- A checked command reads no list of inputs if its checks and its rest do not. -/
theorem checked_inputs {l : List Input} {cs cs' : List Check} {s : State} {k k' : Unit → Result} (hc : cs' = cs)
    (h : k' () = withInputs l (k ())) : checked cs' (s.withInputs l) k' = withInputs l (checked cs s k) := by
  subst hc
  unfold checked
  cases firstFailure cs' with
  | none => exact h
  | some e => rfl

theorem finishWalk_inputs (l : List Input) (w : Walk) (n : Nat) (s : State) :
    finishWalk w n (s.withInputs l) = withInputs l (finishWalk w n s) := by
  unfold finishWalk
  cases w.last <;> rfl

theorem execDerive_inputs (l : List Input) (s : State) :
    execDerive (s.withInputs l) = withInputs l (execDerive s) := by
  unfold execDerive
  refine checked_inputs rfl ?_
  rw [show deriveCodes (s.withInputs l).node (s.withInputs l).root = deriveCodes s.node s.root from rfl]
  cases deriveCodes s.node s.root <;> rfl

theorem execPack_inputs (l : List Input) (s : State) : execPack (s.withInputs l) = withInputs l (execPack s) := by
  unfold execPack
  refine checked_inputs rfl ?_
  rw [show firstAbsent (s.withInputs l).codeLen (s.withInputs l).srcBytes = firstAbsent s.codeLen s.srcBytes from rfl]
  cases firstAbsent s.codeLen s.srcBytes with
  | some j => rfl
  | none => exact checked_inputs rfl rfl

theorem execEncode_inputs (l : List Input) (s : State) :
    execEncode (s.withInputs l) = withInputs l (execEncode s) := by
  unfold execEncode
  refine checked_inputs rfl ?_
  simp only [State.inputTable_eq, show (s.withInputs l).inputTable = s.inputTable from rfl,
    show (s.withInputs l).draws = s.draws from rfl]
  cases deriveCodes (fillPool s.draws (buildTree s.inputTable).nodes) (buildTree s.inputTable).root with
  | none => rfl
  | some c => exact checked_inputs rfl rfl

theorem execParse_inputs (l : List Input) (s : State) : execParse (s.withInputs l) = withInputs l (execParse s) := by
  unfold execParse
  refine checked_inputs rfl ?_
  rw [show parseHeader (s.withInputs l).srcBytes = parseHeader s.srcBytes from rfl]
  cases parseHeader s.srcBytes <;> rfl

theorem execDecode_inputs (l : List Input) (s : State) :
    execDecode (s.withInputs l) = withInputs l (execDecode s) := by
  unfold execDecode
  refine checked_inputs rfl ?_
  rw [show parseHeader (s.withInputs l).srcBytes = parseHeader s.srcBytes from rfl]
  cases parseHeader s.srcBytes with
  | error e => rfl
  | ok h => exact checked_inputs rfl (finishWalk_inputs l _ _ (treeLoaded h s))

theorem execCount_inputs (l : List Input) (s : State) : execCount (s.withInputs l) = withInputs l (execCount s) := by
  unfold execCount
  exact checked_inputs rfl rfl

theorem execBuild_inputs (l : List Input) (s : State) : execBuild (s.withInputs l) = withInputs l (execBuild s) := by
  unfold execBuild
  exact checked_inputs rfl rfl

theorem execUnpack_inputs (l : List Input) (s : State) :
    execUnpack (s.withInputs l) = withInputs l (execUnpack s) := by
  unfold execUnpack
  exact checked_inputs rfl (finishWalk_inputs l _ _ s)

/-- No command reads or writes the list of inputs. -/
theorem exec_inputs (l : List Input) (i : Instr) (s : State) :
    exec i (s.withInputs l) = withInputs l (exec i s) := by
  cases i with
  | nop => rfl
  | clear => rfl
  | count => exact execCount_inputs l s
  | build => exact execBuild_inputs l s
  | derive => exact execDerive_inputs l s
  | pack => exact execPack_inputs l s
  | unpack => exact execUnpack_inputs l s
  | encode => exact execEncode_inputs l s
  | parse => exact execParse_inputs l s
  | decode => exact execDecode_inputs l s

theorem engineTurn_inputs (l : List Input) (s : State) :
    engineTurn (s.withInputs l) = withInputs l (engineTurn s) := by
  unfold engineTurn
  rw [show (s.withInputs l).busy = s.busy from rfl]
  cases s.busy with
  | false => rfl
  | true =>
    simp only [if_true, engineStep]
    rw [show (s.withInputs l).cmdLast = s.cmdLast from rfl]
    cases decodeCmd s.cmdLast with
    | error e => rfl
    | ok i => exact exec_inputs l i s

theorem writeOperand_inputs (l : List Input) (store : Word → State) (old data : Word) (strb : BitVec 4) (s : State) :
    writeOperand (fun v => (store v).withInputs l) old data strb (s.withInputs l) =
      (writeOperand store old data strb s).withInputs l := by
  unfold writeOperand
  rw [show (s.withInputs l).drops strb = s.drops strb from rfl]
  cases s.drops strb <;> rfl

theorem writeTarget_inputs (l : List Input) (data : Word) (strb : BitVec 4) (s : State) (t : Target) :
    writeTarget data strb (s.withInputs l) t = (writeTarget data strb s t).withInputs l := by
  cases t with
  | freq x w => rfl
  | node i w => rfl
  | code x w => rfl
  | buf k =>
    simp only [writeTarget, writeBuf]
    rw [show (s.withInputs l).drops strb = s.drops strb from rfl]
    cases s.drops strb <;> rfl
  | reg r =>
    cases r with
    | srcBase => exact writeOperand_inputs l (fun v => { s with srcBase := v }) s.srcBase data strb s
    | srcLen => exact writeOperand_inputs l (fun v => { s with srcLen := v }) s.srcLen data strb s
    | dstBase => exact writeOperand_inputs l (fun v => { s with dstBase := v }) s.dstBase data strb s
    | dstCap => exact writeOperand_inputs l (fun v => { s with dstCap := v }) s.dstCap data strb s
    | ctrl =>
      simp only [writeTarget, writeReg, writeCtrl, writeEnables]
      cases asksSoftReset data strb <;> cases strb.getLsbD 0 <;> rfl
    | status =>
      simp only [writeTarget, writeReg, writeStatus]
      cases strb.getLsbD 0 <;> rfl
    | cmd =>
      simp only [writeTarget, writeReg, writeCmd]
      rw [show (s.withInputs l).busy = s.busy from rfl, show (s.withInputs l).err = s.err from rfl]
      by_cases h : strb = 0b1111#4 ∧ s.busy = false ∧ s.err = false
      · rw [if_pos h, if_pos h]; rfl
      · rw [if_neg h, if_neg h]; rfl
    | id | version | bufSize | errCause | errInfo | dstLen | hdrLen | padding | nsym
    | totalLo | totalHi | totalBits0 | totalBits1 | totalBits2 | root | nodes => rfl

theorem hostWrite_inputs (l : List Input) (off : Offset) (data : Word) (strb : BitVec 4) (s : State) :
    hostWrite off data strb (s.withInputs l) = (hostWrite off data strb s).withInputs l := by
  unfold hostWrite
  rw [show (s.withInputs l).bufBytes = s.bufBytes from rfl]
  cases aligned off with
  | false => rfl
  | true =>
    cases decodeOffset s.bufBytes off with
    | none => rfl
    | some t => simp only [writeTarget_inputs]; rfl

/-- What the environment does next is no part of what it does now. -/
theorem perform_inputs (l : List Input) (x : Input) (s : State) :
    perform x (s.withInputs l) = withInputs l (perform x s) := by
  cases x with
  | read off => rfl
  | write off data strb => exact congrArg _ (hostWrite_inputs l off data strb s)
  | engineTurn => exact engineTurn_inputs l s
  | hardReset => rfl

/-! ### Performing is running the machine -/

theorem performAll_append (xs ys : List Input) (s : State) :
    performAll (xs ++ ys) s = match performAll xs s with
      | .next t => performAll ys t
      | .fault f => .fault f
      | .refused r => .refused r := by
  induction xs generalizing s with
  | nil => rfl
  | cons x xs ih =>
    simp only [List.cons_append, performAll]
    cases perform x s with
    | next t => exact ih t
    | fault f => rfl
    | refused r => rfl

/-- A step that gives a next state is the first of a run, for every machine. -/
theorem run_succ_of_next (M : Host.Core) {s t : M.State} (k : Nat) (h : M.step s = .next t) :
    M.run (k + 1) s = M.run k t := by
  simp only [Host.Core.run, h]

/-- So it is for HUFF. -/
theorem core_run_succ {s t : State} (k : Nat) (h : step s = .next t) :
    Sys2Proof.core.run (k + 1) s = Sys2Proof.core.run k t :=
  run_succ_of_next Sys2Proof.core (s := s) (t := t) k h

/-- Inputs that stand at the head of the list are performed in as many steps as they are. -/
theorem run_performAll (xs l : List Input) {s t : State} (h : performAll xs s = .next t) :
    Sys2Proof.core.run xs.length (s.withInputs (xs ++ l)) = .next (t.withInputs l) := by
  induction xs generalizing s with
  | nil => cases h; rfl
  | cons x xs ih =>
    simp only [performAll] at h
    cases hx : perform x s with
    | next u =>
      rw [hx] at h
      have hp : step (s.withInputs (x :: xs ++ l)) = .next (u.withInputs (xs ++ l)) :=
        (perform_inputs (xs ++ l) x s).trans (by rw [hx]; rfl)
      exact (core_run_succ xs.length hp).trans (ih h)
    | fault f => rw [hx] at h; cases h
    | refused r => rw [hx] at h; cases h

/-! ### Playing -/

/-- What a play has done leads from s to where it stands. -/
def Play.reachedFrom (s : State) (q : Play) : Prop := performAll q.done s = .next q.state

/-- So it does at the end of the playing, however it ends. -/
def PlayEnd.reachedFrom (s : State) : PlayEnd → Prop
  | .ended q | .wrong q | .waiting q => q.reachedFrom s
  | .stopped => True

theorem Play.transact_reachedFrom {s : State} {x : Input} {q q' : Play} (hq : q.reachedFrom s)
    (h : q.transact x = some q') : q'.reachedFrom s := by
  unfold Play.transact at h
  cases hp : performAll (q.due x) q.state with
  | next t =>
    simp only [hp, Option.some.injEq] at h
    subst h
    simp only [Play.reachedFrom, performAll_append, show performAll q.done s = .next q.state from hq, hp]
  | fault f => simp [hp] at h
  | refused r => simp [hp] at h

theorem Action.repeatUntil_reachedFrom {s : State} (a : Action) (tries : Nat) {q : Play} (hq : q.reachedFrom s) :
    (a.repeatUntil tries q).reachedFrom s := by
  induction tries generalizing q with
  | zero => exact hq
  | succ tries ih =>
    unfold Action.repeatUntil
    cases ht : q.transact a.transaction with
    | none => trivial
    | some q' =>
      have hq' := Play.transact_reachedFrom hq ht
      cases hm : q'.meets a with
      | true => simp only [hm, if_true]; exact hq'
      | false => simp only [hm, Bool.false_eq_true, if_false]; exact ih hq'

theorem Action.once_reachedFrom {s : State} (a : Action) {q : Play} (hq : q.reachedFrom s) :
    (a.once q).reachedFrom s := by
  unfold Action.once
  cases ht : q.transact a.transaction with
  | none => trivial
  | some q' =>
    have hq' := Play.transact_reachedFrom hq ht
    cases hm : q'.meets a <;> simp only [hm, if_true, Bool.false_eq_true, if_false] <;> exact hq'

theorem Action.play_reachedFrom {s : State} (a : Action) (tries : Nat) {q : Play} (hq : q.reachedFrom s) :
    (a.play tries q).reachedFrom s := by
  unfold Action.play
  split
  · exact a.repeatUntil_reachedFrom tries hq
  · exact a.once_reachedFrom hq

/-- Playing actions performs what the play records, in that order. -/
theorem playActions_reachedFrom {s : State} (tries : Nat) (as : List Action) {q : Play} (hq : q.reachedFrom s) :
    (playActions tries as q).reachedFrom s := by
  induction as generalizing q with
  | nil => exact hq
  | cons a as ih =>
    have hp := a.play_reachedFrom tries hq
    unfold playActions
    cases ha : a.play tries q with
    | ended q' => rw [ha] at hp; exact ih hp
    | wrong q' => rw [ha] at hp; exact hp
    | waiting q' => rw [ha] at hp; exact hp
    | stopped => trivial

theorem Play.start_reachedFrom (s : State) (turns : List Bool) : (Play.start s turns).reachedFrom s := rfl

/-! ### `poll` -/

/-- What `poll` waits for is a read whose masked data is the value. -/
theorem Play.meets_poll (p : Place) (mask val : Word) (q : Play) : q.meets (.poll p mask val) = true ↔
    ∃ r data, q.state.response = some (.read r data) ∧ data &&& mask = val := by
  unfold Play.meets
  cases h : q.state.response with
  | none => simp
  | some x => cases x <;> simp [Action.accepts]

theorem Action.repeatUntil_succ (a : Action) (tries : Nat) (q : Play) : a.repeatUntil (tries + 1) q =
    match q.transact a.transaction with
    | none => .stopped
    | some q' => if q'.meets a then .ended q' else a.repeatUntil tries q' := rfl

/-- A loop ends after the first of its transactions whose answer is accepted (R171). -/
theorem Action.repeatUntil_ended {a : Action} {tries : Nat} {q q' : Play} :
    a.repeatUntil tries q = .ended q' ↔ ∃ n < tries, a.times (n + 1) q = some q' ∧ q'.meets a = true ∧
      ∀ k < n, ∃ p, a.times (k + 1) q = some p ∧ p.meets a = false := by
  induction tries generalizing q with
  | zero => simp [Action.repeatUntil]
  | succ tries ih =>
    rw [Action.repeatUntil_succ]
    cases ht : q.transact a.transaction with
    | none => simp [Action.times, ht]
    | some p =>
      have htimes : ∀ k, a.times (k + 1) q = a.times k p := fun k => by simp [Action.times, ht]
      simp only [htimes]
      cases hm : p.meets a with
      | true =>
        simp only [if_true, PlayEnd.ended.injEq]
        constructor
        · rintro rfl
          exact ⟨0, by omega, rfl, hm, by omega⟩
        · rintro ⟨n, -, hn, -, hk⟩
          cases n with
          | zero => exact Option.some.inj hn
          | succ n =>
            obtain ⟨p', hp', hf⟩ := hk 0 (by omega)
            cases Option.some.inj hp'
            rw [hm] at hf
            cases hf
      | false =>
        simp only [Bool.false_eq_true, if_false]
        rw [ih]
        constructor
        · rintro ⟨n, hn, h1, h2, h3⟩
          refine ⟨n + 1, by omega, h1, h2, fun k hk => ?_⟩
          cases k with
          | zero => exact ⟨p, rfl, hm⟩
          | succ k => exact h3 k (by omega)
        · rintro ⟨n, hn, h1, h2, h3⟩
          cases n with
          | zero =>
            cases Option.some.inj h1
            rw [hm] at h2
            cases h2
          | succ n => exact ⟨n, by omega, h1, h2, fun k hk => h3 (k + 1) (by omega)⟩

/-! ### The lanes of `wrbuf` and `rdbuf` -/

theorem mem_coveredLanes (a n k j : Nat) : j ∈ coveredLanes a n k ↔ j < 4 ∧ a ≤ 4 * k + j ∧ 4 * k + j < a + n := by
  simp [coveredLanes]
  omega

/-- A bit of words put together by or. -/
theorem getLsbD_foldl_or {w : Nat} (f : Nat → BitVec w) (l : List Nat) (x : BitVec w) (i : Nat) :
    (l.foldl (fun w j => w ||| f j) x).getLsbD i = (x.getLsbD i || l.any fun j => (f j).getLsbD i) := by
  induction l generalizing x with
  | nil => simp
  | cons a l ih => rw [List.foldl_cons, ih]; simp [Bool.or_assoc]

/-- The strobe of lane j is set exactly when its byte is one of those given (R171). -/
theorem getLsbD_coveredStrobes (a n k j : Nat) (h : j < 4) :
    (coveredStrobes a n k).getLsbD j = decide (a ≤ 4 * k + j ∧ 4 * k + j < a + n) := by
  have hf : ∀ b, (BitVec.ofNat 4 (2 ^ b)).getLsbD j = decide (j = b) := fun b => by
    rw [BitVec.getLsbD_ofNat, Nat.testBit_two_pow]
    simp only [h, decide_true, Bool.true_and, eq_comm]
  unfold coveredStrobes
  rw [getLsbD_foldl_or, Bool.eq_iff_iff]
  simp only [hf]
  simp [mem_coveredLanes, h]

/-- Lane j holds the given byte, and 0 where none is given (R101, R171). -/
theorem laneByte_coveredData (a : Nat) (bytes : List Byte) (k j : Nat) (h : j < 4) :
    laneByte (coveredData a bytes k) j =
      if a ≤ 4 * k + j ∧ 4 * k + j < a + bytes.length then bytes.getD (4 * k + j - a) 0 else 0#8 := by
  refine BitVec.eq_of_getLsbD_eq fun i hi => ?_
  have hf : ∀ b, (BitVec.ofNat 32 ((bytes.getD (4 * k + b - a) 0).toNat * 2 ^ (8 * b))).getLsbD (8 * j + i) =
      (decide (j = b) && (bytes.getD (4 * k + j - a) 0).getLsbD i) := fun b => by
    rw [BitVec.getLsbD_ofNat, Nat.testBit_mul_two_pow]
    rcases Nat.lt_trichotomy j b with hl | rfl | hl
    · simp [Nat.ne_of_lt hl, show ¬ 8 * b ≤ 8 * j + i by omega]
    · simp [show 8 * j + i < 32 by omega, BitVec.testBit_toNat]
    · rw [Nat.testBit_lt_two_pow (lt_of_lt_of_le (bytes.getD (4 * k + b - a) 0).isLt
        (Nat.pow_le_pow_right (by omega) (show 8 ≤ 8 * j + i - 8 * b by omega)))]
      simp [Nat.ne_of_gt hl]
  rw [laneByte_getLsbD _ _ _ hi]
  unfold coveredData
  rw [getLsbD_foldl_or, Bool.eq_iff_iff]
  by_cases hc : a ≤ 4 * k + j ∧ 4 * k + j < a + bytes.length
  · rw [if_pos hc]
    simp only [hf]
    simp [mem_coveredLanes, h, hc]
  · rw [if_neg hc]
    simp only [hf, List.any_eq_true, mem_coveredLanes, Bool.and_eq_true, decide_eq_true_eq, Bool.or_eq_true]
    simp only [BitVec.ofNat_eq_ofNat, BitVec.getLsbD_zero, Bool.false_eq_true, false_or, iff_false]
    rintro ⟨b, ⟨-, h1, h2⟩, rfl, -⟩
    exact hc ⟨h1, h2⟩

end Sys2Proof.Machine
end

