-- ==== Sys2Proof/Tests/Slice0.lean ====
section
/-! SUPPORT. Tests of decoding and well-formedness, one-step tests of each command from the vectors of
95_test_vectors.md, and for each statement with hypotheses a state and operands that meet them. -/

open Sys2Proof Sys2Proof.Machine

namespace Sys2Proof.Tests

-- One theorem after the other: run side by side, the many kernel evaluations below ask for too many threads.
set_option Elab.async false

/-! ### The word of each command, written out from R150 and R153 -/

theorem test_decode_nop : decodeCmd 0b000000000000000000000000_00000000#32 = .ok .nop := by decide
theorem test_decode_clear : decodeCmd 0b000000000000000000000000_00000001#32 = .ok .clear := by decide
theorem test_decode_count : decodeCmd 0b000000000000000000000000_00000010#32 = .ok .count := by decide
theorem test_decode_build : decodeCmd 0b000000000000000000000000_00000011#32 = .ok .build := by decide
theorem test_decode_derive : decodeCmd 0b000000000000000000000000_00000100#32 = .ok .derive := by decide
theorem test_decode_pack : decodeCmd 0b000000000000000000000000_00000101#32 = .ok .pack := by decide
theorem test_decode_unpack : decodeCmd 0b000000000000000000000000_00000110#32 = .ok .unpack := by decide
theorem test_decode_encode : decodeCmd 0b000000000000000000000000_00000111#32 = .ok .encode := by decide
theorem test_decode_parse : decodeCmd 0b000000000000000000000000_00001000#32 = .ok .parse := by decide
theorem test_decode_decode : decodeCmd 0b000000000000000000000000_00001001#32 = .ok .decode := by decide

/-- R154: the first unassigned opcode, and the opcode of NOP with a reserved bit set (TH4, TH5). -/
theorem test_decode_illegal : decodeCmd 0x0000000A#32 = .error .unassignedOpcode ∧
    decodeCmd 0x000000FF#32 = .error .unassignedOpcode ∧ decodeCmd 0x00000100#32 = .error .reservedBits ∧
    decodeCmd 0x80000009#32 = .error .reservedBits := by decide

/-- The table's bit numbering: 8 or 32 bits of the word. -/
theorem test_decode_table_word : decodeTableWord 32 0x9 = some .decode ∧ decodeTableWord 8 0x4 = some .derive ∧
    decodeTableWord 32 0xA = none ∧ decodeTableWord 40 0x100000001 = none := by decide

/-! ### Ill-formed terms are refused -/

/-- The reserved bits are checked. -/
theorem test_wf_refuses_reserved_bits : wordWellFormed 0x00000100#32 = false ∧ wordWellFormed 0x80000001#32 = false := by
  decide

/-- The opcode is checked. -/
theorem test_wf_refuses_opcode : wordWellFormed 0x0000000A#32 = false ∧ wordWellFormed 0x00000009#32 = true := by decide

/-- The parameter's multiple of 4 and both ends of its range are checked (R11). -/
theorem test_wf_refuses_buf_bytes : legalBufBytes 6 = false ∧ legalBufBytes 0 = false ∧
    legalBufBytes (2 ^ 24 + 4) = false ∧ legalBufBytes 4 = true ∧ legalBufBytes (2 ^ 24) = true := by decide

/-- The indices of script names are checked (R170). -/
theorem test_wf_refuses_places : Place.wellFormed 64 (.buf 64) = false ∧ Place.wellFormed 64 (.freq 256) = false ∧
    Place.wellFormed 64 (.node 511 0) = false ∧ Place.wellFormed 64 (.node 0 4) = false ∧
    Place.wellFormed 64 (.code 256 0) = false ∧ Place.wellFormed 64 (.code 0 16) = false := by decide

/-! ### States -/

/-- The state a step or a command ends in. -/
def nextOf (r : Result) : State :=
  match r with
  | .next t => t
  | .fault _ | .refused _ => State.reset

/-- There is a next state. -/
def isNext (r : Result) : Bool :=
  match r with
  | .next _ => true
  | .fault _ | .refused _ => false

theorem next_of {r : Result} (h : isNext r = true) : r = .next (nextOf r) := by
  cases r with
  | next t => rfl
  | fault f => simp [isNext] at h
  | refused f => simp [isNext] at h

/-- The state a command ends in. -/
def after (i : Instr) (s : State) : State := nextOf (exec i s)

/-- The command gives a next state. -/
def ends (i : Instr) (s : State) : Bool := isNext (exec i s)

theorem exec_after {i : Instr} {s : State} (h : ends i s = true) : exec i s = .next (after i s) := next_of h

/-- The reset state with bytes in `BUF` and the operand registers set to source and destination. -/
def given (at0 : Nat) (bytes : List Byte) (src len dst cap : Nat) : State := { State.reset with
  buf := Memory.writeBytes [] at0 bytes, srcBase := BitVec.ofNat 32 src, srcLen := BitVec.ofNat 32 len,
  dstBase := BitVec.ofNat 32 dst, dstCap := BitVec.ofNat 32 cap }

/-- A state with the table of the listed symbols and counts. -/
def withTable (l : List (Byte × Nat)) (s : State) : State := { s with
  freq := symTable fun x => BitVec.ofNat 64 ((l.lookup x).getD 0)
  total := BitVec.ofNat 64 (l.map Prod.snd).sum, nsym := BitVec.ofNat 9 l.length, freqValid := true }

/-- A state with nodes in its first slots. -/
def withNodes (ns : List Node) (root : NodeIndex) (s : State) : State := { s with
  node := fillPool 0 ns, root := root, nodes := BitVec.ofNat 10 ns.length, treeValid := true }

/-- A state with the codes of the listed symbols: length and bits. -/
def withCodes (l : List (Byte × Nat × Nat)) (s : State) : State := { s with
  codeLen := symTable fun x => BitVec.ofNat 8 ((l.lookup x).elim 0 Prod.fst)
  codeBits := symTable fun x => BitVec.ofNat 255 ((l.lookup x).elim 0 Prod.snd), codesValid := true }

def abracadabra : List Byte := [0x61, 0x62, 0x72, 0x61, 0x63, 0x61, 0x64, 0x61, 0x62, 0x72, 0x61]

/-- The table of "abracadabra" (TF3). -/
def abraTable : List (Byte × Nat) := [(0x61, 5), (0x62, 2), (0x63, 1), (0x64, 1), (0x72, 2)]

/-- Its tree (TB7). -/
def abraNodes : List Node :=
  [leafNode 0x61 5, leafNode 0x62 2, leafNode 0x63 1, leafNode 0x64 1, leafNode 0x72 2] ++
  [mergeNode 2 2 3, mergeNode 4 1 4, mergeNode 6 5 6, mergeNode 11 0 7]

/-- Its codes (TB7, TC1). -/
def abraCodes : List (Byte × Nat × Nat) :=
  [(0x61, 1, 0), (0x62, 3, 6), (0x63, 3, 4), (0x64, 3, 5), (0x72, 3, 7)]

/-- Stream TE1, of "aaaa". -/
def te1 : List Byte := [4, 0, 0, 0, 0, 0, 0, 0, 4, 0, 1, 0x61, 0, 0, 0, 0, 0, 0, 0, 4, 0]

/-- Stream TE2, of "abracadabra". -/
def te2 : List Byte :=
  [1, 0, 0, 0, 0, 0, 0, 0, 11, 0, 5, 0x61, 0, 0, 0, 0, 0, 0, 0, 5, 0x62, 0, 0, 0, 0, 0, 0, 0, 2] ++
  [0x63, 0, 0, 0, 0, 0, 0, 0, 1, 0x64, 0, 0, 0, 0, 0, 0, 0, 1, 0x72, 0, 0, 0, 0, 0, 0, 0, 2, 0x6E, 0x8A, 0xDC]

/-- What `STATUS` reads as in an idle state. -/
def status (s : State) : Nat := (s.statusWord 0).toNat

/-! ### The commands, by the vectors of 95_test_vectors.md -/

/-- TH2. -/
theorem test_nop_status : status (after .nop { State.reset with doneIE := true }) = 0x82 := by decide +kernel

/-- TF10: a CLEAR after BUILD and DERIVE keeps `NODES` and `ROOT` and clears two validity bits. -/
theorem test_clear_status :
    (let s := after .clear (withCodes abraCodes (withNodes abraNodes 8 (withTable abraTable State.reset)))
     (status s, s.nodes, s.root, s.total, s.nsym, symAt s.freq 0x61) = (0x12, 9#10, 8#9, 0#64, 0#9, 0#64)) := by
  decide +kernel

/-- TF3. -/
theorem test_count_table :
    (let s := after .count (withTable [] (given 0 abracadabra 0 11 0 0))
     (status s, s.total, s.nsym, [0x61, 0x62, 0x63, 0x64, 0x72, 0x78].map fun x => (symAt s.freq x).toNat) =
       (0x12, 11#64, 5#9, [5, 2, 1, 1, 2, 0])) := by decide +kernel

/-- TF9: no count passes 2^64 − 1. -/
theorem test_count_overflow :
    (let s := after .count (withTable [(0x61, 2 ^ 64 - 1)] (given 0 [] 0 1 0 0))
     (s.errCause, s.errInfo, s.total.toNat) = (.freqOverflow, 0#32, 2 ^ 64 - 1)) := by decide +kernel

/-- TB7. -/
theorem test_build_tree :
    (let s := after .build (withTable abraTable State.reset)
     (s.nodes, s.root, (List.range 9).map fun i => s.node[i]?) = (9#10, 8#9, abraNodes.map some)) := by decide +kernel

/-- TB6: a leaf is taken before a merged node of its frequency. -/
theorem test_build_tie :
    (let s := after .build (withTable [(0x61, 1), (0x62, 1), (0x63, 2)] State.reset)
     (s.nodes, s.root, s.node[3]?, s.node[4]?) =
       (5#10, 4#9, some (mergeNode 2 0 1), some (mergeNode 4 2 3))) := by decide +kernel

/-- TC1. -/
theorem test_derive_codes :
    (let s := after .derive (withNodes abraNodes 8 (withTable abraTable State.reset))
     (status s, s.totalBits, [0x61, 0x62, 0x63, 0x64, 0x72, 0x78].map fun x =>
        ((symAt s.codeLen x).toNat, (symAt s.codeBits x).toNat)) =
       (0x72, 23#72, [(1, 0), (3, 6), (3, 4), (3, 5), (3, 7), (0, 0)])) := by decide +kernel

/-- TC4. -/
theorem test_derive_needs_tree :
    (let s := after .derive (withTable [] State.reset)
     (s.errCause, s.errInfo) = (.sequence, 0x2#32)) := by decide +kernel

/-- TK1. -/
theorem test_pack_bytes :
    (let s := after .pack (withCodes abraCodes (given 0 abracadabra 0 11 0x300 0x100))
     (s.buf.readBytes 0x2FF 5, s.dstLen, s.padding) = ([0, 0x6E, 0x8A, 0xDC, 0], 3#32, 1#3)) := by decide +kernel

/-- TK5. -/
theorem test_pack_absent :
    (let s := after .pack (withCodes abraCodes (given 0x20 [0x61, 0x62, 0x78] 0x20 3 0x300 0x100))
     (s.errCause, s.errInfo, s.buf.readBytes 0x300 1) = (.symbolAbsent, 2#32, [0])) := by decide +kernel

/-- TK9. -/
theorem test_unpack_bytes :
    (let s := after .unpack { withNodes abraNodes 8 (withTable abraTable
        (given 0x300 [0x6E, 0x8A, 0xDC] 0x300 3 0x400 0x100)) with padding := 1#3 }
     (s.err, s.dstLen, s.buf.readBytes 0x400 12) = (false, 11#32, abracadabra ++ [0])) := by decide +kernel

/-- TK11: the walk error keeps the seven symbols and sets `DST_LEN` to 0. -/
theorem test_unpack_short :
    (let s := after .unpack { withNodes abraNodes 8 (withTable abraTable
        (given 0x300 [0x6E, 0x8A, 0xDC] 0x300 2 0x400 0x100)) with padding := 1#3 }
     (s.errCause, s.errInfo, s.dstLen, s.buf.readBytes 0x400 8) =
       (.fmtCount, 7#32, 0#32, abracadabra.take 7 ++ [0])) := by decide +kernel

/-- TE2. -/
theorem test_encode_stream :
    (let s := after .encode (given 0 abracadabra 0 11 0x100 0x100)
     (status s, s.dstLen, s.hdrLen, s.padding, s.totalBits, s.buf.readBytes 0x100 60) =
       (0x72, 59#32, 56#32, 1#3, 23#72, te2 ++ [0])) := by decide +kernel

/-- TE12. -/
theorem test_encode_capacity :
    (let s := after .encode (given 0 abracadabra 0 11 0x100 58)
     (status s, s.errCause, s.errInfo, s.buf.readBytes 0x100 1, s.dstLen) =
       (0x06, .dstOverflow, 59#32, [0], 0#32)) := by decide +kernel

/-- TP1. -/
theorem test_parse_table :
    (let s := after .parse (given 0x100 te1 0x100 21 0 0)
     (status s, (symAt s.freq 0x61).toNat, s.total, s.nsym, s.padding, s.hdrLen) =
       (0x12, 4, 4#64, 1#9, 4#3, 20#32)) := by decide +kernel

/-- TD16, as PARSE: entries out of order. -/
theorem test_parse_order :
    (let s := after .parse (given 0x100 (te2.set 20 0x61) 0x100 59 0 0)
     (s.errCause, s.errInfo, s.freqValid) = (.fmtTableOrder, 1#32, false)) := by decide +kernel

/-- TD1: the truncated stream of S4. -/
theorem test_decode_truncated :
    (let s := after .decode (given 0x100 te2 0x100 58 0x200 0x100)
     (status s, s.errCause, s.errInfo, s.dstLen, s.buf.readBytes 0x200 8) =
       (0x36, .fmtCount, 7#32, 0#32, abracadabra.take 7 ++ [0]) ∧
     (s.total, s.padding, s.hdrLen) = (11#64, 1#3, 56#32)) := by decide +kernel

/-- TD22: the values of the padding bits do not matter. -/
theorem test_decode_padding_values :
    (let s := after .decode (given 0x100 (te1.set 20 0x0F) 0x100 21 0x200 0x100)
     (status s, s.dstLen, s.buf.readBytes 0x200 5) = (0x32, 4#32, [0x61, 0x61, 0x61, 0x61, 0])) := by decide +kernel

/-! ### Host transactions, by the same vectors -/

/-- TH10, TH9. -/
theorem test_bus_slverr : ∀ off ∈ [0x002, 0x05C, 0x1800, 0x3FF0, 0x1010000],
    (hostRead (at25 off) State.reset).response = some (.read .slverr 0#32) := by decide +kernel

/-- TH12, TH13: byte lanes of a register and of `BUF`. -/
theorem test_bus_lanes : (hostWrite (at25 0x020) 0xAABBCCDD 0b0101 State.reset).srcBase = 0x00BB00DD#32 ∧
    (hostWrite (at25 0x1000000) 0x61726261 0b1111 State.reset).buf.readBytes 0 5 = [0x61, 0x62, 0x72, 0x61, 0] := by
  decide +kernel

/-- P3: three words of the windows. -/
theorem test_bus_windows :
    (let s := withCodes abraCodes (withNodes abraNodes 8 (withTable abraTable State.reset))
     [0x1308, 0x2084, 0x58A0].map (fun off => (hostRead (at25 off) s).response) =
       [some (.read .okay 5#32), some (.read .okay 0x00070000#32), some (.read .okay 6#32)]) := by decide +kernel

/-! ### A state with a table, its tree and its codes: the two symbols "a" and "b", once each (TB4) -/

def abFreq : SymTable (BitVec 64) := symTable fun x => if x = 0x61#8 ∨ x = 0x62#8 then 1#64 else 0#64

def abNodes : List Node := [leafNode 0x61#8 1#64, leafNode 0x62#8 1#64, mergeNode 2 0#9 1#9]

def abPool : Vector Node 511 := fillPool 0 abNodes

def abBook : CodeBook := (deriveCodes abPool 2#9).getD CodeBook.empty

/-- "ab" stands at `BUF[0..1]` and its payload 40 at `BUF[8]` (TE4). -/
def abState (src len dst cap pad : Nat) : State := { State.reset with
  buf := [(0, 0x61#8), (1, 0x62#8), (8, 0x40#8)], freq := abFreq, total := 2#64, nsym := 2#9
  node := abPool, root := 2#9, nodes := 3#10, codeLen := abBook.len, codeBits := abBook.bits, totalBits := 2#72
  freqValid := true, treeValid := true, codesValid := true
  srcBase := BitVec.ofNat 32 src, srcLen := BitVec.ofNat 32 len, dstBase := BitVec.ofNat 32 dst
  dstCap := BitVec.ofNat 32 cap, padding := BitVec.ofNat 3 pad }

theorem ab_tree : buildTree abFreq = { nodes := abNodes, root := 2#9 } := by decide +kernel

theorem ab_codes : deriveCodes abPool 2#9 = some abBook := by
  have h : (deriveCodes abPool 2#9).isSome = true := by decide +kernel
  unfold abBook
  cases hd : deriveCodes abPool 2#9 with
  | none => rw [hd] at h; simp at h
  | some c => rfl

theorem ab_bits : codedBits abFreq abBook.len = 2 := by decide +kernel

theorem ab_sum : tableSum abFreq = 2 := by decide +kernel

theorem ab_present : presentCount abFreq = 2 := by decide +kernel

theorem ab_pool : poolHolds abPool (buildTree abFreq) := by
  rw [ab_tree]
  unfold poolHolds
  decide +kernel

theorem ab_inv (src len dst cap pad : Nat) : (abState src len dst cap pad).Inv where
  bufBytes_legal := show legalBufBytes 65536 = true by decide
  buf_wf := show Memory.wf [(0, 0x61#8), (1, 0x62#8), (8, 0x40#8)] = true by decide
  buf_inside := show ∀ c ∈ ([(0, 0x61#8), (1, 0x62#8), (8, 0x40#8)] : Memory), c.1 < 65536 by decide
  busy_pending := fun h => Bool.noConfusion h
  tree_valid := fun _ => ⟨rfl, by rw [show (abState src len dst cap pad).freq = abFreq from rfl, ab_tree]; rfl, by
    rw [show (abState src len dst cap pad).freq = abFreq from rfl, ab_tree]; rfl, ab_pool⟩
  codes_valid := fun _ => ⟨rfl, ab_codes⟩
  freq_valid := fun _ => ⟨ab_sum.symm, ab_present.symm⟩
  bits_valid := fun _ => ab_bits.symm

/-- The same with validity bits taken away, which stand in this order. -/
def abOnly (f t c : Bool) (s : State) : State := { s with freqValid := f, treeValid := t, codesValid := c }

theorem ab_inv_free : (abOnly true false false (abState 0 2 16 64 0)).Inv :=
  ⟨by decide, by decide, by decide, fun h => Bool.noConfusion h, fun h => Bool.noConfusion h,
    fun h => Bool.noConfusion h, fun _ => ⟨ab_sum.symm, ab_present.symm⟩, fun h => Bool.noConfusion h⟩

/-- A state with bytes in `BUF` and no tables meets the invariant. -/
theorem given_inv {at0 src len dst cap : Nat} {bytes : List Byte}
    (hw : (Memory.writeBytes [] at0 bytes).wf = true) (hi : ∀ c ∈ Memory.writeBytes [] at0 bytes, c.1 < 65536) :
    (given at0 bytes src len dst cap).Inv :=
  ⟨(by decide : legalBufBytes 65536 = true), hw, hi, fun h => Bool.noConfusion h, fun h => Bool.noConfusion h, fun h => Bool.noConfusion h,
    fun h => Bool.noConfusion h, fun h => Bool.noConfusion h⟩

/-- The one symbol "a", four times (TB2). -/
def aFreq : SymTable (BitVec 64) := symTable fun x => if x = 0x61#8 then 4#64 else 0#64

theorem a_present : presentCount aFreq = 1 := by decide +kernel

/-- The number of symbols of positive count is `NSYM` (R44). -/
theorem count_present (F : SymTable (BitVec 64)) :
    (symbols.filter fun x => decide (0 < (symAt F x).toNat)).length = presentCount F := by
  unfold presentCount
  rw [present_eq]
  congr 2
  funext x
  rw [Bool.eq_iff_iff]
  simp only [decide_eq_true_eq, bne_iff_ne, ne_eq, ← BitVec.toNat_inj, BitVec.toNat_ofNat]
  omega

theorem srcOk_of {s : State} (h : s.srcInRange = true) : s.srcOk := (srcInRange_iff s).mp h
theorem not_srcOk {s : State} (h : s.srcInRange = false) : ¬ s.srcOk := fun e => by
  rw [(srcInRange_iff s).mpr e] at h; simp at h
theorem dstOk_of {s : State} (h : s.dstInRange = true) : s.dstOk := (dstInRange_iff s).mp h
theorem not_dstOk {s : State} (h : s.dstInRange = false) : ¬ s.dstOk := fun e => by
  rw [(dstInRange_iff s).mpr e] at h; simp at h
theorem not_apart {s : State} (h : s.overlap = true) : ¬ s.apart := fun e => by
  rw [(overlap_iff s).mpr e] at h; simp at h
theorem rangesOk_of {s : State} (h : firstFailure s.rangeChecks = none) : s.rangesOk := (rangeChecks_none s).mp h

/-! ### Witnesses: states and operands that meet the hypotheses, clause by clause -/

/-- A state with a command word in flight. -/
def busyWith (w : Word) (xs : List Input) (s : State) : State := { accept w s with inputs := xs }

theorem witness_WordsSelectCommandsByTheirOpcode : Instr.wellFormed .decode = true ∧
    (0x100#32).extractLsb' 8 24 ≠ 0#24 ∧ (0x0A#32).extractLsb' 8 24 = 0#24 ∧
    0x0A ≤ ((0x0A#32).extractLsb' 0 8).toNat ∧ ¬ 0x0A ≤ ((0x09#32).extractLsb' 0 8).toNat := by decide

theorem witness_IllegalWordsCompleteWithIllegalCmd :
    (∀ w, (busyWith w [] State.reset).busy = true ∧ (busyWith w [] State.reset).cmdLast = w) ∧
    (0x100#32).extractLsb' 8 24 ≠ 0#24 ∧ 0x0A ≤ ((0x0A#32).extractLsb' 0 8).toNat ∧
    0x0A ≤ ((0xFF#32).extractLsb' 0 8).toNat := ⟨fun _ => ⟨rfl, rfl⟩, by decide, by decide, by decide⟩

theorem witness_StepPerformsTheOldestInput :
    State.reset.inputs = [] ∧ State.reset.busy = false ∧
    ∀ x ∈ [Input.engineTurn, .read (at25 0), .write (at25 0x014) 0 0b1111, .hardReset],
      ({ State.reset with inputs := [x] } : State).inputs = [x] := by decide

theorem witness_StepRunsTheCommandInFlight : ∀ xs ∈ [[], [Input.engineTurn, .hardReset]],
    (busyWith 9 xs State.reset).busy = true ∧ decodeCmd (busyWith 9 xs State.reset).cmdLast = .ok .decode ∧
    Instr.wellFormed .decode = true ∧ (busyWith 9 xs State.reset).inputs = xs := by decide

theorem witness_PlacedWordRunsNext : decodeTableWord 32 9 = some .decode ∧ decodeTableWord 8 9 = some .decode := by decide

theorem witness_CompletionSetsDoneAndClearsBusy : exec .nop State.reset = .next (after .nop State.reset) ∧
    exec .derive State.reset = .next (after .derive State.reset) ∧ (after .derive State.reset).err = true :=
  ⟨exec_after (by decide +kernel), exec_after (by decide +kernel), by decide +kernel⟩

theorem witness_EveryResetGivesTheResetValues : State.reset ∈ [State.reset, softReset State.reset] :=
  List.mem_cons_self ..

/-- An ENCODE in flight whose range runs over the end of `BUF`, and the addresses at the ends of the range. -/
theorem witness_SoftResetKeepsBufOutsideAnAbandonedRange :
    (busyWith 7 [] (given 0 [1] 0 0 0xFFF0 0x100)).buf.wf = true ∧ (0b1000#4).getLsbD 3 = true ∧
    (0x80000000#32).getLsbD 31 = true ∧ (busyWith 7 [] (given 0 [1] 0 0 0xFFF0 0x100)).busy = true ∧
    decodeCmd (busyWith 7 [] (given 0 [1] 0 0 0xFFF0 0x100)).cmdLast = .ok .encode ∧
    ∀ a ∈ [0xFFEF, 0x10000], ¬ (0xFFF0 ≤ a ∧ a < min (0xFFF0 + 0x100) 0x10000) := by decide +kernel

theorem witness_AcceptanceOfACommandWrite :
    ((0b1111#4) = 0b1111#4 ∧ State.reset.busy = false ∧ State.reset.err = false) ∧
    ¬ ((0b0111#4) = 0b1111#4 ∧ State.reset.busy = false ∧ State.reset.err = false) ∧
    (busyWith 0 [] State.reset).busy = true ∧ ({ State.reset with err := true } : State).err = true := by decide

theorem witness_DroppedWritesOnlySetOvr :
    (0b0111#4 ≠ 0b1111#4) ∧ (busyWith 0 [] State.reset).busy = true ∧
    ({ State.reset with err := true } : State).err = true ∧
    (∀ off ∈ [0x020, 0x02C], off ∈ [0x020, 0x024, 0x028, 0x02C]) ∧
    (∀ k ∈ [0, 16383], 4 * k < (busyWith 0 [] State.reset).bufBytes) ∧
    legalBufBytes (busyWith 0 [] State.reset).bufBytes = true := by decide

theorem witness_OperandWritesStoreTheStrobedLanes : State.reset.busy = false ∧ 0b0000#4 = 0b0000#4 ∧
    0b0001#4 ≠ 0b0000#4 := by decide

theorem witness_ControlWritesStoreTheEnables :
    ((0b1001#4).getLsbD 3 = true ∧ (0x80000003#32).getLsbD 31 = true) ∧
    (¬ ((0b0111#4).getLsbD 3 = true ∧ (0x80000003#32).getLsbD 31 = true) ∧ (0b0111#4).getLsbD 0 = true) ∧
    (¬ ((0b1110#4).getLsbD 3 = true ∧ (0x00000003#32).getLsbD 31 = true) ∧ (0b1110#4).getLsbD 0 = false) := by decide

/-- A misaligned offset, both ends of each unmapped range, and the mapped offsets beside them. -/
theorem witness_MisalignedAndUnmappedTransactionsGetSlverr :
    (at25 0x002).toNat % 4 ≠ 0 ∧
    (∀ off ∈ [0x05C, 0x0FFC, 0x1800, 0x1FFC, 0x3FF0, 0x3FFC, 0x8000, 0xFFFFFC, 0x1010000, 0x1FFFFFC],
      unmappedOffset State.reset.bufBytes (at25 off).toNat) ∧
    ∀ off ∈ [0x000, 0x058, 0x1000, 0x17FC, 0x2000, 0x3FEC, 0x4000, 0x7FFC, 0x1000000, 0x100FFFC],
      (at25 off).toNat % 4 = 0 ∧ ¬ unmappedOffset State.reset.bufBytes (at25 off).toNat := by
  unfold unmappedOffset
  decide

theorem witness_ReadOnlyStateAndReservedBitsIgnoreWrites :
    (∀ off ∈ [0x000, 0x058, 0x1000, 0x17FC, 0x2000, 0x3FEC, 0x4000, 0x7FFC], readOnlyOffset (at25 off).toNat) ∧
    ((0x7FFFFFFD#32).getLsbD 0 = (0x00000001#32).getLsbD 0 ∧ (0x7FFFFFFD#32).getLsbD 1 = (0x00000001#32).getLsbD 1 ∧
      (0x7FFFFFFD#32).getLsbD 31 = (0x00000001#32).getLsbD 31) ∧
    ((0xFFFFFFF3#32).getLsbD 1 = (0x00000002#32).getLsbD 1 ∧ (0xFFFFFFF3#32).getLsbD 2 = (0x00000002#32).getLsbD 2 ∧
      (0xFFFFFFF3#32).getLsbD 3 = (0x00000002#32).getLsbD 3) := by
  unfold readOnlyOffset
  decide

theorem witness_RegistersReadAsHeld : State.reset.busy = false ∧ (busyWith 0 [] State.reset).busy = true := by decide

theorem witness_FreqWindowShowsTheCounters :
    ((abState 0 2 16 64 0).busy = false ∧ (abState 0 2 16 64 0).freqValid = true) ∧
    (busyWith 0 [] State.reset).busy = true ∧ State.reset.freqValid = false ∧ (∀ w ∈ [0, 1], w ∈ [0, 1]) := by decide

theorem witness_NodeWindowShowsTheNodes : (0 < 511 ∧ 510 < 511) ∧
    ((abState 0 2 16 64 0).busy = false ∧ (abState 0 2 16 64 0).treeValid = true ∧
      2 < (abState 0 2 16 64 0).nodes.toNat) ∧
    (busyWith 0 [] State.reset).busy = true ∧ State.reset.treeValid = false ∧
    (abState 0 2 16 64 0).nodes.toNat ≤ 3 := by decide

theorem witness_CodeWindowShowsTheCodes :
    ((abState 0 2 16 64 0).busy = false ∧ (abState 0 2 16 64 0).codesValid = true) ∧
    (∀ w ∈ [1, 7], 1 ≤ w ∧ w ≤ 7) ∧ (∀ w ∈ [8, 15], 8 ≤ w ∧ w ≤ 15) ∧
    (busyWith 0 [] State.reset).busy = true ∧ State.reset.codesValid = false := by decide

theorem witness_BufWindowMovesLittleEndianLanes : ∀ s ∈ [State.reset, busyWith 0 [] State.reset],
    s.buf.wf = true ∧ legalBufBytes s.bufBytes = true ∧ ∀ k ∈ [0, 16383], 4 * k < s.bufBytes := by decide

theorem witness_HostTransactionsLeaveTheCommandInFlight :
    ∃ t, (busyWith 9 [.write (at25 0x024) 4 0b1111] State.reset).busy = true ∧
      isTransaction (.write (at25 0x024) 4 0b1111) = true ∧ isSoftReset (.write (at25 0x024) 4 0b1111) = false ∧
      step (busyWith 9 [.write (at25 0x024) 4 0b1111] State.reset) = .next t :=
  ⟨_, by decide, by decide, by decide, rfl⟩

/-! The commands. -/

/-- The sum at its bound, and one past it. -/
theorem witness_CountAddsTheExactByteCounts :
    ((abOnly false false false (given 0 [] 0 1 0 0)).Inv ∧ (given 0 [] 0 1 0 0).freqValid = false) ∧
    ((abState 0xFFFF 2 0 0 0).Inv ∧ (abState 0xFFFF 2 0 0 0).freqValid = true ∧ ¬ (abState 0xFFFF 2 0 0 0).srcOk) ∧
    ((abState 0xFFFF 1 0 0 0).Inv ∧ (abState 0xFFFF 1 0 0 0).srcOk ∧
      (abState 0xFFFF 1 0 0 0).total.toNat + (abState 0xFFFF 1 0 0 0).srcLen.toNat ≤ 2 ^ 64 - 1) ∧
    ∀ len ∈ [0, 1], ∃ s : State, s.Inv ∧ s.freqValid = true ∧ s.srcOk ∧
      s.total.toNat + s.srcLen.toNat = 2 ^ 64 - 1 + len := by
  refine ⟨⟨given_inv rfl (by decide), rfl⟩, ⟨ab_inv .., rfl, not_srcOk (by decide +kernel)⟩,
    ⟨ab_inv .., srcOk_of (by decide +kernel), by decide +kernel⟩, ?_⟩
  intro len hlen
  refine ⟨withTable [(0x61, 2 ^ 64 - 1)] (given 0 [] 0 len 0 0), ⟨(by decide : legalBufBytes 65536 = true), rfl,
    fun c h => absurd h (by simp [withTable, given, Memory.writeBytes]), fun h => Bool.noConfusion h,
    fun h => Bool.noConfusion h, fun h => Bool.noConfusion h, fun _ => by decide +kernel +revert,
    fun h => Bool.noConfusion h⟩, rfl, srcOk_of ?_, ?_⟩
  all_goals revert len; decide +kernel

theorem witness_BuildWritesTheTreeOfTheTable : State.reset.freqValid = false ∧
    (withTable [(0x61, 1)] State.reset).freqValid = true := by decide +kernel

theorem witness_DeriveWritesTheCodesOfTheTree :
    ((abOnly true false false (abState 0 2 16 64 0)).Inv ∧
      (abOnly true false false (abState 0 2 16 64 0)).treeValid = false) ∧
    (abState 0 2 16 64 0).Inv ∧ (abState 0 2 16 64 0).treeValid = true := ⟨⟨ab_inv_free, rfl⟩, ab_inv .., rfl⟩

/-- For PACK, UNPACK, ENCODE and DECODE: a state for each of the three range checks, the ranges at their bounds. -/
theorem witness_rangeErrors :
    ((abState 0xFFFF 2 0 1 0).Inv ∧ ¬ (abState 0xFFFF 2 0 1 0).srcOk) ∧
    ((abState 0xFFFE 2 0xFFFF 2 0).Inv ∧ (abState 0xFFFE 2 0xFFFF 2 0).srcOk ∧ ¬ (abState 0xFFFE 2 0xFFFF 2 0).dstOk) ∧
    ((abState 0 2 1 4 0).Inv ∧ (abState 0 2 1 4 0).srcOk ∧ (abState 0 2 1 4 0).dstOk ∧ ¬ (abState 0 2 1 4 0).apart) ∧
    (abState 0 2 2 4 0).Inv ∧ (abState 0 2 2 4 0).rangesOk :=
  ⟨⟨ab_inv .., not_srcOk (by decide +kernel)⟩, ⟨ab_inv .., srcOk_of (by decide +kernel), not_dstOk (by decide +kernel)⟩,
    ⟨ab_inv .., srcOk_of (by decide +kernel), dstOk_of (by decide +kernel), not_apart (by decide +kernel)⟩,
    ab_inv .., rangesOk_of (by decide +kernel)⟩

/-- No codes; an absent symbol at offset 1; a capacity one too small, and just enough. -/
theorem witness_PackWritesTheCodeString :
    ((abOnly true false false (abState 0 2 16 64 0)).Inv ∧
      (abOnly true false false (abState 0 2 16 64 0)).codesValid = false) ∧
    ((abState 1 2 16 64 0).Inv ∧ (abState 1 2 16 64 0).rangesOk ∧ (abState 1 2 16 64 0).codesValid = true ∧
      symAt (abState 1 2 16 64 0).codeLen (((abState 1 2 16 64 0).srcBytes).getD 0 0) ≠ 0#8 ∧
      symAt (abState 1 2 16 64 0).codeLen (((abState 1 2 16 64 0).srcBytes).getD 1 0) = 0#8) ∧
    ∀ cap ∈ [0, 1], (abState 0 2 16 cap 0).Inv ∧ (abState 0 2 16 cap 0).rangesOk ∧
      (∀ x ∈ (abState 0 2 16 cap 0).srcBytes, symAt (abState 0 2 16 cap 0).codeLen x ≠ 0#8) ∧
      ceil8 ((abState 0 2 16 cap 0).srcBytes.map fun x => (symAt (abState 0 2 16 cap 0).codeLen x).toNat).sum = 1 ∧
      (abState 0 2 16 cap 0).dstCap.toNat = cap := by
  refine ⟨⟨ab_inv_free, rfl⟩, ⟨ab_inv .., rangesOk_of (by decide +kernel), rfl, by decide +kernel, by decide +kernel⟩, ?_⟩
  intro cap hcap
  refine ⟨ab_inv .., rangesOk_of ?_, ?_⟩
  all_goals revert cap; decide +kernel

/-- No tree; padding without a payload; a capacity one too small, and just enough. -/
theorem witness_UnpackWritesTheWalkedSymbols :
    ((abOnly true false false (abState 0 2 16 64 0)).Inv ∧
      (abOnly true false false (abState 0 2 16 64 0)).treeValid = false) ∧
    ((abState 8 0 16 64 1).Inv ∧ (abState 8 0 16 64 1).rangesOk ∧ (abState 8 0 16 64 1).srcLen = 0#32 ∧
      (abState 8 0 16 64 1).padding ≠ 0#3) ∧
    ∀ cap ∈ [1, 2], (abState 8 1 16 cap 6).Inv ∧ (abState 8 1 16 cap 6).treeValid = true ∧
      (abState 8 1 16 cap 6).rangesOk ∧
      ¬ ((abState 8 1 16 cap 6).srcLen = 0#32 ∧ (abState 8 1 16 cap 6).padding ≠ 0#3) ∧
      (abState 8 1 16 cap 6).total = 2#64 ∧ (abState 8 1 16 cap 6).dstCap.toNat = cap := by
  refine ⟨⟨ab_inv_free, rfl⟩, ⟨ab_inv .., rangesOk_of (by decide +kernel), rfl, by decide⟩, ?_⟩
  intro cap hcap
  refine ⟨ab_inv .., rfl, rangesOk_of ?_, ?_⟩
  all_goals revert cap; decide +kernel

/-- "ab" needs 30 bytes (TE4): one too few, and just enough. -/
theorem witness_EncodeWritesTheWholeStream :
    ((abState 0 2 16 29 0).Inv ∧ (abState 0 2 16 29 0).rangesOk ∧
      (after .encode (abState 0 2 16 29 0)).errCause = .dstOverflow) ∧
    (abState 0 2 16 30 0).Inv ∧ (abState 0 2 16 30 0).rangesOk ∧ (after .encode (abState 0 2 16 30 0)).err = false :=
  ⟨⟨ab_inv .., rangesOk_of (by decide +kernel), by decide +kernel⟩, ab_inv .., rangesOk_of (by decide +kernel),
    by decide +kernel⟩

/-- Whether `parseHeader` accepts, and the error if not. -/
def headerError (stream : List Byte) : Option (Cause × Nat) :=
  match parseHeader stream with
  | .ok _ => none
  | .error e => some e

theorem parse_error {stream : List Byte} {c : Cause} {k : Nat} (h : headerError stream = some (c, k)) :
    parseHeader stream = .error (c, k) := by
  unfold headerError at h
  split at h
  · simp at h
  · rename_i e he
    rw [he, Option.some.inj h]

theorem parse_ok {stream : List Byte} (h : headerError stream = none) : ∃ hd, parseHeader stream = .ok hd := by
  unfold headerError at h
  split at h
  · rename_i hd he; exact ⟨hd, he⟩
  · simp at h

/-- The stream TE1 at `BUF[0x100]`. -/
def te1At (len dst cap : Nat) : State := given 0x100 te1 0x100 len dst cap

theorem te1_inv (len dst cap : Nat) : (te1At len dst cap).Inv := given_inv (by decide +kernel) (by decide +kernel)

theorem te1_bytes (dst cap : Nat) : (te1At 21 dst cap).srcBytes = te1 := by
  change (Memory.writeBytes [] 0x100 te1).readBytes 0x100 21 = te1
  decide +kernel

theorem witness_ParseLoadsTheTableOfTheHeader :
    ((abState 0xFFFF 2 0 0 0).Inv ∧ ¬ (abState 0xFFFF 2 0 0 0).srcOk) ∧
    ((te1At 20 0 0).Inv ∧ (te1At 20 0 0).srcOk ∧ parseHeader (te1At 20 0 0).srcBytes = .error (.fmtPadding, 4)) ∧
    (te1At 21 0 0).Inv ∧ (te1At 21 0 0).srcOk ∧ ∃ h, parseHeader (te1At 21 0 0).srcBytes = .ok h :=
  ⟨⟨ab_inv .., not_srcOk (by decide +kernel)⟩,
    ⟨te1_inv .., srcOk_of (by decide +kernel), parse_error (by decide +kernel)⟩, te1_inv .., srcOk_of (by decide +kernel),
    parse_ok (by decide +kernel)⟩

theorem te1_total : ∃ h, parseHeader te1 = .ok h ∧ h.total = 4 := by
  obtain ⟨h, hp⟩ := parse_ok (stream := te1) (by decide +kernel)
  have h1 : ((parseHeader te1).toOption.map Header.total) = some 4 := by decide +kernel
  exact ⟨h, hp, by rw [hp] at h1; simpa [Except.toOption] using h1⟩

theorem witness_DecodeWritesTheDecodedStream :
    ((te1At 20 0x200 4).Inv ∧ (te1At 20 0x200 4).rangesOk ∧
      parseHeader (te1At 20 0x200 4).srcBytes = .error (.fmtPadding, 4)) ∧
    ∀ cap ∈ [3, 4], (te1At 21 0x200 cap).Inv ∧ (te1At 21 0x200 cap).rangesOk ∧
      (te1At 21 0x200 cap).dstCap.toNat = cap ∧
      ∃ h, parseHeader (te1At 21 0x200 cap).srcBytes = .ok h ∧ h.total = 4 := by
  refine ⟨⟨te1_inv .., rangesOk_of (by decide +kernel), parse_error (by decide +kernel)⟩, ?_⟩
  intro cap hcap
  refine ⟨te1_inv .., rangesOk_of ?_, ?_, by rw [te1_bytes]; exact te1_total⟩
  all_goals revert cap; decide +kernel

/-! The tree and the codes. -/

theorem witness_MergesTakeTheTwoSmallestKeys : tableSum abFreq < 2 ^ 64 ∧ 2 ≤ presentCount abFreq ∧
    presentCount abFreq ≤ 2 ∧ 2 < (buildTree abFreq).nodes.length := by
  rw [ab_sum, ab_present, ab_tree]; decide

theorem witness_LeavesAreThePresentSymbolsInOrder : ∃ nd, (buildTree abFreq).nodes[2]? = some nd := by
  rw [ab_tree]; exact ⟨_, rfl⟩

theorem witness_NodeCountsFollowThePresentSymbols :
    0 = (symbols.filter fun x => decide (0 < (symAt (symTable fun _ => 0#64) x).toNat)).length ∧
    1 = (symbols.filter fun x => decide (0 < (symAt aFreq x).toNat)).length ∧
    2 = (symbols.filter fun x => decide (0 < (symAt abFreq x).toNat)).length := by
  refine ⟨?_, ?_, ?_⟩ <;> rw [count_present]
  · rw [presentCount, present_zero]; rfl
  · exact a_present.symm
  · exact ab_present.symm

theorem witness_FrequenciesAddUpToTheTotal : tableSum abFreq < 2 ^ 64 ∧ 1 ≤ presentCount aFreq ∧
    2 ≤ presentCount abFreq ∧ presentCount abFreq ≤ 2 ∧ ∃ nd, (buildTree abFreq).nodes[2]? = some nd := by
  rw [ab_sum, ab_present, a_present, ab_tree]; exact ⟨by decide, by decide, by decide, by decide, _, rfl⟩

/-- The path 1 leads to the leaf of "b". -/
theorem ab_path : followBits abPool 2#9 [true] = some 1#9 ∧ nodeAt abPool 1#9 = some (leafNode 0x62#8 1#64) := by
  decide +kernel

theorem witness_TheTreeHasNoSharingAndNoCycle :
    poolHolds abPool (buildTree abFreq) ∧ 1 ≤ presentCount abFreq ∧ presentCount aFreq = 1 ∧
    (1 < (buildTree abFreq).nodes.length ∧ 1 ≠ (buildTree abFreq).root.toNat) ∧
    (∃ nd : Node, (buildTree abFreq).nodes[2]? = some nd ∧ nd.kind = 1#1) ∧
    ∃ i nd, followBits abPool (buildTree abFreq).root [true] = some i ∧ nodeAt abPool i = some nd ∧ nd.kind = 0#1 := by
  refine ⟨ab_pool, by rw [ab_present]; decide, a_present, ?_⟩
  rw [ab_tree]
  exact ⟨by decide, ⟨_, rfl, rfl⟩, _, _, ab_path.1, ab_path.2, rfl⟩

theorem witness_CodeLengthsStayWithinTheirFields : poolHolds abPool (buildTree abFreq) ∧
    symAt abFreq 0x63#8 = 0#64 ∧ symAt abFreq 0x61#8 ≠ 0#64 ∧ presentCount aFreq = 1 ∧ 2 ≤ presentCount abFreq :=
  ⟨ab_pool, by decide +kernel, by decide +kernel, a_present, by rw [ab_present]⟩

theorem witness_CodesAreThePathsToTheLeaves : poolHolds abPool (buildTree abFreq) ∧
    deriveCodes abPool (buildTree abFreq).root = some abBook ∧ symAt abFreq 0x61#8 ≠ 0#64 ∧ 1 ≤ presentCount abFreq ∧
    ∃ i nd, followBits abPool (buildTree abFreq).root [true] = some i ∧ nodeAt abPool i = some nd ∧ nd.kind = 0#1 := by
  refine ⟨ab_pool, ?_, by decide +kernel, by rw [ab_present]; decide, ?_⟩
  · rw [ab_tree]; exact ab_codes
  · rw [ab_tree]; exact ⟨_, _, ab_path.1, ab_path.2, rfl⟩

theorem witness_CodesArePrefixFreeAndComplete : poolHolds abPool (buildTree abFreq) ∧
    deriveCodes abPool (buildTree abFreq).root = some abBook ∧
    (symAt abFreq 0x61#8 ≠ 0#64 ∧ symAt abFreq 0x62#8 ≠ 0#64 ∧ (0x61#8) ≠ 0x62#8) ∧ 2 ≤ presentCount abFreq ∧
    presentCount aFreq = 1 := by
  refine ⟨ab_pool, ?_, by decide +kernel, by rw [ab_present], a_present⟩
  rw [ab_tree]; exact ab_codes

theorem witness_PackingPlacesBitsMostSignificantFirst : 0 % 8 = 0 ∧ 8 ≤ 8 * [0x40#8].length ∧
    1 < (payloadBits [0x40#8] 6).length := by decide

/-- The payload 40 with six padding bits is the paths of "a" and "b"; and the walk of nothing has no root. -/
theorem witness_TheWalkReadsPathsToLeaves :
    (∀ nd, nodeAt abPool 2#9 = some nd → nd.kind = 1#1) ∧ (2#9 ≠ 0x1FF#9 ∨ 2 = 0) ∧
    (∀ nd, nodeAt abPool 0x1FF#9 = some nd → nd.kind = 1#1) ∧ (0x1FF#9 ≠ 0x1FF#9 ∨ 0 = 0) ∧
    [0x61#8, 0x62#8].length = 2 ∧ Emits abPool 2#9 (payloadBits [0x40#8] 6) [0x61#8, 0x62#8] := by
  have h2 : nodeAt abPool 2#9 = some (mergeNode 2 0#9 1#9) := by decide +kernel
  refine ⟨fun nd h => ?_, .inl (by decide), fun nd h => ?_, .inr rfl, rfl, ?_⟩
  · rw [h2] at h; rw [← Option.some.inj h]; rfl
  · rw [show nodeAt abPool 0x1FF#9 = none from nodeAt_none abPool] at h; simp at h
  · rw [show payloadBits [0x40#8] 6 = [false] ++ ([true] ++ []) by decide]
    exact .more [false] _ 0#9 (leafNode 0x61#8 1#64) _ (by simp) (by decide +kernel) (by decide +kernel) rfl
      (.more [true] _ 1#9 (leafNode 0x62#8 1#64) _ (by simp) ab_path.1 ab_path.2 rfl .none)

/-! The stream. -/

theorem witness_HeaderLayoutIsBigEndianAscending : (0 < (toBe 8 255).length ∧ 7 < (toBe 8 255).length) ∧
    255 < 2 ^ (8 * 1) ∧ 0 < [0x61#8, 0x62#8].length := by decide

theorem witness_ParsingInvertsSerializing :
    (tableSum abFreq < 2 ^ 64 ∧ 6 ≤ 7 ∧ ([0x40#8] = [] → 6 = 0)) ∧ (([] : List Byte) = [] → 0 = 0) ∧
    ∃ h, parseHeader te1 = .ok h := by
  rw [ab_sum]
  exact ⟨by decide, by decide, parse_ok (by decide +kernel)⟩

/-- A stream for each format error of a header (TD3, TD4, TD7, TD11, TD14, TD16, TD17, TD18). -/
theorem witness_HeaderErrorsSayWhatIsWrong :
    parseHeader [] = .error (.fmtHdrShort, 11) ∧ parseHeader (te2.set 0 8) = .error (.fmtPadding, 8) ∧
    parseHeader ((te2.set 9 1).set 10 1) = .error (.fmtNsym, 257) ∧
    parseHeader (te2.take 55) = .error (.fmtHdrShort, 56) ∧ parseHeader (te2.set 20 0x61) = .error (.fmtTableOrder, 1) ∧
    parseHeader (te2.set 19 0) = .error (.fmtZeroFreq, 0) ∧ parseHeader (te2.set 8 12) = .error (.fmtSum, 0) ∧
    parseHeader (te2.take 56) = .error (.fmtPadding, 1) := by
  refine ⟨?_, ?_, ?_, ?_, ?_, ?_, ?_, ?_⟩ <;> exact parse_error (by decide +kernel)

/-! Round trips. -/

/-- The state with the operand registers set anew. -/
def aimed (src len dst cap : Nat) (s : State) : State := { s with
  srcBase := BitVec.ofNat 32 src, srcLen := BitVec.ofNat 32 len, dstBase := BitVec.ofNat 32 dst
  dstCap := BitVec.ofNat 32 cap }

theorem aimed_inv {s : State} (h : s.Inv) (src len dst cap : Nat) : (aimed src len dst cap s).Inv :=
  h.frame rfl id id

theorem ends_pack : ends .pack (abState 0 2 16 1 0) = true := by decide +kernel

theorem witness_UnpackInvertsPack : ∃ s t u : State, s.Inv ∧ s.err = false ∧ s.codesValid = true ∧
    s.total.toNat = s.srcLen.toNat ∧ exec .pack s = .next t ∧ t.err = false ∧
    u.Inv ∧ u.err = false ∧ u.treeValid = true ∧ u.node = t.node ∧ u.root = t.root ∧ u.total = t.total ∧
    u.padding = t.padding ∧ u.srcLen = t.dstLen ∧
    (∀ k < t.dstLen.toNat, u.buf.read (u.srcBase.toNat + k) = t.buf.read (t.dstBase.toNat + k)) ∧
    u.rangesOk ∧ s.srcLen.toNat ≤ u.dstCap.toNat :=
  ⟨abState 0 2 16 1 0, after .pack (abState 0 2 16 1 0), aimed 16 1 128 2 (after .pack (abState 0 2 16 1 0)),
    ab_inv .., rfl, rfl, by decide +kernel, exec_after ends_pack, by decide +kernel,
    aimed_inv (execPack_inv (ab_inv ..) (exec_after ends_pack)) .., by decide +kernel, by decide +kernel, rfl, rfl, rfl,
    rfl, by decide +kernel, by decide +kernel, rangesOk_of (by decide +kernel), by decide +kernel⟩

theorem ends_encode : ends .encode (abState 0 2 16 30 0) = true := by decide +kernel

theorem witness_DecodeInvertsEncode : ∃ s t u : State, s.Inv ∧ s.err = false ∧ exec .encode s = .next t ∧
    t.err = false ∧ u.Inv ∧ u.err = false ∧ u.srcLen = t.dstLen ∧
    (∀ k < t.dstLen.toNat, u.buf.read (u.srcBase.toNat + k) = t.buf.read (t.dstBase.toNat + k)) ∧
    u.rangesOk ∧ s.srcLen.toNat ≤ u.dstCap.toNat :=
  ⟨abState 0 2 16 30 0, after .encode (abState 0 2 16 30 0), aimed 16 30 128 2 (after .encode (abState 0 2 16 30 0)),
    ab_inv .., rfl, exec_after ends_encode, by decide +kernel,
    aimed_inv (execEncode_inv (ab_inv ..) (exec_after ends_encode)) .., by decide +kernel, by decide +kernel,
    by decide +kernel, rangesOk_of (by decide +kernel), by decide +kernel⟩

/-- The input of n bytes "a". -/
def manyA (n : Nat) : State := given 0 (List.replicate n 0x61) 0 n 16 64

/-- A cut inside the header; one at its end, with padding and without; one inside the payload (TE4, TE10). -/
theorem witness_TruncationIsDetected :
    (∃ t, (manyA 8).Inv ∧ (manyA 8).err = false ∧ exec .encode (manyA 8) = .next t ∧ t.err = false ∧
      ∀ cut ∈ [19, 20], (aimed 16 cut 128 8 t).Inv ∧ (aimed 16 cut 128 8 t).err = false ∧
        cut < t.dstLen.toNat ∧ (aimed 16 cut 128 8 t).rangesOk ∧ t.hdrLen.toNat = 20 ∧ t.padding = 0#3) ∧
    ∃ t, (manyA 9).Inv ∧ (manyA 9).err = false ∧ exec .encode (manyA 9) = .next t ∧ t.err = false ∧
      ∀ cut ∈ [20, 21], (aimed 16 cut 128 9 t).Inv ∧ (aimed 16 cut 128 9 t).err = false ∧
        cut < t.dstLen.toNat ∧ (aimed 16 cut 128 9 t).rangesOk ∧ t.hdrLen.toNat = 20 ∧ t.padding ≠ 0#3 := by
  have h8 : (manyA 8).Inv := given_inv (by decide +kernel) (by decide +kernel)
  have h9 : (manyA 9).Inv := given_inv (by decide +kernel) (by decide +kernel)
  have e8 : ends .encode (manyA 8) = true := by decide +kernel
  have e9 : ends .encode (manyA 9) = true := by decide +kernel
  refine ⟨⟨_, h8, rfl, exec_after e8, by decide +kernel, ?_⟩, _, h9, rfl, exec_after e9, by decide +kernel, ?_⟩
  · intro cut hcut
    refine ⟨aimed_inv (execEncode_inv h8 (exec_after e8)) .., ?_, ?_, rangesOk_of ?_, ?_⟩
    all_goals revert cut; decide +kernel
  · intro cut hcut
    refine ⟨aimed_inv (execEncode_inv h9 (exec_after e9)) .., ?_, ?_, rangesOk_of ?_, ?_⟩
    all_goals revert cut; decide +kernel

theorem witness_DecodeIsParseThenBuildThenUnpack : ∃ h s1, (te1At 21 0x200 4).Inv ∧ (te1At 21 0x200 4).err = false ∧
    (te1At 21 0x200 4).rangesOk ∧ parseHeader (te1At 21 0x200 4).srcBytes = .ok h ∧
    h.total ≤ (te1At 21 0x200 4).dstCap.toNat ∧ exec .parse (te1At 21 0x200 4) = .next s1 := by
  obtain ⟨h, hp, ht⟩ := te1_total
  exact ⟨h, _, te1_inv .., rfl, rangesOk_of (by decide +kernel), by rw [te1_bytes]; exact hp, by rw [ht]; decide +kernel,
    exec_after (by decide +kernel)⟩

theorem witness_EncodeIsTheStepByStepPipeline : ∃ t, (abState 0 2 16 30 0).Inv ∧ (abState 0 2 16 30 0).err = false ∧
    exec .encode (abState 0 2 16 30 0) = .next t ∧ t.err = false :=
  ⟨_, ab_inv .., rfl, exec_after ends_encode, by decide +kernel⟩

theorem witness_EncodeDependsOnTheInputAlone : ∃ s' u', (abState 0 2 16 30 0).Inv ∧ (given 5 [0x61, 0x62] 5 2 40 99).Inv ∧
    (abState 0 2 16 30 0).err = false ∧ (given 5 [0x61, 0x62] 5 2 40 99).err = false ∧
    (abState 0 2 16 30 0).srcBytes = (given 5 [0x61, 0x62] 5 2 40 99).srcBytes ∧
    exec .encode (abState 0 2 16 30 0) = .next s' ∧ exec .encode (given 5 [0x61, 0x62] 5 2 40 99) = .next u' ∧
    s'.err = false ∧ u'.err = false :=
  ⟨_, _, ab_inv .., given_inv (by decide) (by decide), rfl, rfl, by decide +kernel, exec_after ends_encode,
    exec_after (by decide +kernel), by decide +kernel, by decide +kernel⟩

/-! The whole machine. -/

/-- An error of class pre; a walk error of UNPACK; one of DECODE (TD9). -/
theorem witness_ErrorsChangeOnlyWhatTheirClassAllows :
    ∀ p ∈ [(Instr.derive, State.reset, false), (.unpack, abState 0 2 16 64 0, true),
      (.decode, given 0x100 (te1.set 20 0x80) 0x100 21 0x200 4, true)],
      p.2.1.err = false ∧ p.2.1.buf.wf = true ∧ ends p.1 p.2.1 = true ∧ (after p.1 p.2.1).err = true ∧
      (after p.1 p.2.1).errCause.isWalk = p.2.2 := by decide +kernel

/-- Each command succeeds in some state; an error of class pre, and the walk errors of UNPACK and DECODE. -/
theorem witness_ValidityBitsFollowTheCommand :
    (∀ p ∈ [(Instr.nop, State.reset), (.clear, State.reset), (.count, abState 0 2 0 0 0), (.build, abState 0 2 0 0 0),
      (.derive, abState 0 2 0 0 0), (.pack, abState 0 2 16 1 0), (.unpack, abState 8 1 16 2 6),
      (.encode, abState 0 2 16 30 0), (.parse, te1At 21 0 0), (.decode, te1At 21 0x200 4)],
      p.2.err = false ∧ ends p.1 p.2 = true ∧ (after p.1 p.2).err = false) ∧
    ∀ p ∈ [(Instr.derive, State.reset, false), (.unpack, abState 0 2 16 64 0, true),
      (.decode, given 0x100 (te1.set 20 0x80) 0x100 21 0x200 4, true)],
      p.2.1.err = false ∧ ends p.1 p.2.1 = true ∧ (after p.1 p.2.1).err = true ∧
      (after p.1 p.2.1).errCause.isWalk = p.2.2 := by decide +kernel

/-- Each command ends in some state whose memory is in canonical form. -/
theorem witness_CommandsWriteOnlyWhatTheirRulesName :
    ∀ i ∈ [Instr.nop, .clear, .count, .build, .derive, .pack, .unpack, .encode, .parse, .decode],
      State.reset.buf.wf = true ∧ ends i State.reset = true := by decide +kernel

theorem witness_EveryStepKeepsTheInvariant : ∃ t, (busyWith 3 [] (abState 0 2 16 64 0)).Inv ∧
    step (busyWith 3 [] (abState 0 2 16 64 0)) = .next t :=
  ⟨_, (accept_inv (ab_inv ..) rfl 3#32).frame rfl id id, next_of (by decide +kernel)⟩

theorem witness_EveryStepOfAnInvariantStateGivesANextState : (abState 0 2 16 64 0).Inv := ab_inv ..

theorem witness_CommandInFlightEnds : (busyWith 9 [.read (at25 0x010)] (abState 0 2 16 64 0)).Inv ∧
    (busyWith 9 [.read (at25 0x010)] (abState 0 2 16 64 0)).busy = true :=
  ⟨(accept_inv (ab_inv ..) rfl 9#32).frame rfl id id, rfl⟩

/-! ### Scripts -/

/-- The end of a script's playing from a state, with the engine's turns given: ended or not, and the state. -/
def played (script : List Stmt) (s : State) (turns : List Bool) : Bool × State :=
  match playScript 8 script (.start s turns) with
  | .ended q => (true, q.state)
  | .wrong q | .waiting q => (false, q.state)
  | .stopped => (false, s)

/-- P5 (its first part): ENCODE of "aaaa" by `run`, and the assertions that follow it. -/
theorem test_script_encode :
    (played [.action (.wr (.buf 0) 0x61616161), .action (.wr (.reg .srcBase) 0), .action (.wr (.reg .srcLen) 4),
      .action (.wr (.reg .dstBase) 0x500), .action (.wr (.reg .dstCap) 0x40), .run .encode,
      .action (.rdEq (.reg .dstLen) 21), .action (.rdEq (.reg .padding) 4), .action (.rdEq (.node 1 1) 0x01FF0000),
      .action (.rdEq (.buf 0x508) 0x61010004), .action (.rdMask (.buf 0x514) 0xFF 0x00)] State.reset []).1 = true := by
  decide +kernel

/-- TH17: whether the engine completes before the write to `SRC_LEN` or after it, both outcomes are allowed. -/
theorem test_script_race :
    [[], [false, false]].map (fun turns =>
      let r := played [.cmd .encode, .action (.wr (.reg .srcLen) 4), .wait] (given 0 abracadabra 0 11 0x100 0x100) turns
      (r.1, r.2.srcLen, r.2.ovr, r.2.buf.readBytes 0x138 3)) =
    [(true, 4#32, false, [0x6E, 0x8A, 0xDC]), (true, 11#32, true, [0x6E, 0x8A, 0xDC])] := by decide +kernel

/-- A script stops at the assertion that does not hold, and P6's refused command is acknowledged by `ack`. -/
theorem test_script_asserts :
    (played [.wrbuf 3 [1, 2], .rdbuf 3 [1, 2]] State.reset []).1 = true ∧
    (played [.wrbuf 3 [1, 2], .rdbuf 3 [1, 3]] State.reset []).1 = false ∧
    (played [.run .derive, .action (.rdEq (.reg .status) 0x6), .ack, .action (.rdEq (.reg .status) 0x0)] State.reset
      []).1 = true := by decide +kernel

/-- `BUF` clause: nothing, a byte in the last lane, bytes up to the end of `BUF` from an unaligned address; bytes that
`BUF` holds and bytes that it does not hold. `wait` clause: a busy state. `run` clause: an idle state with no error.
Last clause: a script that ends. -/
theorem witness_ScriptStatementsDoWhatTheyExpandTo :
    (abState 0 2 16 64 0).Inv ∧ (abState 0 2 16 64 0).busy = false ∧ (abState 0 2 16 64 0).err = false ∧
    (∀ p ∈ [(0, []), (3, [0x61#8]), (0xFFF9, [1#8, 2#8, 3#8, 4#8, 5#8, 6#8, 7#8])],
      p.1 + p.2.length ≤ (abState 0 2 16 64 0).bufBytes) ∧
    bufHolds (abState 0 2 16 64 0).buf 0 [0x61#8, 0x62#8] ∧ ¬ bufHolds (abState 0 2 16 64 0).buf 1 [0x61#8] ∧
    (busyWith 3 [] (abState 0 2 16 64 0)).Inv ∧ [true, false].length < 3 ∧
    (played [.run .clear] (abState 0 2 16 64 0) [false]).1 = true := by
  refine ⟨ab_inv .., rfl, rfl, by decide, ?_, ?_, (accept_inv (ab_inv ..) rfl 3#32).frame rfl id id, by decide,
    by decide +kernel⟩
  · unfold bufHolds
    decide
  · unfold bufHolds
    decide

end Sys2Proof.Tests
end

/-! PROOFS. The statements of the family 10_state: the reset values, the identification registers, the table windows,
and the validity bits each command leaves. -/

namespace Sys2Proof.Machine

/-! ### The reset values (R63) -/

theorem reset_registersAtReset : State.reset.registersAtReset := by
  unfold State.registersAtReset
  decide

/-- A reset takes every register and flag from `State.reset`, whatever it leaves in the tables and in `BUF`. -/
theorem resetWith_registersAtReset (m : Memory) (s : State) : (resetWith m s).registersAtReset :=
  reset_registersAtReset

theorem softReset_registersAtReset (s : State) : (softReset s).registersAtReset := resetWith_registersAtReset _ s

theorem hardReset_registersAtReset (s : State) : (hardReset s).registersAtReset := reset_registersAtReset

@[simp] theorem softReset_bufBytes (s : State) : (softReset s).bufBytes = s.bufBytes := rfl

@[simp] theorem hardReset_bufBytes (s : State) : (hardReset s).bufBytes = s.bufBytes := rfl

/-! ### The identification registers (R31 to R33) -/

theorem reads_id (s : State) : readsAs s (at25 0x000) 0x48554646#32 := reads_reg s .id

theorem reads_version (s : State) : readsAs s (at25 0x004) 0x00000001#32 := reads_reg s .version

theorem reads_bufSize (s : State) : readsAs s (at25 0x008) (BitVec.ofNat 32 s.bufBytes) := reads_reg s .bufSize

/-- A register whose write arm keeps the state ignores writes (R354). -/
theorem ignoresWrites_reg {s : State} {r : Reg} (h : ∀ data strb, writeReg data strb s r = s) :
    ignoresWrites s (at25 r.offset) := by
  intro data strb
  rw [writes_reg, h]

/-- Settles O10: the three registers read through `reads_reg`, and their write arms keep the state. -/
theorem identificationRegistersAreConstant : Obligations.IdentificationRegistersAreConstant := fun s =>
  ⟨reads_id s, reads_version s, reads_bufSize s,
    ignoresWrites_reg (r := .id) fun _ _ => rfl,
    ignoresWrites_reg (r := .version) fun _ _ => rfl,
    ignoresWrites_reg (r := .bufSize) fun _ _ => rfl⟩

/-- Settles O8: both resets take the registers of `State.reset` and keep the parameter. -/
theorem everyResetGivesTheResetValues : Obligations.EveryResetGivesTheResetValues := by
  refine ⟨reset_registersAtReset, fun s => ⟨hardReset_registersAtReset s, softReset_registersAtReset s, ?_⟩⟩
  intro t ht
  have hb : t.bufBytes = s.bufBytes := by
    simp only [List.mem_cons, List.not_mem_nil, or_false] at ht
    rcases ht with rfl | rfl
    · exact hardReset_bufBytes s
    · exact softReset_bufBytes s
  exact ⟨hb, reads_id t, reads_version t, hb ▸ reads_bufSize t⟩

/-! ### Reading and writing through a window -/

theorem hidden_of_idle {s : State} (h : s.busy = false) (d v : Word) : s.hidden d v = v := by
  simp [State.hidden, h]

theorem hidden_of_busy {s : State} (h : s.busy = true) (d v : Word) : s.hidden d v = d := by
  simp [State.hidden, h]

/-- A read at an offset that names t gets what t reads as. -/
theorem reads_at25 {s : State} {a : Nat} {t : Target} (ha : a < 2 ^ 25) (h4 : a % 4 = 0)
    (hd : decodeOffset s.bufBytes (at25 a) = some t) : readsAs s (at25 a) (readTarget s (Config.drawWord s.draws) t) :=
  hostRead_response (aligned_at25 ha h4) hd

/-- A write at an offset that names a target whose write arm keeps the state is ignored (R354). -/
theorem ignoresWrites_at25 {s : State} {a : Nat} {t : Target} (ha : a < 2 ^ 25) (h4 : a % 4 = 0)
    (hd : decodeOffset s.bufBytes (at25 a) = some t) (hw : ∀ data strb, writeTarget data strb s t = s) :
    ignoresWrites s (at25 a) := by
  intro data strb
  rw [hostWrite_mapped (aligned_at25 ha h4) hd, hw]

/-- The two halves of a 64-bit number. -/
theorem toNat_halves (f : BitVec 64) :
    (f.extractLsb' 32 32).toNat * 2 ^ 32 + (f.extractLsb' 0 32).toNat = f.toNat := by
  have := f.isLt
  simp only [BitVec.extractLsb'_toNat, Nat.shiftRight_eq_div_pow]
  omega

/-! ### The FREQ window (R59) -/

theorem reads_freq (s : State) (x : Byte) {w : Nat} (hw : w < 2) :
    readsAs s (at25 (0x1000 + 8 * x.toNat + 4 * w)) (readTarget s (Config.drawWord s.draws) (.freq x w)) :=
  reads_at25 (by omega) (by omega) (decodeOffset_freq _ x w hw)

theorem ignoresWrites_freq (s : State) (x : Byte) {w : Nat} (hw : w < 2) :
    ignoresWrites s (at25 (0x1000 + 8 * x.toNat + 4 * w)) :=
  ignoresWrites_at25 (by omega) (by omega) (decodeOffset_freq _ x w hw) fun _ _ => rfl

theorem readTarget_freq_shown {s : State} (hb : s.busy = false) (hv : s.freqValid = true) (d : Word) (x : Byte)
    (w : Nat) : readTarget s d (.freq x w) = freqWord (symAt s.freq x) w := by
  simp [readTarget, hv, hidden_of_idle hb]

theorem readTarget_freq_drawn {s : State} (h : s.busy = true ∨ s.freqValid = false) (d : Word) (x : Byte) (w : Nat) :
    readTarget s d (.freq x w) = d := by
  rcases h with hb | hv
  · simp [readTarget, hidden_of_busy hb]
  · simp [readTarget, hv]

/-- Settles O19, by the two cases of a FREQ read. -/
theorem freqWindowShowsTheCounters : Obligations.FreqWindowShowsTheCounters := by
  intro s x
  have hlt : ∀ w ∈ [0, 1], w < 2 := by decide
  refine ⟨fun hb hv => ⟨_, _, reads_freq s x (w := 0) (by decide), reads_freq s x (w := 1) (by decide), ?_⟩,
    fun h w hw => ?_, fun w hw => ignoresWrites_freq s x (hlt w hw)⟩
  · rw [readTarget_freq_shown hb hv, readTarget_freq_shown hb hv]
    exact toNat_halves _
  · rw [← readTarget_freq_drawn h (Config.drawWord s.draws) x w]
    exact reads_freq s x (hlt w hw)

/-! ### The NODE window (R60) -/

theorem reads_node (s : State) {i w : Nat} (hi : i < 511) (hw : w < 4) :
    readsAs s (at25 (0x2000 + 16 * i + 4 * w)) (readTarget s (Config.drawWord s.draws) (.node i w)) :=
  reads_at25 (by omega) (by omega) (decodeOffset_node _ i w hi hw)

theorem ignoresWrites_node (s : State) {i w : Nat} (hi : i < 511) (hw : w < 4) :
    ignoresWrites s (at25 (0x2000 + 16 * i + 4 * w)) :=
  ignoresWrites_at25 (by omega) (by omega) (decodeOffset_node _ i w hi hw) fun _ _ => rfl

theorem readTarget_node_shown {s : State} {i : Nat} (hi : i < 511) (hb : s.busy = false) (hv : s.treeValid = true)
    (hn : i < s.nodes.toNat) (d : Word) (w : Nat) : readTarget s d (.node i w) = nodeWord s.node[i] w := by
  simp [readTarget, hv, hn, hi, hidden_of_idle hb]

theorem readTarget_node_drawn {s : State} {i : Nat} (h : s.busy = true ∨ s.treeValid = false ∨ s.nodes.toNat ≤ i)
    (d : Word) (w : Nat) : readTarget s d (.node i w) = d := by
  rcases h with hb | hv | hn
  · simp [readTarget, hidden_of_busy hb]
  · simp [readTarget, hv]
  · simp [readTarget, Nat.not_lt.mpr hn]

/-- A slot in use is read word by word. -/
theorem reads_nodeWord {s : State} {i w : Nat} (hi : i < 511) (hb : s.busy = false) (hv : s.treeValid = true)
    (hn : i < s.nodes.toNat) (hw : w < 4) : readsAs s (at25 (0x2000 + 16 * i + 4 * w)) (nodeWord s.node[i] w) :=
  readTarget_node_shown hi hb hv hn _ w ▸ reads_node s hi hw

/-- Word 0 of a slot: `kind`, `sym`, and zeros between and above them. -/
theorem nodeWord_zero_fields (nd : Node) :
    (nodeWord nd 0).extractLsb' 0 1 = nd.kind ∧ (nodeWord nd 0).extractLsb' 8 8 = nd.sym ∧
    (nodeWord nd 0).extractLsb' 1 7 = 0#7 ∧ (nodeWord nd 0).extractLsb' 16 16 = 0#16 := by
  refine ⟨?_, ?_, ?_, ?_⟩ <;> refine BitVec.eq_of_getLsbD_eq fun j hj => ?_ <;>
    rw [BitVec.getLsbD_extractLsb', getLsbD_nodeWord_zero]
  · simp [hj]
  · simp [hj, show ¬ 8 + j < 1 by omega]
  · simp [show ¬ 7 ≤ j by omega]
  · simp [show ¬ 16 + j < 1 by omega, show ¬ 15 + j - 7 < 8 by omega]

/-- Word 1 of a slot: `left`, `right`, and zeros between and above them. -/
theorem nodeWord_one_fields (nd : Node) :
    (nodeWord nd 1).extractLsb' 0 9 = nd.left ∧ (nodeWord nd 1).extractLsb' 16 9 = nd.right ∧
    (nodeWord nd 1).extractLsb' 9 7 = 0#7 ∧ (nodeWord nd 1).extractLsb' 25 7 = 0#7 := by
  refine ⟨?_, ?_, ?_, ?_⟩ <;> refine BitVec.eq_of_getLsbD_eq fun j hj => ?_ <;>
    rw [BitVec.getLsbD_extractLsb', getLsbD_nodeWord_one]
  · simp [hj]
  · simp [hj, show ¬ 16 + j < 9 by omega, show ¬ 16 + j - 9 < 7 by omega, show 16 + j - 9 - 7 = j by omega]
  · simp [show ¬ 7 ≤ j by omega]
  · simp [show ¬ 25 + j < 9 by omega, show ¬ 25 + j - 9 < 7 by omega, show ¬ 25 + j - 9 - 7 < 9 by omega]

/-- Settles O20, by the two cases of a NODE read and the fields of each word. -/
theorem nodeWindowShowsTheNodes : Obligations.NodeWindowShowsTheNodes := by
  intro s i hi
  refine ⟨fun hb hv hn => ?_, fun h w hw => ?_, fun w hw => ignoresWrites_node s hi hw⟩
  · have hread (w : Nat) (hw : w < 4) := reads_nodeWord hi hb hv hn hw
    exact ⟨⟨_, hread 0 (by decide), nodeWord_zero_fields _⟩, ⟨_, hread 1 (by decide), nodeWord_one_fields _⟩,
      ⟨_, _, hread 2 (by decide), hread 3 (by decide), toNat_halves _⟩⟩
  · rw [← readTarget_node_drawn h (Config.drawWord s.draws) w]
    exact reads_node s hi hw

/-! ### The CODE window (R61) -/

theorem reads_code (s : State) (x : Byte) {w : Nat} (hw : w < 16) :
    readsAs s (at25 (0x4000 + 64 * x.toNat + 4 * w)) (readTarget s (Config.drawWord s.draws) (.code x w)) :=
  reads_at25 (by omega) (by omega) (decodeOffset_code _ x w hw)

theorem ignoresWrites_code (s : State) (x : Byte) {w : Nat} (hw : w < 16) :
    ignoresWrites s (at25 (0x4000 + 64 * x.toNat + 4 * w)) :=
  ignoresWrites_at25 (by omega) (by omega) (decodeOffset_code _ x w hw) fun _ _ => rfl

theorem readTarget_code_shown {s : State} (hb : s.busy = false) (hv : s.codesValid = true) (d : Word) (x : Byte)
    (w : Nat) : readTarget s d (.code x w) = codeWord (symAt s.codeLen x) (symAt s.codeBits x) w := by
  simp [readTarget, hv, hidden_of_idle hb]

theorem readTarget_code_drawn {s : State} (h : s.busy = true ∨ s.codesValid = false) (d : Word) (x : Byte) (w : Nat) :
    readTarget s d (.code x w) = d := by
  rcases h with hb | hv
  · simp [readTarget, hidden_of_busy hb]
  · simp [readTarget, hv]

/-- A valid codebook entry is read word by word. -/
theorem reads_codeWord {s : State} (x : Byte) {w : Nat} (hb : s.busy = false) (hv : s.codesValid = true) (hw : w < 16) :
    readsAs s (at25 (0x4000 + 64 * x.toNat + 4 * w)) (codeWord (symAt s.codeLen x) (symAt s.codeBits x) w) :=
  readTarget_code_shown hb hv _ x w ▸ reads_code s x hw

theorem toNat_codeWord_zero (len : BitVec 8) (bits : BitVec 255) : (codeWord len bits 0).toNat = len.toNat := by
  have := len.isLt
  simp only [codeWord, if_true, BitVec.toNat_setWidth]
  omega

theorem codeWord_middle (len : BitVec 8) (bits : BitVec 255) {w : Nat} (h1 : 1 ≤ w) (h7 : w ≤ 7) :
    codeWord len bits w = 0#32 := by
  rw [codeWord, if_neg (by omega), if_pos (by omega)]
  rfl

/-- The words from word 8 on hold the code; bit 255, beyond its 255 bits, reads 0. -/
theorem getLsbD_codeWord (len : BitVec 8) (bits : BitVec 255) {w j : Nat} (h8 : 8 ≤ w) (h15 : w ≤ 15) (hj : j < 32) :
    (codeWord len bits w).getLsbD j = bits.getLsbD (32 * (w - 8) + j) := by
  rw [codeWord, if_neg (by omega), if_neg (by omega), BitVec.getLsbD_extractLsb', BitVec.getLsbD_setWidth]
  simp [hj, show 32 * (w - 8) + j < 256 by omega]

/-- Settles O21, by the two cases of a CODE read and the three kinds of word. -/
theorem codeWindowShowsTheCodes : Obligations.CodeWindowShowsTheCodes := by
  intro s x
  refine ⟨fun hb hv => ⟨?_, fun w h1 h7 => ?_, fun w h8 h15 => ?_⟩, fun h w hw => ?_,
    fun w hw => ignoresWrites_code s x hw⟩
  · exact ⟨_, reads_codeWord x (w := 0) hb hv (by decide), toNat_codeWord_zero _ _⟩
  · have hread := reads_codeWord x (w := w) hb hv (by omega)
    rwa [codeWord_middle _ _ h1 h7] at hread
  · exact ⟨_, reads_codeWord x hb hv (by omega), fun j hj => getLsbD_codeWord _ _ h8 h15 hj⟩
  · rw [← readTarget_code_drawn h (Config.drawWord s.draws) x w]
    exact reads_code s x hw

/-! ### The validity bits (R64) -/

/-- The validity bits of t are those of s. -/
def State.sameValidity (s t : State) : Prop :=
  t.freqValid = s.freqValid ∧ t.treeValid = s.treeValid ∧ t.codesValid = s.codesValid

/-- What R64 says of the command i from s to t, where `row` says what its row of the table leaves on success. -/
def validityFollows (i : Instr) (s t : State) (row : Prop) : Prop :=
  (t.err = false → row) ∧
  (t.err = true → t.errCause.isWalk = false ∨ i ≠ .decode → s.sameValidity t) ∧
  (t.err = true → t.errCause.isWalk = true → i = .decode →
    t.freqValid = true ∧ t.treeValid = true ∧ t.codesValid = false)

/-- A command that ends without an error leaves its row. -/
theorem validityFollows_of_ok {i : Instr} {s t : State} {row : Prop} (he : t.err = false) (hrow : row) :
    validityFollows i s t row := by
  simp [validityFollows, he, hrow]

/-- A command that its checks turn away leaves the bits as they were. -/
theorem validityFollows_raised {i : Instr} {s : State} {row : Prop} {c : Cause} (hc : c.isWalk = false) (k : Word) :
    validityFollows i s (raised c k s) row := by
  simp [validityFollows, State.sameValidity, raised, hc]

theorem countChecks_causes {s : State} {e : Cause × Word} (h : firstFailure (countChecks s) = some e) :
    e.1.isWalk = false := by
  obtain ⟨c, hc, -, rfl⟩ := firstFailure_mem h
  simp only [countChecks, sequenceCheck, State.srcCheck, List.mem_cons, List.not_mem_nil, or_false] at hc
  rcases hc with rfl | rfl | rfl <;> rfl

/-- The walk fails with a cause of class walk only (R282, R402). -/
theorem walkDecode_failed_isWalk {pool : Vector Node 511} {root : NodeIndex} {payload : List Byte} {p n : Nat}
    {c : Cause} {i : Nat} (h : (walkDecode pool root payload p n).last = .failed c i) : c.isWalk = true := by
  obtain ⟨-, -, hfailed⟩ := walkFrom_out (pool := pool) (root := root) (payloadBits payload p) 0 0 none []
    (Nat.zero_le n) (by simp) rfl
  exact hfailed c i h

/-- The end of a walk keeps the validity bits, and reports an error only when the walk failed. -/
theorem finishWalk_validity {w : Walk} {n : Nat} {s t : State} (he : s.err = false) (h : finishWalk w n s = .next t) :
    s.sameValidity t ∧ (t.err = true → ∃ i, w.last = .failed t.errCause i) := by
  rcases finishWalk_next h with ⟨-, rfl⟩ | ⟨c, i, hl, rfl⟩
  · exact ⟨⟨rfl, rfl, rfl⟩, fun ht => by simp [succeeded, he] at ht⟩
  · exact ⟨⟨rfl, rfl, rfl⟩, fun _ => ⟨i, hl⟩⟩

theorem execUnpack_validity {s t : State} (he : s.err = false) (h : execUnpack s = .next t) :
    validityFollows .unpack s t (s.sameValidity t) := by
  rcases execUnpack_next h with ⟨e, hf, rfl⟩ | ⟨-, hw⟩
  · exact validityFollows_raised (unpackChecks_causes hf).1 _
  · obtain ⟨hs, -⟩ := finishWalk_validity he hw
    exact ⟨fun _ => hs, fun _ _ => hs, fun _ _ hi => by cases hi⟩

theorem execDecode_validity {s t : State} (he : s.err = false) (h : execDecode s = .next t) :
    validityFollows .decode s t (t.freqValid = true ∧ t.treeValid = true ∧ t.codesValid = false) := by
  rcases execDecode_next h with ⟨c, k, hc, -, rfl⟩ | ⟨-, hd, -, -, hw⟩
  · exact validityFollows_raised hc _
  · obtain ⟨hs, hfail⟩ := finishWalk_validity (s := treeLoaded hd s) he hw
    refine ⟨fun _ => hs, fun ht hor => ?_, fun _ _ _ => hs⟩
    obtain ⟨i, hl⟩ := hfail ht
    simp [walkDecode_failed_isWalk hl] at hor

/-- Settles O54, command by command: each either is turned away, leaves its row, or ends as its walk does. -/
theorem validityBitsFollowTheCommand : Obligations.ValidityBitsFollowTheCommand := by
  intro i s t he h
  cases i with
  | nop =>
    obtain rfl := Host.Outcome.next.inj h
    exact validityFollows_of_ok he ⟨rfl, rfl, rfl⟩
  | clear =>
    obtain rfl := Host.Outcome.next.inj h
    exact validityFollows_of_ok he ⟨rfl, rfl, rfl⟩
  | count =>
    rcases execCount_next h with ⟨e, hf, rfl⟩ | ⟨-, rfl⟩
    · exact validityFollows_raised (countChecks_causes hf) _
    · exact validityFollows_of_ok he ⟨rfl, rfl, rfl⟩
  | build =>
    rcases execBuild_next h with ⟨-, rfl⟩ | ⟨hv, rfl⟩
    · exact validityFollows_raised rfl _
    · exact validityFollows_of_ok he ⟨rfl, hv, rfl, rfl⟩
  | derive =>
    rcases execDerive_next h with ⟨-, rfl⟩ | ⟨hv, c, -, rfl⟩
    · exact validityFollows_raised rfl _
    · exact validityFollows_of_ok he ⟨rfl, rfl, hv, rfl⟩
  | pack =>
    rcases execPack_next h with ⟨c, k, hc, -, rfl⟩ | ⟨-, -, -, -, rfl⟩
    · exact validityFollows_raised hc _
    · exact validityFollows_of_ok he ⟨rfl, rfl, rfl⟩
  | unpack => exact execUnpack_validity he h
  | encode =>
    rcases execEncode_next h with ⟨c, k, hc, -, rfl⟩ | ⟨-, c, -, -, rfl⟩
    · exact validityFollows_raised hc _
    · exact validityFollows_of_ok he ⟨rfl, rfl, rfl⟩
  | parse =>
    rcases execParse_next h with ⟨c, k, hc, -, rfl⟩ | ⟨-, hd, -, rfl⟩
    · exact validityFollows_raised hc _
    · exact validityFollows_of_ok he ⟨rfl, rfl, rfl⟩
  | decode => exact execDecode_validity he h

end Sys2Proof.Machine

/-! PROOFS. The statements of the family 20_memory: the BUF window, and the layout of the header. -/

namespace Sys2Proof.Machine

/-! ### The BUF window (R101, R102) -/

theorem legalBufBytes_le {n : Nat} (h : legalBufBytes n = true) : n ≤ 2 ^ 24 := by
  simp only [legalBufBytes, Bool.and_eq_true, decide_eq_true_eq] at h
  exact h.2

theorem reads_buf (s : State) {k : Nat} (hn : s.bufBytes ≤ 2 ^ 24) (hk : 4 * k < s.bufBytes) :
    readsAs s (at25 (0x1000000 + 4 * k)) (readTarget s (Config.drawWord s.draws) (.buf k)) :=
  reads_at25 (by omega) (by omega) (decodeOffset_buf _ k hn hk)

theorem writes_buf (s : State) {k : Nat} (hn : s.bufBytes ≤ 2 ^ 24) (hk : 4 * k < s.bufBytes) (data : Word)
    (strb : BitVec 4) : hostWrite (at25 (0x1000000 + 4 * k)) data strb s =
      { writeBuf k data strb s with response := some (.write .okay) } :=
  hostWrite_mapped (aligned_at25 (by omega) (by omega)) (decodeOffset_buf _ k hn hk) data strb

theorem writeLanes_no_strobe (m : Memory) (k : Nat) (data : Word) : writeLanes m k data 0b0000#4 = m := rfl

/-- While idle the strobed lanes are stored; a write that strobes none stores nothing and sets OVR (R358). -/
theorem writeBuf_idle {s : State} (hb : s.busy = false) (k : Nat) (data : Word) (strb : BitVec 4) :
    writeBuf k data strb s =
      { s with buf := writeLanes s.buf k data strb, ovr := s.ovr || decide (strb = 0b0000#4) } := by
  by_cases h : strb = 0b0000#4
  · simp [writeBuf, State.drops, dropWrite, writeLanes_no_strobe, h]
  · simp [writeBuf, State.drops, hb, h]

theorem writeBuf_busy {s : State} (hb : s.busy = true) (k : Nat) (data : Word) (strb : BitVec 4) :
    writeBuf k data strb s = { s with ovr := true } := by
  simp [writeBuf, State.drops, dropWrite, hb]

theorem read_writeLanes_lane {m : Memory} (k : Nat) (data : Word) (strb : BitVec 4) (hm : m.wf = true) {j : Nat}
    (hj : j < 4) : (writeLanes m k data strb).read (4 * k + j) =
      if strb.getLsbD j then laneByte data j else m.read (4 * k + j) := by
  rw [read_writeLanes k data strb hm]
  simp [hj]

theorem writeLanes_sameOutside {m : Memory} (k : Nat) (data : Word) (strb : BitVec 4) (hm : m.wf = true) :
    bufSameOutside m (writeLanes m k data strb) (4 * k) 4 := by
  intro a ha
  rw [read_writeLanes k data strb hm, if_neg (by omega)]

/-- Settles O22: a read shows `bufWord` or the draw, and a write does what `writeBuf` does, idle or busy. -/
theorem bufWindowMovesLittleEndianLanes : Obligations.BufWindowMovesLittleEndianLanes := by
  intro s k hwf hlegal hk
  have hn : s.bufBytes ≤ 2 ^ 24 := legalBufBytes_le hlegal
  have hread := reads_buf s hn hk
  refine ⟨fun hb => ⟨⟨bufWord s.buf k, ?_, fun j hj => laneByte_bufWord s.buf k j hj⟩, fun data strb =>
    ⟨writeLanes s.buf k data strb, ?_, fun j hj => read_writeLanes_lane k data strb hwf hj,
      writeLanes_sameOutside k data strb hwf⟩⟩, fun hb => ⟨?_, fun data strb => ?_⟩⟩
  · rwa [readTarget, hidden_of_idle hb] at hread
  · rw [writes_buf s hn hk, writeBuf_idle hb]
  · rwa [readTarget, hidden_of_busy hb] at hread
  · rw [writes_buf s hn hk, writeBuf_busy hb]

/-! ### The header layout (R121, R122, R313) -/

/-- Byte k of `be_N(v)` (R121). -/
theorem toNat_getElem_toBe (N v k : Nat) (h : k < (toBe N v).length) :
    (toBe N v)[k].toNat = v / 2 ^ (8 * (N - 1 - k)) % 256 := by
  simp [toBe, pow_mul]

/-- Every entry is nine bytes, so the entries from the k-th on start at byte 9k. -/
theorem drop_entryBytes (F : SymTable (BitVec 64)) (l : List Byte) (k : Nat) :
    (entryBytes F l).drop (9 * k) = entryBytes F (l.drop k) := by
  induction k generalizing l with
  | zero => simp
  | succ k ih =>
    cases l with
    | nil => simp [entryBytes]
    | cons s l =>
      have hs : entryBytes F (s :: l) = (s :: toBe 8 (symAt F s).toNat) ++ entryBytes F l := rfl
      rw [hs, show 9 * (k + 1) = (s :: toBe 8 (symAt F s).toNat).length + 9 * k by simp; omega,
        List.drop_length_add_append, List.drop_succ_cons, ih]

theorem drop_serializeHeader (F : SymTable (BitVec 64)) (N p : Nat) :
    (serializeHeader F N p).drop 11 = entryBytes F (present F) :=
  List.drop_left' (l₁ := [BitVec.ofNat 8 p] ++ toBe 8 N ++ toBe 2 (presentCount F)) (by simp)

/-- From byte 11 + 9k on stand the k-th present symbol, its frequency, and the later entries. -/
theorem drop_serializeHeader_entry (F : SymTable (BitVec 64)) (N p : Nat) {k : Nat} (h : k < (present F).length) :
    (serializeHeader F N p).drop (11 + 9 * k) =
      (present F)[k] :: (toBe 8 (symAt F (present F)[k]).toNat ++ entryBytes F ((present F).drop (k + 1))) := by
  rw [← List.drop_drop, drop_serializeHeader, drop_entryBytes, List.drop_eq_getElem_cons h]
  rfl

theorem serializeHeader_symbol (F : SymTable (BitVec 64)) (N p : Nat) {k : Nat} (h : k < (present F).length) :
    (serializeHeader F N p)[11 + 9 * k]? = some (present F)[k] := by
  rw [← List.head?_drop, drop_serializeHeader_entry F N p h, List.head?_cons]

theorem serializeHeader_frequency (F : SymTable (BitVec 64)) (N p : Nat) {k : Nat} (h : k < (present F).length) :
    ((serializeHeader F N p).drop (12 + 9 * k)).take 8 = toBe 8 (symAt F (present F)[k]).toNat := by
  rw [show 12 + 9 * k = 11 + 9 * k + 1 by omega, ← List.drop_drop, drop_serializeHeader_entry F N p h,
    List.drop_succ_cons, List.drop_zero]
  exact List.take_left' (length_toBe 8 _)

/-- The original length stands in bytes 1 to 8 (R122). -/
theorem serializeHeader_length_field (F : SymTable (BitVec 64)) (N p : Nat) :
    ((serializeHeader F N p).drop 1).take 8 = toBe 8 N := by
  rw [serializeHeader_eq]
  exact List.take_left' (length_toBe 8 N)

/-- The symbol count stands in bytes 9 and 10 (R122). -/
theorem serializeHeader_count_field (F : SymTable (BitVec 64)) (N p : Nat) :
    ((serializeHeader F N p).drop 9).take 2 = toBe 2 (presentCount F) := by
  rw [serializeHeader_eq]
  exact take_drop_append_left (BitVec.ofNat 8 p :: toBe 8 N) _ _ 9 2 (by simp) (by simp)

/-- Settles O44, field by field; the list of symbols is `present F`. -/
theorem headerLayoutIsBigEndianAscending : Obligations.HeaderLayoutIsBigEndianAscending := by
  refine ⟨fun N v => ⟨length_toBe N v, toNat_getElem_toBe N v⟩, fun N v hv => ?_, fun F N p => ?_⟩
  · exact ofBe_toBe N v (by rwa [pow_mul] at hv)
  · have hcount : (present F).length ≤ 256 := presentCount_le F
    exact ⟨present F, mem_present F, pairwise_present F, length_serializeHeader F N p, by omega, rfl,
      serializeHeader_length_field F N p, serializeHeader_count_field F N p,
      fun k hk => ⟨serializeHeader_symbol F N p hk, serializeHeader_frequency F N p hk⟩⟩

end Sys2Proof.Machine

/-! PROOFS. The statements of the family 30_encoding: the command word, its decoder and its encoder. -/

namespace Sys2Proof

/-! ### The command word (R150, R153, R155) -/

theorem wordForm : ∀ i : Instr, Laws.WordForm.Statement i
  | .nop => Laws.WordForm.nop
  | .clear => Laws.WordForm.clear
  | .count => Laws.WordForm.count
  | .build => Laws.WordForm.build
  | .derive => Laws.WordForm.derive
  | .pack => Laws.WordForm.pack
  | .unpack => Laws.WordForm.unpack
  | .encode => Laws.WordForm.encode
  | .parse => Laws.WordForm.parse
  | .decode => Laws.WordForm.decode

theorem wordWellFormed_encode (i : Instr) : wordWellFormed (encode i) = true := by
  obtain ⟨-, -, -, hw⟩ := wordForm i
  exact hw

theorem toNat_opcodeOf_lt (i : Instr) : (opcodeOf i).toNat < 10 := by
  cases i <;> decide

/-- The decoder's map gives a command for its opcode, and an error for every byte from ten on. -/
theorem decodeOpcode_cases (op : Byte) :
    (∃ i, op = opcodeOf i ∧ decodeOpcode op = .ok i) ∨
    (10 ≤ op.toNat ∧ decodeOpcode op = .error .unassignedOpcode) := by
  unfold decodeOpcode
  split
  case h_11 =>
    have hle : 10 ≤ op.toNat := by simp only [imp_false] at *; omega
    exact .inr ⟨hle, rfl⟩
  all_goals exact .inl ⟨_, BitVec.eq_of_toNat_eq ‹_›, rfl⟩

theorem decodeOpcode_eq_ok_iff {op : Byte} {i : Instr} : decodeOpcode op = .ok i ↔ op = opcodeOf i := by
  constructor
  · intro h
    rcases decodeOpcode_cases op with ⟨j, hop, hok⟩ | ⟨-, herr⟩
    · rwa [← Except.ok.inj (hok.symm.trans h)]
    · nomatch herr.symm.trans h
  · rintro rfl
    cases i <;> rfl

theorem decodeOpcode_eq_error_iff {op : Byte} : (∃ e, decodeOpcode op = .error e) ↔ 10 ≤ op.toNat := by
  rcases decodeOpcode_cases op with ⟨i, rfl, hok⟩ | ⟨hle, herr⟩
  · simp [hok, toNat_opcodeOf_lt i]
  · simp [herr, hle]

theorem decodeCmd_eq_ok_iff {w : Word} {i : Instr} :
    decodeCmd w = .ok i ↔ rsvdField w = 0#24 ∧ opField w = opcodeOf i := by
  by_cases hrsvd : rsvdField w = 0#24
  · simp [decodeCmd, hrsvd, decodeOpcode_eq_ok_iff]
  · simp [decodeCmd, hrsvd]

theorem decodeCmd_eq_error_iff {w : Word} :
    (∃ e, decodeCmd w = .error e) ↔ rsvdField w ≠ 0#24 ∨ 10 ≤ (opField w).toNat := by
  by_cases hrsvd : rsvdField w = 0#24
  · simp [decodeCmd, hrsvd, decodeOpcode_eq_error_iff]
  · simp [decodeCmd, hrsvd]

/-- A word is its two fields, one after the other. -/
theorem rsvdField_append_opField (w : Word) : rsvdField w ++ opField w = w :=
  (BitVec.extractLsb'_append_extractLsb'_eq_extractLsb' rfl).trans BitVec.extractLsb'_eq_self

theorem eq_encode_iff {w : Word} {i : Instr} : w = encode i ↔ rsvdField w = 0#24 ∧ opField w = opcodeOf i := by
  constructor
  · rintro rfl
    obtain ⟨-, hop, hrsvd, -⟩ := wordForm i
    exact ⟨hrsvd, hop⟩
  · rintro ⟨hrsvd, hop⟩
    rw [← rsvdField_append_opField w, hrsvd, hop, encode]

theorem decodeCmd_eq_ok_iff_eq_encode {w : Word} {i : Instr} : decodeCmd w = .ok i ↔ w = encode i :=
  decodeCmd_eq_ok_iff.trans eq_encode_iff.symm

@[simp] theorem decodeCmd_encode (i : Instr) : decodeCmd (encode i) = .ok i :=
  decodeCmd_eq_ok_iff_eq_encode.mpr rfl

@[simp] theorem decodeTableWord_toNat (w : Word) : decodeTableWord 32 w.toNat = (decodeCmd w).toOption := by
  rw [decodeTableWord, Nat.mod_eq_of_lt w.isLt, if_pos w.isLt, BitVec.ofNat_toNat, BitVec.setWidth_eq]

/-- Settles O2: the opcode map and the two fields of a word, each in both directions. -/
theorem wordsSelectCommandsByTheirOpcode : Obligations.WordsSelectCommandsByTheirOpcode := by
  refine ⟨rfl, fun _ _ => decodeCmd_eq_ok_iff, fun _ _ => decodeCmd_eq_ok_iff_eq_encode, fun i _ => ?_,
    fun _ => decodeCmd_eq_error_iff⟩
  refine ⟨decodeCmd_encode i, ?_, wordWellFormed_encode i⟩
  rw [decodeTableWord_toNat, decodeCmd_encode]
  rfl

end Sys2Proof

/-! PROOFS. The statements of the family 40_frequency: CLEAR and COUNT. -/

namespace Sys2Proof.Machine

/-! ### CLEAR (R201) -/

/-- Settles O25: the table CLEAR writes is the constant 0. -/
theorem clearStartsAZeroTable : Obligations.ClearStartsAZeroTable := fun s =>
  ⟨symTable fun _ => 0#64, symAt_symTable _, execClear_eq s⟩

/-! ### What COUNT counts (R200, R44) -/

/-- Counting a symbol in the bytes of the source range is counting the positions that hold it. -/
theorem count_srcBytes (s : State) (x : Byte) : s.srcBytes.count x = s.srcCount x := by
  rw [State.srcBytes, Memory.readBytes, List.count, List.countP_map, List.countP_eq_length_filter]
  rfl

/-- The present symbols are those with a positive counter. -/
theorem presentCount_eq (F : SymTable (BitVec 64)) :
    presentCount F = (symbols.filter fun x => decide (0 < (symAt F x).toNat)).length := by
  have hpos : ∀ x : Byte, (symAt F x != 0#64) = decide (0 < (symAt F x).toNat) := fun x => by
    rw [Bool.eq_iff_iff, bne_iff_ne, decide_eq_true_iff, Nat.pos_iff_ne_zero, ← BitVec.toNat_ne_iff_ne, BitVec.toNat_zero]
  rw [presentCount, present_eq, funext hpos]

/-- The table is exact: no counter overflows once the total does not, since the total is their sum (R206). -/
theorem symAt_counted {s : State} (h : s.Inv) (hf : s.freqValid = true)
    (ht : s.total.toNat + s.srcLen.toNat ≤ 2 ^ 64 - 1) (x : Byte) :
    (symAt (addCounts s.freq s.srcBytes) x).toNat = (symAt s.freq x).toNat + s.srcCount x := by
  obtain ⟨hsum, -⟩ := h.freq_valid hf
  have hfits : tableSum s.freq + s.srcBytes.length < 2 ^ 64 := by
    rw [← hsum, length_srcBytes]
    omega
  rw [symAt_addCounts _ _ _ hfits, count_srcBytes]

/-! ### How COUNT ends (R202) -/

theorem exec_count (s : State) : exec .count s = execCount s := rfl

theorem exec_count_of_failure {s : State} {e : Cause × Word} (h : firstFailure (countChecks s) = some e) :
    exec .count s = raise e.1 e.2 s :=
  (exec_count s).trans (checked_of_some s _ h)

theorem exec_count_of_passed {s : State} (h : firstFailure (countChecks s) = none) :
    exec .count s = .next (counted s) :=
  (exec_count s).trans (checked_of_none s _ h)

theorem srcInRange_eq_false_iff (s : State) : s.srcInRange = false ↔ ¬ s.srcOk := by
  rw [← srcInRange_iff, Bool.not_eq_true]

theorem countChecks_no_table {s : State} (hf : s.freqValid = false) :
    firstFailure (countChecks s) = some (.sequence, 0x1#32) := by
  simp [countChecks, firstFailure_cons, sequenceCheck, hf]

theorem countChecks_source_outside {s : State} (hf : s.freqValid = true) (hs : ¬ s.srcOk) :
    firstFailure (countChecks s) = some (.srcRange, 0#32) := by
  simp [countChecks, firstFailure_cons, sequenceCheck, State.srcCheck, hf, (srcInRange_eq_false_iff s).mpr hs]

theorem countChecks_overflow {s : State} (hf : s.freqValid = true) (hs : s.srcOk)
    (ht : 2 ^ 64 - 1 < s.total.toNat + s.srcLen.toNat) :
    firstFailure (countChecks s) = some (.freqOverflow, 0#32) := by
  have hover : decide (s.total.toNat + s.srcLen.toNat ≤ 2 ^ 64 - 1) = false := decide_eq_false (Nat.not_le.mpr ht)
  rw [countChecks, hover]
  simp [firstFailure_cons, sequenceCheck, State.srcCheck, hf, (srcInRange_iff s).mpr hs]

/-- Settles O26: the three failures in the order of the checks, and the state `counted s` when all pass. -/
theorem countAddsTheExactByteCounts : Obligations.CountAddsTheExactByteCounts := by
  intro s hinv
  refine ⟨fun hf => exec_count_of_failure (countChecks_no_table hf),
    fun hf hs => exec_count_of_failure (countChecks_source_outside hf hs),
    fun hf hs ht => exec_count_of_failure (countChecks_overflow hf hs ht), fun hf hs ht => ?_⟩
  have htotal : (BitVec.ofNat 64 (s.total.toNat + s.srcLen.toNat)).toNat = s.total.toNat + s.srcLen.toNat := by
    rw [BitVec.toNat_ofNat]
    exact Nat.mod_eq_of_lt (by omega)
  exact ⟨addCounts s.freq s.srcBytes, _, _, symAt_counted hinv hf ht, htotal,
    (presentCount_toNat _).trans (presentCount_eq _), exec_count_of_passed ((countChecks_none s).mpr ⟨hf, hs, ht⟩)⟩

end Sys2Proof.Machine

/-! PROOFS. The statements of the family 41_tree_builder: the merges, the shape and the counts of the tree, its
frequencies, and BUILD. -/

namespace Sys2Proof.Machine

/-! ### Children and waiting nodes (R224) -/

/-- The child of a node on a side, 0 left and 1 right. -/
def Node.child (nd : Node) (b : Bool) : NodeIndex := if b then nd.right else nd.left

@[simp] theorem Node.child_false (nd : Node) : nd.child false = nd.left := rfl

@[simp] theorem Node.child_true (nd : Node) : nd.child true = nd.right := rfl

theorem mem_drop_of_getElem? {ns : List Node} {n j : Nat} {nd : Node} (hn : n ≤ j) (hj : ns[j]? = some nd) :
    nd ∈ ns.drop n :=
  List.mem_iff_getElem?.mpr ⟨j - n, by rwa [List.getElem?_drop, Nat.add_sub_cancel' hn]⟩

theorem mem_childRefs {ns : List Node} {n x : Nat} :
    x ∈ childRefs ns n ↔ ∃ j nd, n ≤ j ∧ ns[j]? = some nd ∧ (nd.left.toNat = x ∨ nd.right.toNat = x) := by
  rw [childRefs, List.mem_flatMap]
  constructor
  · rintro ⟨nd, hnd, hx⟩
    obtain ⟨j, hj⟩ := List.mem_iff_getElem?.mp hnd
    rw [List.getElem?_drop] at hj
    exact ⟨n + j, nd, Nat.le_add_right n j, hj, by simpa [eq_comm] using hx⟩
  · rintro ⟨j, nd, hn, hj, hx⟩
    exact ⟨nd, mem_drop_of_getElem? hn hj, by simpa [eq_comm] using hx⟩

/-- When all nodes are made, the waiting ones are those that are no child. -/
theorem waiting_length_iff {ns : List Node} {n i : Nat} :
    waiting ns n ns.length i ↔ i < ns.length ∧ i ∉ childRefs ns n := by
  refine and_congr_right fun _ => ?_
  rw [mem_childRefs]
  constructor
  · rintro h ⟨j, nd, hn, hj, hx⟩
    obtain ⟨hl, hr⟩ := h j hn (List.getElem?_eq_some_iff.mp hj).1 nd hj
    exact hx.elim hl hr
  · intro h j hn _ nd hj
    exact ⟨fun e => h ⟨j, nd, hn, hj, .inl e⟩, fun e => h ⟨j, nd, hn, hj, .inr e⟩⟩

/-- The nodes that wait are those whose keys the queue holds. -/
theorem Forest.waiting_iff {F : SymTable (BitVec 64)} {ns : List Node} {q : List Key} (h : Forest F ns q) (i : Nat) :
    waiting ns (presentCount F) ns.length i ↔ ∃ k ∈ q, k.idx = i := by
  have hnodup := h.once.nodup_iff.mpr List.nodup_range
  have hmem : i < ns.length ↔ i ∈ q.map Key.idx ∨ i ∈ childRefs ns (presentCount F) := by
    rw [← List.mem_range, ← h.once.mem_iff, List.mem_append]
  have hdisj : i ∈ q.map Key.idx → i ∉ childRefs ns (presentCount F) :=
    fun hq hc => (List.disjoint_of_nodup_append hnodup) hq hc
  rw [waiting_length_iff, hmem, ← List.mem_map]
  tauto

/-- Later nodes do not change which nodes wait. -/
theorem waiting_append {ns ms : List Node} {n k i : Nat} (hk : k ≤ ns.length) :
    waiting (ns ++ ms) n k i ↔ waiting ns n k i := by
  refine and_congr_right fun _ => forall_congr' fun j => forall_congr' fun _ => forall_congr' fun hj => ?_
  rw [List.getElem?_append_left (by omega)]

theorem Forest.waiting_append_iff {F : SymTable (BitVec 64)} {ns : List Node} {q : List Key} (h : Forest F ns q)
    (ms : List Node) (i : Nat) : waiting (ns ++ ms) (presentCount F) ns.length i ↔ ∃ k ∈ q, k.idx = i :=
  (waiting_append le_rfl).trans (h.waiting_iff i)

theorem waiting.lt {ns : List Node} {n k i : Nat} (h : waiting ns n k i) : i < k := h.1

theorem nodeFreq_of_getElem? {ns : List Node} {i : Nat} {nd : Node} (h : ns[i]? = some nd) :
    nodeFreq ns i = nd.f.toNat := by
  rw [nodeFreq, h, Option.elim_some]

theorem nodeFreq_append {ns ms : List Node} {i : Nat} (h : i < ns.length) : nodeFreq (ns ++ ms) i = nodeFreq ns i := by
  rw [nodeFreq, nodeFreq, List.getElem?_append_left h]

/-- A key of the queue holds the frequency of its node (R222). -/
theorem Forest.nodeFreq_eq {F : SymTable (BitVec 64)} {ns : List Node} {q : List Key} (h : Forest F ns q)
    (ht : tableSum F < 2 ^ 64) {k : Key} (hk : k ∈ q) : nodeFreq ns k.idx = k.f := by
  obtain ⟨nd, hnd, hf⟩ := Option.map_eq_some_iff.mp (h.keys ht k hk)
  rw [nodeFreq_of_getElem? hnd, hf]

theorem Forest.nodeFreq_append_eq {F : SymTable (BitVec 64)} {ns : List Node} {q : List Key} (h : Forest F ns q)
    (ht : tableSum F < 2 ^ 64) (ms : List Node) {k : Key} (hk : k ∈ q) : nodeFreq (ns ++ ms) k.idx = k.f :=
  (nodeFreq_append (h.mem_lt hk)).trans (h.nodeFreq_eq ht hk)

/-! ### The merges take the two smallest keys (R233) -/

/-- Node k merges the two waiting nodes of the smallest keys, the smaller one on the left. -/
def MergesSmallest (ns : List Node) (n k : Nat) : Prop :=
  ∃ a b, waiting ns n k a ∧ waiting ns n k b ∧ keyLt (nodeFreq ns a) a (nodeFreq ns b) b ∧
    (∀ c, waiting ns n k c → c ≠ a → c ≠ b → keyLt (nodeFreq ns b) b (nodeFreq ns c) c) ∧
    ∃ nd : Node, ns[k]? = some nd ∧ nd.kind = 1#1 ∧ nd.sym = 0#8 ∧ nd.left.toNat = a ∧ nd.right.toNat = b ∧
      nd.f.toNat = nodeFreq ns a + nodeFreq ns b

/-- Later nodes do not change what an earlier merge has taken. -/
theorem MergesSmallest.append {ns : List Node} {n k : Nat} (h : MergesSmallest ns n k) (ms : List Node) :
    MergesSmallest (ns ++ ms) n k := by
  obtain ⟨a, b, ha, hb, hlt, hleast, nd, hnd, hk, hs, hl, hr, hf⟩ := h
  have hkl : k < ns.length := (List.getElem?_eq_some_iff.mp hnd).1
  have hfreq : ∀ {i}, waiting ns n k i → nodeFreq (ns ++ ms) i = nodeFreq ns i :=
    fun hi => nodeFreq_append (lt_trans hi.lt hkl)
  refine ⟨a, b, (waiting_append hkl.le).mpr ha, (waiting_append hkl.le).mpr hb, ?_, fun c hc hca hcb => ?_,
    nd, ?_, hk, hs, hl, hr, ?_⟩
  · rwa [hfreq ha, hfreq hb]
  · have hc' := (waiting_append hkl.le).mp hc
    rw [hfreq hb, hfreq hc']
    exact hleast c hc' hca hcb
  · rwa [List.getElem?_append_left hkl]
  · rw [hf, hfreq ha, hfreq hb]

/-- One round of the loop: the two keys at the head of the queue are the two smallest. -/
theorem Forest.mergesSmallest {F : SymTable (BitVec 64)} {ns : List Node} {a b : Key} {q : List Key}
    (h : Forest F ns (a :: b :: q)) (ht : tableSum F < 2 ^ 64) :
    MergesSmallest (ns ++ [mergeNode (a.f + b.f) (nodeIndex a.idx) (nodeIndex b.idx)]) (presentCount F) ns.length := by
  have hsize := h.size
  have hn := presentCount_le F
  have htot := h.total
  simp only [List.length_cons, List.map_cons, List.sum_cons] at hsize htot
  have ha : a ∈ a :: b :: q := by simp
  have hb : b ∈ a :: b :: q := by simp
  have hidx : ∀ k ∈ a :: b :: q, (nodeIndex k.idx).toNat = k.idx := fun k hk => by
    have := h.mem_lt hk
    exact toNat_nodeIndex (by omega)
  obtain ⟨hamin, hbmin, -⟩ := (List.pairwise_cons.mp h.sorted).imp_right List.pairwise_cons.mp
  refine ⟨a.idx, b.idx, (h.waiting_append_iff _ _).mpr ⟨a, ha, rfl⟩, (h.waiting_append_iff _ _).mpr ⟨b, hb, rfl⟩, ?_,
    fun c hc hca hcb => ?_, _, List.getElem?_concat_length, rfl, rfl, hidx a ha, hidx b hb, ?_⟩
  · rw [h.nodeFreq_append_eq ht _ ha, h.nodeFreq_append_eq ht _ hb]
    exact (Key.before_iff a b).mp (hamin b (by simp))
  · obtain ⟨k, hk, rfl⟩ := (h.waiting_append_iff _ c).mp hc
    rw [h.nodeFreq_append_eq ht _ hb, h.nodeFreq_append_eq ht _ hk]
    have hkq : k ∈ q := by
      rcases List.mem_cons.mp hk with rfl | hk
      · exact absurd rfl hca
      · exact (List.mem_cons.mp hk).resolve_left fun e => hcb (congrArg Key.idx e)
    exact (Key.before_iff b k).mp (hbmin k hkq)
  · rw [h.nodeFreq_append_eq ht _ ha, h.nodeFreq_append_eq ht _ hb]
    exact (BitVec.toNat_ofNat _ _).trans (Nat.mod_eq_of_lt (by omega))

/-- What holds of the leaves and is kept by every round of the loop holds of the nodes of the tree (R224). -/
theorem buildTree_keeps (F : SymTable (BitVec 64)) (h : 2 ≤ presentCount F) (P : List Node → Prop)
    (hstart : P (leaves F))
    (hstep : ∀ ns a b q, Forest F ns (a :: b :: q) → P ns →
      P (ns ++ [mergeNode (a.f + b.f) (nodeIndex a.idx) (nodeIndex b.idx)])) :
    P (buildTree F).nodes := by
  have hsize := (Forest.start F).size
  rw [length_leaves] at hsize
  have hne : enqueueLeaves (leaves F) 0 [] ≠ [] := fun e => by
    rw [e, List.length_nil] at hsize
    omega
  obtain ⟨_, -, hP⟩ := mergeAll_keeps (fun ns q => Forest F ns q ∧ P ns)
    (fun ns a b q hq => ⟨hq.1.merge, hstep ns a b q hq.1 hq.2⟩) (leaves F).length (leaves F) _
    ⟨Forest.start F, hstart⟩ hne (by rw [length_leaves]; omega)
  obtain ⟨x, y, ls, hls⟩ : ∃ x y ls, leaves F = x :: y :: ls := by
    match hm : leaves F, length_leaves F with
    | x :: y :: ls, _ => exact ⟨x, y, ls, rfl⟩
    | [], hl | [_], hl => simp at hl; omega
  rw [buildTree, hls]
  rwa [hls] at hP

/-- Settles O34: every round of the loop makes such a node and leaves the earlier ones as they are. -/
theorem mergesTakeTheTwoSmallestKeys : Obligations.MergesTakeTheTwoSmallestKeys := by
  intro F k ht h2
  refine buildTree_keeps F h2
    (fun ns => presentCount F ≤ k → k < ns.length → MergesSmallest ns (presentCount F) k) ?_ ?_
  · intro hk hl
    rw [length_leaves] at hl
    omega
  · intro ns a b q hforest ih hk hl
    rw [List.length_append, List.length_singleton] at hl
    rcases Nat.lt_succ_iff_lt_or_eq.mp hl with hlt | rfl
    · exact (ih hk hlt).append _
    · exact hforest.mergesSmallest ht

/-! ### Parents (R229) -/

section Shape

variable {F : SymTable (BitVec 64)} {t : Tree} {pool : Vector Node 511}

/-- The index of an internal node stands after the leaves. -/
theorem Shape.presentCount_le_of_inner (sh : Shape F t) {p : Nat} {nd : Node} (hnd : t.nodes[p]? = some nd)
    (hk : nd.kind = 1#1) : presentCount F ≤ p := by
  by_contra hlt
  have hleaf := sh.leaf p (Nat.not_le.mp hlt)
  rw [hnd, Option.some.injEq] at hleaf
  subst hleaf
  exact absurd hk (by simp [leafNode])

theorem Shape.child_lt (sh : Shape F t) {p : Nat} {nd : Node} (hnd : t.nodes[p]? = some nd) (hk : nd.kind = 1#1)
    (b : Bool) : (nd.child b).toNat < p ∨ (presentCount F = 1 ∧ b = true ∧ nd.child b = Config.noNode) := by
  obtain ⟨hp, rfl⟩ := List.getElem?_eq_some_iff.mp hnd
  obtain ⟨-, hleft, hright⟩ := sh.inner p (sh.presentCount_le_of_inner hnd hk) hp
  cases b with
  | false => exact .inl hleft
  | true => exact hright.imp_right fun ⟨h1, hnone⟩ => ⟨h1, rfl, hnone⟩

section Unique

variable {ns : List Node} {n : Nat} (h : ((childRefs ns n).filter (· ≠ 511)).Nodup)

include h

/-- A node from slot n on has no child on both sides. -/
theorem left_ne_right {i : Nat} {u : Node} (hi : n ≤ i) (hu : ns[i]? = some u) (hl : u.left.toNat ≠ 511) :
    u.left.toNat ≠ u.right.toNat := by
  rw [childRefs, List.filter_flatMap, List.nodup_flatMap] at h
  intro e
  have hsides := h.1 u (mem_drop_of_getElem? hi hu)
  simp [← e, hl] at hsides

/-- Two nodes from slot n on share no child. -/
theorem child_ne_child {i j : Nat} {u v : Node} {c d : Bool} (hi : n ≤ i) (hij : i < j) (hu : ns[i]? = some u)
    (hv : ns[j]? = some v) (hc : (u.child c).toNat ≠ 511) : (u.child c).toNat ≠ (v.child d).toNat := by
  rw [childRefs, List.filter_flatMap, List.nodup_flatMap] at h
  obtain ⟨hil, rfl⟩ := List.getElem?_eq_some_iff.mp hu
  obtain ⟨hjl, rfl⟩ := List.getElem?_eq_some_iff.mp hv
  have hdisj := List.pairwise_iff_getElem.mp h.2 (i - n) (j - n) (by simp; omega) (by simp; omega) (by omega)
  simp only [List.getElem_drop, Nat.add_sub_cancel' hi, Nat.add_sub_cancel' (hi.trans hij.le)] at hdisj
  have hmem : ∀ (nd : Node) (b : Bool), (nd.child b).toNat ≠ 511 →
      (nd.child b).toNat ∈ [nd.left.toNat, nd.right.toNat].filter (· ≠ 511) := fun nd b hb =>
    List.mem_filter.mpr ⟨by cases b <;> simp, by simpa using hb⟩
  intro e
  exact hdisj (hmem _ c hc) (e ▸ hmem _ d (e ▸ hc))

theorem child_unique {p p' : Nat} {nd nd' : Node} {b b' : Bool} (hp : n ≤ p) (hp' : n ≤ p') (hnd : ns[p]? = some nd)
    (hnd' : ns[p']? = some nd') (hne : (nd.child b).toNat ≠ 511) (e : (nd.child b).toNat = (nd'.child b').toNat) :
    p' = p ∧ b' = b := by
  rcases Nat.lt_trichotomy p p' with hlt | rfl | hlt
  · exact (child_ne_child h hp hlt hnd hnd' hne e).elim
  · obtain rfl : nd = nd' := Option.some.inj (hnd.symm.trans hnd')
    refine ⟨rfl, ?_⟩
    match b, b' with
    | false, false => rfl
    | true, true => rfl
    | false, true => exact (left_ne_right h hp hnd hne e).elim
    | true, false => exact (left_ne_right h hp hnd (e ▸ hne) e.symm).elim
  · exact (child_ne_child h hp' hlt hnd' hnd (e ▸ hne) e.symm).elim

end Unique

theorem Shape.parent_unique (sh : Shape F t) {i p p' : Nat} {nd nd' : Node} {b b' : Bool} (hi : i < t.nodes.length)
    (hnd : t.nodes[p]? = some nd) (hk : nd.kind = 1#1) (e : (nd.child b).toNat = i)
    (hnd' : t.nodes[p']? = some nd') (hk' : nd'.kind = 1#1) (e' : (nd'.child b').toNat = i) : p' = p ∧ b' = b := by
  have hfew := sh.few_nodes
  exact child_unique (sh.children.nodup_iff.mpr List.nodup_range) (sh.presentCount_le_of_inner hnd hk)
    (sh.presentCount_le_of_inner hnd' hk') hnd hnd' (by omega) (e.trans e'.symm)

/-- Every node but the root has a parent. -/
theorem Shape.parent_exists (sh : Shape F t) {i : Nat} (hi : i < t.nodes.length) (hr : i ≠ t.root.toNat) :
    ∃ (p : Nat) (b : Bool) (nd : Node), t.nodes[p]? = some nd ∧ nd.kind = 1#1 ∧ (nd.child b).toNat = i := by
  have hroot := sh.root_last
  obtain ⟨p, hp, hn, -, hc⟩ := exists_parent sh (k := i) (by omega)
  have hget := List.getElem?_eq_getElem hp
  have hkind := (sh.inner p hn hp).1
  rcases hc with e | e
  · exact ⟨p, false, _, hget, hkind, e⟩
  · exact ⟨p, true, _, hget, hkind, e⟩

/-! ### Depths (R229) -/

/-- No path leads from `NONE` to a node. -/
theorem followBits_none {l : List Bool} {j : NodeIndex} {nd : Node}
    (hf : followBits pool Config.noNode l = some j) (hj : nodeAt pool j = some nd) : False := by
  cases l with
  | nil =>
    obtain rfl := Option.some.inj hf
    simp at hj
  | cons b l => simp [followBits] at hf

/-- Every branch leaves an internal node for a smaller index, so a path to a leaf has no more branches than there are
internal nodes up to where it starts. -/
theorem Shape.depth_le (sh : Shape F t) (hp : poolHolds pool t) {l : List Bool} {i j : NodeIndex} {nd : Node}
    (hi : i.toNat < t.nodes.length) (hf : followBits pool i l = some j) (hj : nodeAt pool j = some nd) :
    l.length ≤ i.toNat + 1 - presentCount F := by
  induction l generalizing i with
  | nil => exact Nat.zero_le _
  | cons b l ih =>
    rcases Nat.lt_or_ge i.toNat (presentCount F) with hlt | hge
    · simp [followBits, nodeAt_leaf sh hp hlt, leafNode] at hf
    · have hkind : t.nodes[i.toNat].kind = 1#1 := (sh.inner _ hge hi).1
      rw [← List.singleton_append, followBits_append, followBits_branch (nodeAt_of_lt hp hi) hkind,
        Option.bind_some] at hf
      change followBits pool (t.nodes[i.toNat].child b) l = some j at hf
      rcases sh.child_lt (List.getElem?_eq_getElem hi) hkind b with hlt | ⟨-, -, hnone⟩
      · have := ih (hlt.trans hi) hf
        rw [List.length_cons]
        omega
      · rw [hnone] at hf
        exact (followBits_none hf hj).elim

/-- The root is no leaf. -/
theorem Shape.root_kind (sh : Shape F t) (hp : poolHolds pool t) {nd : Node} (h : nodeAt pool t.root = some nd) :
    nd.kind = 1#1 := by
  have hroot := sh.root_last
  have hmore := sh.more_nodes
  have hlt : t.root.toNat < t.nodes.length := by omega
  obtain rfl := Option.some.inj ((nodeAt_of_lt hp hlt).symm.trans h)
  exact (sh.inner _ (by omega) hlt).1

end Shape

theorem length_buildTree_of_two_le {F : SymTable (BitVec 64)} (h : 2 ≤ presentCount F) :
    (buildTree F).nodes.length = 2 * presentCount F - 1 := by
  rw [length_buildTree, if_neg (by omega), if_neg (by omega)]

/-- Settles O38, from the shape of the tree: each slot but the last is once a child, and a path only descends. -/
theorem theTreeHasNoSharingAndNoCycle : Obligations.TheTreeHasNoSharingAndNoCycle := by
  intro F pool hp h1
  have sh := buildTree_shape F h1
  refine ⟨fun i hi hr => ?_, fun p nd hnd hk => ⟨?_, fun h2 => ?_⟩, fun l i nd hf hi hk => ?_⟩
  · obtain ⟨p, b, nd, hnd, hk, e⟩ := sh.parent_exists hi hr
    exact ⟨p, b, ⟨nd, hnd, hk, e⟩, fun p' b' ⟨nd', hnd', hk', e'⟩ => sh.parent_unique hi hnd hk e hnd' hk' e'⟩
  · exact (sh.child_lt hnd hk false).resolve_right fun ⟨_, hb, _⟩ => Bool.noConfusion hb
  · exact (sh.child_lt hnd hk true).resolve_right fun ⟨hone, _⟩ => by omega
  · have hroot := sh.root_last
    have hmore := sh.more_nodes
    have hdepth := sh.depth_le hp (by omega) hf hi
    have hpos : l ≠ [] := by
      rintro rfl
      obtain rfl := Option.some.inj hf
      exact absurd hk (by simp [sh.root_kind hp hi])
    have hpos' := List.length_pos_iff.mpr hpos
    refine ⟨hpos', fun h2 => ?_, fun hone => ?_⟩
    · have := length_buildTree_of_two_le h2
      omega
    · have hlen : (buildTree F).nodes.length = 2 := by rw [length_buildTree, hone]; rfl
      omega

/-! ### BUILD (R230) -/

theorem exec_build (s : State) : exec .build s = execBuild s := rfl

theorem exec_build_without_table {s : State} (hf : s.freqValid = false) :
    exec .build s = raise .sequence 0x1#32 s :=
  (exec_build s).trans <| checked_of_some s _ (e := (.sequence, 0x1#32))
    (by simp [firstFailure_cons, sequenceCheck, hf])

theorem exec_build_with_table {s : State} (hf : s.freqValid = true) : exec .build s = .next (built s) :=
  (exec_build s).trans <| checked_of_none s _ (by simp [firstFailure_cons, sequenceCheck, hf])

/-- Settles O27: the pool BUILD writes is the filled one, which holds the tree. -/
theorem buildWritesTheTreeOfTheTable : Obligations.BuildWritesTheTreeOfTheTable := fun s =>
  ⟨exec_build_without_table, fun hf => ⟨_, _, poolHolds_fillPool s.draws s.freq, length_nodes_toNat s.freq,
    exec_build_with_table hf⟩⟩

/-! ### The leaves and the counts (R220, R225 to R227) -/

/-- Settles O35, with `present F` as the list of symbols: by the shape, or by `buildTree_empty`. -/
theorem leavesAreThePresentSymbolsInOrder : Obligations.LeavesAreThePresentSymbolsInOrder := by
  intro F
  refine ⟨present F, mem_present F, pairwise_present F, ?_⟩
  rcases Nat.eq_zero_or_pos (presentCount F) with h0 | h1
  · have hnil : present F = [] := List.length_eq_zero_iff.mp h0
    simp [hnil, buildTree_empty F h0]
  · have sh := buildTree_shape F h1
    refine ⟨sh.more_nodes.le, sh.leaf, fun k hk nd hnd => ?_⟩
    obtain ⟨hlt, rfl⟩ := List.getElem?_eq_some_iff.mp hnd
    exact (sh.inner k hk hlt).1

/-- The leaf and the root above it (R226). -/
theorem buildTree_of_one {F : SymTable (BitVec 64)} (h : presentCount F = 1) :
    ∃ x, 0 < (symAt F x).toNat ∧ (buildTree F).root = 1#9 ∧ (buildTree F).nodes =
      [{ kind := 0#1, sym := x, f := symAt F x, left := 0x1FF#9, right := 0x1FF#9 },
       { kind := 1#1, sym := 0#8, f := symAt F x, left := 0#9, right := 0x1FF#9 }] := by
  obtain ⟨x, hx, e⟩ := buildTree_single F h
  have hpos : symAt F x ≠ 0#64 := (mem_present F x).mp (by simp [hx])
  refine ⟨x, Nat.pos_of_ne_zero fun h0 => hpos (BitVec.eq_of_toNat_eq h0), ?_, ?_⟩ <;> rw [e]
  · rfl
  · simp [leafNode, mergeNode, nodeIndex, Config.noNode]

/-- Settles O36, by the number of present symbols. -/
theorem nodeCountsFollowThePresentSymbols : Obligations.NodeCountsFollowThePresentSymbols := by
  rintro F n rfl
  rw [← presentCount_eq]
  refine ⟨fun h0 => ?_, buildTree_of_one, fun h2 => ?_, length_buildTree_le F⟩
  · rw [buildTree_empty F h0]
    exact ⟨rfl, rfl⟩
  · have hroot := (buildTree_shape F (by omega)).root_last
    have hlen := length_buildTree_of_two_le h2
    exact ⟨hlen, by omega⟩

/-! ### The frequencies (R228) -/

/-- A merged node has the sum of its children's frequencies. -/
theorem nodeFreq_inner {F : SymTable (BitVec 64)} (ht : tableSum F < 2 ^ 64) (h2 : 2 ≤ presentCount F) {i : Nat}
    {nd : Node} (hi : presentCount F ≤ i) (hnd : (buildTree F).nodes[i]? = some nd) :
    nd.f.toNat = nodeFreq (buildTree F).nodes nd.left.toNat + nodeFreq (buildTree F).nodes nd.right.toNat := by
  obtain ⟨k, hforest, -⟩ := buildTree_forest F h2
  obtain ⟨hl, rfl⟩ := List.getElem?_eq_some_iff.mp hnd
  obtain ⟨l, r, hleft, hright, hsum⟩ := hforest.sums ht i hi hl
  rw [hsum, nodeFreq_of_getElem? hleft, nodeFreq_of_getElem? hright]

/-- The root is the node of the last key left, which holds the total. -/
theorem nodeFreq_root {F : SymTable (BitVec 64)} (ht : tableSum F < 2 ^ 64) (h1 : 1 ≤ presentCount F) :
    nodeFreq (buildTree F).nodes (buildTree F).root.toNat = tableSum F := by
  rcases Nat.lt_or_ge (presentCount F) 2 with hlt | h2
  · obtain ⟨x, hx, e⟩ := buildTree_single F (by omega)
    have hsum : tableSum F = (symAt F x).toNat := by simp [tableSum_eq_present, hx]
    simp [e, nodeFreq, nodeIndex, mergeNode, hsum]
  · have sh := buildTree_shape F h1
    obtain ⟨k, hforest, -⟩ := buildTree_forest F h2
    have hmore := sh.more_nodes
    have hroot := sh.root_last
    have hwait : waiting (buildTree F).nodes (presentCount F) (buildTree F).nodes.length (buildTree F).root.toNat := by
      refine waiting_length_iff.mpr ⟨by omega, fun hmem => ?_⟩
      obtain ⟨j, nd, hn, hj, hx⟩ := mem_childRefs.mp hmem
      obtain ⟨hjl, rfl⟩ := List.getElem?_eq_some_iff.mp hj
      obtain ⟨-, hl, hr⟩ := hforest.inner j hn hjl
      omega
    obtain ⟨k', hk', e⟩ := (hforest.waiting_iff _).mp hwait
    obtain rfl := List.mem_singleton.mp hk'
    rw [← e, hforest.nodeFreq_eq ht hk']
    simpa using hforest.total

/-- No node has more than the total, since every node but the root has a parent that has at least as much. -/
theorem nodeFreq_le_tableSum {F : SymTable (BitVec 64)} (ht : tableSum F < 2 ^ 64) (h2 : 2 ≤ presentCount F) {i : Nat}
    (hi : i < (buildTree F).nodes.length) : nodeFreq (buildTree F).nodes i ≤ tableSum F := by
  have sh := buildTree_shape F (by omega)
  obtain ⟨d, hd⟩ : ∃ d, d = (buildTree F).nodes.length - i := ⟨_, rfl⟩
  induction d using Nat.strongRecOn generalizing i with
  | _ d ih =>
    by_cases hr : i = (buildTree F).root.toNat
    · rw [hr, nodeFreq_root ht (by omega)]
    · obtain ⟨p, b, nd, hnd, hk, hc⟩ := sh.parent_exists hi hr
      have hpl := (List.getElem?_eq_some_iff.mp hnd).1
      have hip : i < p := hc ▸ (sh.child_lt hnd hk b).resolve_right fun ⟨h1, _⟩ => by omega
      have hparent := ih ((buildTree F).nodes.length - p) (by omega) hpl rfl
      have hsum := nodeFreq_inner ht h2 (sh.presentCount_le_of_inner hnd hk) hnd
      rw [nodeFreq_of_getElem? hnd, hsum] at hparent
      cases b with
      | false =>
        rw [← Node.child_false, hc] at hparent
        exact (Nat.le_add_right _ _).trans hparent
      | true =>
        rw [← Node.child_true, hc] at hparent
        exact (Nat.le_add_left _ _).trans hparent

/-- Settles O37: the sums are those of the merges, the bound goes up to the root. -/
theorem frequenciesAddUpToTheTotal : Obligations.FrequenciesAddUpToTheTotal := by
  intro F ht
  refine ⟨fun i nd hnd => ?_, nodeFreq_root ht, fun h2 i nd => nodeFreq_inner ht h2⟩
  rcases Nat.lt_trichotomy (presentCount F) 1 with h0 | h1 | h2
  · simp [buildTree_empty F (Nat.lt_one_iff.mp h0)] at hnd
  · obtain ⟨x, -, -, e⟩ := buildTree_of_one h1
    have hmem := List.mem_of_getElem? hnd
    rw [e] at hmem
    have hf : nd.f = symAt F x := by
      simp only [List.mem_cons, List.not_mem_nil, or_false] at hmem
      rcases hmem with rfl | rfl <;> rfl
    exact hf ▸ symAt_le_tableSum F x
  · exact nodeFreq_of_getElem? hnd ▸ nodeFreq_le_tableSum ht h2 (List.getElem?_eq_some_iff.mp hnd).1

end Sys2Proof.Machine

/-! PROOFS. The statements of the family 42_codebook: the codes as paths, their Kraft sum, and
DERIVE. -/

namespace Sys2Proof.Machine

/-! ### Paths from the root (R229, R251) -/

theorem ne_noNode_of_nodeAt {pool : Vector Node 511} {i : NodeIndex} {nd : Node} (h : nodeAt pool i = some nd) :
    i ≠ Config.noNode :=
  (nodeAt_isSome pool i).mp (by simp [h])

theorem Node.kind_eq_one {nd : Node} (h : ¬ nd.kind = 0#1) : nd.kind = 1#1 := by bv_omega

/-- The last branch of a path leaves an internal node. -/
theorem followBits_concat {pool : Vector Node 511} {i j : NodeIndex} {l : List Bool} {b : Bool} :
    followBits pool i (l ++ [b]) = some j ↔
      ∃ p nd, followBits pool i l = some p ∧ nodeAt pool p = some nd ∧ nd.kind = 1#1 ∧ nd.child b = j := by
  rw [followBits_append, Option.bind_eq_some_iff]
  constructor
  · rintro ⟨p, hl, hb⟩
    cases hnd : nodeAt pool p with
    | none => simp [followBits, hnd] at hb
    | some nd =>
      by_cases hk : nd.kind = 0#1
      · simp [followBits, hnd, hk] at hb
      · have hk1 := Node.kind_eq_one hk
        rw [followBits_branch hnd hk1] at hb
        exact ⟨p, nd, hl, hnd, hk1, Option.some.inj hb⟩
  · rintro ⟨p, nd, hl, hnd, hk, rfl⟩
    exact ⟨p, hl, followBits_branch hnd hk b⟩

/-- A path that ends at a leaf goes no further. -/
theorem eq_of_prefix_of_leaf {pool : Vector Node 511} {root i j : NodeIndex} {l m : List Bool} {nd : Node}
    (hl : followBits pool root l = some i) (hi : nodeAt pool i = some nd) (hk : nd.kind = 0#1)
    (hm : followBits pool root m = some j) (h : l <+: m) : m = l ∧ j = i := by
  obtain ⟨r, rfl⟩ := h
  rw [followBits_append, hl, Option.bind_some] at hm
  cases r with
  | nil => exact ⟨List.append_nil l, (Option.some.inj hm).symm⟩
  | cons b r => simp [followBits, hi, hk] at hm

section Paths

variable {F : SymTable (BitVec 64)} {t : Tree} {pool : Vector Node 511}

theorem Shape.root_lt (sh : Shape F t) : t.root.toNat < t.nodes.length := by
  have hroot := sh.root_last
  have hmore := sh.more_nodes
  omega

theorem getElem?_of_nodeAt (hp : poolHolds pool t) {i : NodeIndex} {nd : Node} (hlt : i.toNat < t.nodes.length)
    (hi : nodeAt pool i = some nd) : t.nodes[i.toNat]? = some nd := by
  rw [← hi, nodeAt_of_lt hp hlt, List.getElem?_eq_getElem hlt]

/-- A path from the root does not leave the tree. -/
theorem Shape.reached_lt (sh : Shape F t) (hp : poolHolds pool t) {l : List Bool} {i : NodeIndex}
    (hl : followBits pool t.root l = some i) (hi : i ≠ Config.noNode) : i.toNat < t.nodes.length := by
  induction l using List.reverseRecOn generalizing i with
  | nil =>
    obtain rfl := Option.some.inj hl
    exact sh.root_lt
  | append_singleton l b ih =>
    obtain ⟨p, nd, hlp, hnd, hk, rfl⟩ := followBits_concat.mp hl
    have hplt := ih hlp (ne_noNode_of_nodeAt hnd)
    rcases sh.child_lt (getElem?_of_nodeAt hp hplt hnd) hk b with hlt | ⟨-, -, hnone⟩
    · exact hlt.trans hplt
    · exact absurd hnone hi

/-- What a path from the root reaches is a node of the tree, whatever the other slots hold (R230). -/
theorem Shape.slot_of_reached (sh : Shape F t) (hp : poolHolds pool t) {l : List Bool} {i : NodeIndex} {nd : Node}
    (hl : followBits pool t.root l = some i) (hi : nodeAt pool i = some nd) : t.nodes[i.toNat]? = some nd :=
  getElem?_of_nodeAt hp (sh.reached_lt hp hl (ne_noNode_of_nodeAt hi)) hi

/-- A path from the root to a node fits the field of a code (R253). -/
theorem Shape.length_le_of_reached (sh : Shape F t) (hp : poolHolds pool t) {l : List Bool} {i : NodeIndex} {nd : Node}
    (hl : followBits pool t.root l = some i) (hi : nodeAt pool i = some nd) : l.length ≤ 255 := by
  have hroot := sh.root_last
  have hroom := sh.depth_room
  have hdepth := sh.depth_le hp sh.root_lt hl hi
  omega

/-- No branch leads back to the root, since a child stands before its parent. -/
theorem Shape.no_path_back (sh : Shape F t) (hp : poolHolds pool t) (l : List Bool) (b : Bool) :
    followBits pool t.root (l ++ [b]) ≠ some t.root := by
  intro h
  obtain ⟨p, nd, hl, hnd, hk, hc⟩ := followBits_concat.mp h
  have hroot := sh.root_last
  have hfew := sh.few_nodes
  have hmore := sh.more_nodes
  have hplt := sh.reached_lt hp hl (ne_noNode_of_nodeAt hnd)
  rcases sh.child_lt (sh.slot_of_reached hp hl hnd) hk b with hlt | ⟨-, -, hnone⟩
  · rw [hc] at hlt
    omega
  · rw [← hc, hnone, Config.noNode, BitVec.toNat_ofNat] at hroot
    omega

/-- Every node of the tree is reached by one path only: each has one parent, on one side (R229). -/
theorem Shape.path_unique (sh : Shape F t) (hp : poolHolds pool t) {l m : List Bool} {i : NodeIndex}
    (hl : followBits pool t.root l = some i) (hm : followBits pool t.root m = some i) (hi : i ≠ Config.noNode) :
    l = m := by
  induction l using List.reverseRecOn generalizing i m with
  | nil =>
    obtain rfl := Option.some.inj hl
    cases m using List.reverseRecOn with
    | nil => rfl
    | append_singleton m b => exact absurd hm (sh.no_path_back hp m b)
  | append_singleton l b ih =>
    cases m using List.reverseRecOn with
    | nil =>
      obtain rfl := Option.some.inj hm
      exact absurd hl (sh.no_path_back hp l b)
    | append_singleton m b' =>
      have hlt := sh.reached_lt hp hl hi
      obtain ⟨p, nd, hlp, hnd, hk, hc⟩ := followBits_concat.mp hl
      obtain ⟨p', nd', hmp, hnd', hk', hc'⟩ := followBits_concat.mp hm
      obtain ⟨hpp, rfl⟩ := sh.parent_unique hlt (sh.slot_of_reached hp hlp hnd) hk (congrArg BitVec.toNat hc)
        (sh.slot_of_reached hp hmp hnd') hk' (congrArg BitVec.toNat hc')
      obtain rfl := BitVec.eq_of_toNat_eq hpp
      rw [ih hlp hmp (ne_noNode_of_nodeAt hnd)]

/-- The leaf in slot k is that of the k-th present symbol (R221). -/
theorem Shape.symbol_of_leaf (sh : Shape F t) {k : Nat} {nd : Node} (hnd : t.nodes[k]? = some nd)
    (hk : nd.kind = 0#1) : (present F)[k]? = some nd.sym := by
  rcases Nat.lt_or_ge k (present F).length with hlt | hge
  · obtain rfl := Option.some.inj ((sh.leaf k hlt).symm.trans hnd)
    exact List.getElem?_eq_getElem hlt
  · obtain ⟨hl, rfl⟩ := List.getElem?_eq_some_iff.mp hnd
    exact absurd hk (by simp [(sh.inner k hge hl).1])

/-- The leaves of different slots have different symbols. -/
theorem Shape.leaf_unique (sh : Shape F t) {i j : Nat} {u v : Node} (hu : t.nodes[i]? = some u)
    (hv : t.nodes[j]? = some v) (hku : u.kind = 0#1) (hkv : v.kind = 0#1) (h : u.sym = v.sym) : i = j := by
  have hi := sh.symbol_of_leaf hu hku
  have hj := sh.symbol_of_leaf hv hkv
  exact (List.getElem?_inj (List.getElem?_eq_some_iff.mp hi).1 (nodup_present F)).mp (by rw [hi, hj, h])

end Paths

/-! ### The codes are the paths (R251) -/

section Codes

variable {F : SymTable (BitVec 64)} {pool : Vector Node 511} {c : CodeBook}

/-- The derivation has one result, so what it gives on a tree holds of every codebook it gives. -/
theorem codesOf_of_deriveCodes (hp : poolHolds pool (buildTree F))
    (hd : deriveCodes pool (buildTree F).root = some c) : CodesOf F pool c := by
  obtain ⟨c', hd', hc⟩ := deriveCodes_buildTree F pool hp
  obtain rfl := Option.some.inj (hd.symm.trans hd')
  exact hc

/-- A path to a leaf is the code of the leaf's symbol, since that code is a path to the same leaf. -/
theorem CodesOf.code_of_path (hc : CodesOf F pool c) (hp : poolHolds pool (buildTree F)) (h1 : 1 ≤ presentCount F)
    {l : List Bool} {i : NodeIndex} {nd : Node} (hl : followBits pool (buildTree F).root l = some i)
    (hi : nodeAt pool i = some nd) (hk : nd.kind = 0#1) : symAt F nd.sym ≠ 0#64 ∧ codeOf c nd.sym = l := by
  have sh := buildTree_shape F h1
  have hslot := sh.slot_of_reached hp hl hi
  have hx : symAt F nd.sym ≠ 0#64 := (mem_present F _).mp (List.mem_of_getElem? (sh.symbol_of_leaf hslot hk))
  obtain ⟨j, hm, hj⟩ := hc.path nd.sym hx
  obtain rfl : i = j := BitVec.eq_of_toNat_eq (sh.leaf_unique hslot (sh.slot_of_reached hp hm hj) hk rfl rfl)
  exact ⟨hx, sh.path_unique hp hm hl (ne_noNode_of_nodeAt hi)⟩

/-! ### No code begins another; the Kraft sum (R257) -/

/-- A code that is a beginning of another ends at the same leaf, so it is the code of the same symbol. -/
theorem CodesOf.eq_of_prefix (hc : CodesOf F pool c) {x y : Byte} (hx : symAt F x ≠ 0#64) (hy : symAt F y ≠ 0#64)
    (h : codeOf c x <+: codeOf c y) : x = y := by
  obtain ⟨i, hl, hi⟩ := hc.path x hx
  obtain ⟨j, hm, hj⟩ := hc.path y hy
  obtain ⟨-, rfl⟩ := eq_of_prefix_of_leaf hl hi rfl hm h
  exact congrArg Node.sym (Option.some.inj (hi.symm.trans hj))

/-- The Kraft sum of the codes that begin with l, in units of 2^(−255). -/
def kraftBelow (F : SymTable (BitVec 64)) (c : CodeBook) (l : List Bool) : Nat :=
  ((present F).map fun x => if l <+: codeOf c x then 2 ^ (255 - (symAt c.len x).toNat) else 0).sum

theorem kraftBelow_nil (F : SymTable (BitVec 64)) (c : CodeBook) :
    kraftBelow F c [] = ((present F).map fun x => 2 ^ (255 - (symAt c.len x).toNat)).sum := by
  simp [kraftBelow]

/-- What goes on after l goes on by one of the two branches. -/
theorem ite_prefix_eq_add {l m : List Bool} (h : m ≠ l) (v : Nat) :
    (if l <+: m then v else 0) = (if l ++ [false] <+: m then v else 0) + (if l ++ [true] <+: m then v else 0) := by
  by_cases hpre : l <+: m
  · obtain ⟨r, rfl⟩ := hpre
    match r with
    | [] => exact absurd (List.append_nil l) h
    | false :: r => simp [List.prefix_append_right_inj]
    | true :: r => simp [List.prefix_append_right_inj]
  · have hb : ∀ b : Bool, ¬ l ++ [b] <+: m := fun b hlb => hpre ((List.prefix_append l [b]).trans hlb)
    simp [hpre, hb]

/-- Where no code ends the sum is that of the two branches. -/
theorem kraftBelow_branch {l : List Bool} (h : ∀ x ∈ present F, codeOf c x ≠ l) :
    kraftBelow F c l = kraftBelow F c (l ++ [false]) + kraftBelow F c (l ++ [true]) := by
  rw [kraftBelow, kraftBelow, kraftBelow, ← sum_map_add]
  exact sum_map_congr _ _ _ fun x hx => ite_prefix_eq_add (h x hx) _

/-- No code ends at an internal node. -/
theorem CodesOf.codeOf_ne_of_inner (hc : CodesOf F pool c) {l : List Bool} {i : NodeIndex} {nd : Node}
    (hl : followBits pool (buildTree F).root l = some i) (hi : nodeAt pool i = some nd) (hk : nd.kind = 1#1) :
    ∀ x ∈ present F, codeOf c x ≠ l := by
  rintro x hx rfl
  obtain ⟨j, hm, hj⟩ := hc.path x ((mem_present F x).mp hx)
  obtain rfl := Option.some.inj (hm.symm.trans hl)
  obtain rfl := Option.some.inj (hj.symm.trans hi)
  exact absurd hk (by simp [leafNode])

/-- At a leaf the sum is the share of its one code. -/
theorem CodesOf.kraftBelow_codeOf (hc : CodesOf F pool c) {x : Byte} (hx : symAt F x ≠ 0#64) :
    kraftBelow F c (codeOf c x) = 2 ^ (255 - (codeOf c x).length) := by
  rw [kraftBelow, length_codeOf, ← sum_map_single (present F) (nodup_present F) x ((mem_present F x).mpr hx)
    (2 ^ (255 - (symAt c.len x).toNat))]
  refine sum_map_congr _ _ _ fun y hy => ?_
  by_cases hyx : y = x
  · simp [hyx]
  · have hpre : ¬ codeOf c x <+: codeOf c y := fun h => hyx (hc.eq_of_prefix hx ((mem_present F y).mp hy) h).symm
    rw [if_neg hpre, if_neg hyx]

/-- The codes below a node at depth d share 2^(−d), since every internal node has two children. -/
theorem CodesOf.kraftBelow_eq (hc : CodesOf F pool c) (hp : poolHolds pool (buildTree F)) (h2 : 2 ≤ presentCount F)
    {l : List Bool} {i : NodeIndex} (hl : followBits pool (buildTree F).root l = some i)
    (hi : i.toNat < (buildTree F).nodes.length) : kraftBelow F c l = 2 ^ (255 - l.length) := by
  have sh := buildTree_shape F (by omega)
  obtain ⟨k, hk⟩ : ∃ k, k = i.toNat := ⟨_, rfl⟩
  induction k using Nat.strongRecOn generalizing l i with
  | _ k ih =>
    subst hk
    have hnode := nodeAt_of_lt hp hi
    by_cases hkind : (buildTree F).nodes[i.toNat].kind = 0#1
    · obtain ⟨hx, rfl⟩ := hc.code_of_path hp (by omega) hl hnode hkind
      exact hc.kraftBelow_codeOf hx
    · have hkind1 := Node.kind_eq_one hkind
      have hchild : ∀ b, ((buildTree F).nodes[i.toNat].child b).toNat < i.toNat := fun b =>
        (sh.child_lt (List.getElem?_eq_getElem hi) hkind1 b).resolve_right fun ⟨h1, _⟩ => by omega
      have hreach : ∀ b, followBits pool (buildTree F).root (l ++ [b]) =
          some ((buildTree F).nodes[i.toNat].child b) := fun b =>
        followBits_concat.mpr ⟨i, _, hl, hnode, hkind1, rfl⟩
      have hbranch : ∀ b, kraftBelow F c (l ++ [b]) = 2 ^ (255 - (l.length + 1)) := fun b => by
        rw [ih _ (hchild b) (hreach b) ((hchild b).trans hi) rfl, List.length_append, List.length_singleton]
      have hdepth := sh.length_le_of_reached hp (hreach false) (nodeAt_of_lt hp ((hchild false).trans hi))
      rw [List.length_append, List.length_singleton] at hdepth
      rw [kraftBelow_branch (hc.codeOf_ne_of_inner hl hnode hkind1), hbranch, hbranch, ← Nat.two_mul, ← pow_succ']
      congr 1
      omega

/-- The single symbol has a code of one bit (R254). -/
theorem CodesOf.kraft_of_one (hc : CodesOf F pool c) (h1 : presentCount F = 1) : kraftBelow F c [] = 2 ^ 254 := by
  obtain ⟨x, hx⟩ := List.length_eq_one_iff.mp h1
  obtain ⟨hlow, hhigh, -⟩ := hc.coded x ((mem_present F x).mp (by simp [hx]))
  have hlen : (buildTree F).nodes.length = 2 := by rw [length_buildTree, h1]; rfl
  have hone : (symAt c.len x).toNat = 1 := by omega
  simp [kraftBelow_nil, hx, hone]

end Codes

/-! ### The statements on codes -/

/-- Settles O40: a code is a path by the derivation, a path is a code since no leaf is reached twice. -/
theorem codesAreThePathsToTheLeaves : Obligations.CodesAreThePathsToTheLeaves := by
  intro F pool c hp hd
  have hc := codesOf_of_deriveCodes hp hd
  refine ⟨fun x hx => ?_, fun h1 l i nd => hc.code_of_path hp h1⟩
  obtain ⟨i, hl, hi⟩ := hc.path x hx
  exact ⟨i, _, hl, hi, rfl, rfl⟩

/-- Settles O41: a code that begins another is the same, and the shares of the codes add up along the tree. -/
theorem codesArePrefixFreeAndComplete : Obligations.CodesArePrefixFreeAndComplete := by
  intro F pool c hp hd
  have hc := codesOf_of_deriveCodes hp hd
  rw [← present_eq, ← kraftBelow_nil]
  exact ⟨fun x y hx hy hne h => hne (hc.eq_of_prefix hx hy h),
    fun h2 => hc.kraftBelow_eq hp h2 rfl (buildTree_shape F (by omega)).root_lt, hc.kraft_of_one⟩

/-! ### DERIVE (R255, R256) -/

theorem exec_derive (s : State) : exec .derive s = execDerive s := rfl

/-- `TOTAL_BITS` holds the sum of R255, which fits since `FREQ` sums to `TOTAL`. -/
theorem State.Inv.toNat_codedBits {s : State} (h : s.Inv) (hv : s.treeValid = true) (len : SymTable (BitVec 8)) :
    (BitVec.ofNat 72 (codedBits s.freq len)).toNat =
      (symbols.map fun x => (symAt s.freq x).toNat * (symAt len x).toNat).sum := by
  obtain ⟨hf, -⟩ := h.tree_valid hv
  obtain ⟨hsum, -⟩ := h.freq_valid hf
  rw [toNat_totalBits _ _ (hsum ▸ s.total.isLt), codedBits_eq]

/-- Settles O28: DERIVE ends in every state of the invariant, in one of the two ways it can. -/
theorem deriveWritesTheCodesOfTheTree : Obligations.DeriveWritesTheCodesOfTheTree := by
  intro s hinv
  obtain ⟨t, ht⟩ := execDerive_ends hinv
  rcases execDerive_next ht with ⟨hv, rfl⟩ | ⟨hv, c, hc, rfl⟩
  · exact ⟨fun _ => ht, fun hv' => by simp [hv] at hv'⟩
  · exact ⟨fun hv' => by simp [hv] at hv', fun _ => ⟨c, _, hc, hinv.toNat_codedBits hv c.len, ht⟩⟩

end Sys2Proof.Machine

/-! PROOFS. The statements of the family 43_bitpack: the packer, PACK, UNPACK, and their round trip. -/

namespace Sys2Proof.Machine

/-! ### What is packed, bit by bit (R272 to R275, R280) -/

theorem pad_lt (b : Nat) : pad b < 8 := Nat.lt_succ_of_le (pad_le b)

theorem pad_of_multiple {b : Nat} (h : b % 8 = 0) : pad b = 0 := by
  unfold pad
  omega

/-- A placed bit, by shifting its byte (R280). -/
theorem placedBit_eq_div (bytes : List Byte) (p : Nat) :
    placedBit bytes p = ((bytes.getD (p / 8) 0#8).toNat / 2 ^ (7 - p % 8) % 2 == 1) := by
  rw [placedBit, ← BitVec.testBit_toNat, Nat.testBit_eq_decide_div_mod_eq]
  rfl

theorem getElem_payloadBits (payload : List Byte) (p pos : Nat) (h : pos < (payloadBits payload p).length) :
    (payloadBits payload p)[pos] = placedBit payload pos := by
  simp only [payloadBits_eq, List.getElem_take, getElem_flatMap_byteBits]

/-- The usable bits of what was packed are the code string (R273, R280). -/
theorem payloadBits_packBits (c : CodeBook) (input : List Byte) :
    payloadBits (packBits c input).bytes (packBits c input).padding = codeString c input := by
  rw [padding_packBits, ← length_codeString]
  exact payloadBits_of_isPayload (packBits_isPayload c input)

theorem count_packBits (c : CodeBook) (input : List Byte) :
    (packBits c input).count = (codeString c input).length := by
  rw [packBits_eq]

/-- Settles O42: the packed bytes are the payload of the code string, and the usable bits are the placed ones. -/
theorem packingPlacesBitsMostSignificantFirst : Obligations.PackingPlacesBitsMostSignificantFirst := by
  refine ⟨fun T => ⟨rfl, pad_lt T, pad_of_multiple⟩, fun c input => ?_, fun payload p _ => ?_⟩
  · have hpayload := packBits_isPayload c input
    have hpadding : (packBits c input).padding = pad (codeString c input).length := by
      rw [padding_packBits, length_codeString]
    exact ⟨_, rfl, hpayload, hpayload.1, count_packBits c input, hpadding, fun h => by rw [h]; rfl,
      payloadBits_packBits c input⟩
  · refine ⟨length_payloadBits payload p, fun pos h => ?_⟩
    rw [getElem_payloadBits, placedBit_eq_div]

/-! ### Bytes stored at `DST_BASE` (R104) -/

theorem storedTo_storeDst {s : State} (h : s.Inv) (bytes : List Byte) : s.storedTo bytes (s.storeDst bytes) :=
  ⟨fun k hk => Memory.read_writeBytes_inside _ _ k bytes h.buf_wf hk,
    fun a ha => Memory.read_writeBytes_outside _ _ a bytes h.buf_wf ha⟩

/-- Reading a range that holds a string of bytes gives the string. -/
theorem readBytes_of_bufHolds {m : Memory} {base : Nat} {bytes : List Byte} (h : bufHolds m base bytes) :
    m.readBytes base bytes.length = bytes :=
  List.ext_getElem (Memory.length_readBytes ..) fun k hk hk' => (Memory.getElem_readBytes _ _ _ k hk).trans (h k hk')

/-! ### Which check fails first (R403) -/

theorem firstFailure_append (cs ds : List Check) :
    firstFailure (cs ++ ds) = (firstFailure cs).or (firstFailure ds) := by
  induction cs with
  | nil => rfl
  | cons c cs ih => by_cases hc : c.ok <;> simp [firstFailure_cons, hc, ih]

theorem dstInRange_eq_false_iff (s : State) : s.dstInRange = false ↔ ¬ s.dstOk := by
  rw [← dstInRange_iff, Bool.not_eq_true]

theorem overlap_eq_true_iff (s : State) : s.overlap = true ↔ ¬ s.apart := by
  rw [← overlap_iff, Bool.not_eq_false]

theorem rangeChecks_source_outside {s : State} (hs : ¬ s.srcOk) :
    firstFailure s.rangeChecks = some (.srcRange, 0#32) := by
  simp [State.rangeChecks, firstFailure_cons, State.srcCheck, (srcInRange_eq_false_iff s).mpr hs]

theorem rangeChecks_destination_outside {s : State} (hs : s.srcOk) (hd : ¬ s.dstOk) :
    firstFailure s.rangeChecks = some (.dstRange, 0#32) := by
  simp [State.rangeChecks, firstFailure_cons, State.srcCheck, (srcInRange_iff s).mpr hs,
    (dstInRange_eq_false_iff s).mpr hd]

theorem rangeChecks_overlapping {s : State} (hs : s.srcOk) (hd : s.dstOk) (ha : ¬ s.apart) :
    firstFailure s.rangeChecks = some (.rangeOverlap, 0#32) := by
  simp [State.rangeChecks, firstFailure_cons, State.srcCheck, (srcInRange_iff s).mpr hs, (dstInRange_iff s).mpr hd,
    (overlap_eq_true_iff s).mpr ha]

/-- A command that fails where its range checks fail does so as R132 says. -/
theorem rangeErrors_of_failure {i : Instr} {s : State}
    (h : ∀ e, firstFailure s.rangeChecks = some e → exec i s = raise e.1 e.2 s) : rangeErrors i s :=
  ⟨fun hs => h _ (rangeChecks_source_outside hs), fun hs hd => h _ (rangeChecks_destination_outside hs hd),
    fun hs hd ha => h _ (rangeChecks_overlapping hs hd ha)⟩

/-- Where the validity bit is set the range checks decide. -/
theorem firstFailure_sequenceCheck_cons {valid : Bool} (hv : valid = true) (mask : Word) (cs : List Check) :
    firstFailure (sequenceCheck valid mask :: cs) = firstFailure cs := by
  rw [firstFailure_cons, sequenceCheck, if_pos hv]

/-! ### PACK (R276) -/

theorem exec_pack (s : State) : exec .pack s = execPack s := rfl

theorem firstAbsent_eq_none_iff {len : SymTable (BitVec 8)} {input : List Byte} :
    firstAbsent len input = none ↔ ∀ x ∈ input, symAt len x ≠ 0#8 := by
  simp [firstAbsent]

/-- The first absent byte stands where the code length is 0 and no earlier one is. -/
theorem firstAbsent_eq_some {len : SymTable (BitVec 8)} {input : List Byte} {j : Nat} (hj : j < input.length)
    (h0 : symAt len input[j] = 0#8)
    (hfirst : ∀ j', ∀ h' : j' < input.length, j' < j → symAt len input[j'] ≠ 0#8) :
    firstAbsent len input = some j :=
  List.findIdx?_eq_some_iff_getElem.mpr ⟨hj, by simpa using h0, fun j' h => by simpa using hfirst j' (by omega) h⟩

/-- The checks PACK makes before it looks at the input. -/
theorem exec_pack_of_failure {s : State} {e : Cause × Word}
    (h : firstFailure (sequenceCheck s.codesValid 0x4 :: s.rangeChecks) = some e) :
    exec .pack s = raise e.1 e.2 s :=
  (exec_pack s).trans (checked_of_some s _ h)

theorem packChecks_passed {s : State} (hv : s.codesValid = true) (hr : s.rangesOk) :
    firstFailure (sequenceCheck s.codesValid 0x4 :: s.rangeChecks) = none :=
  (firstFailure_sequenceCheck_cons hv ..).trans ((rangeChecks_none s).mpr hr)

theorem exec_pack_without_codes {s : State} (hv : s.codesValid = false) :
    exec .pack s = raise .sequence 0x4#32 s :=
  exec_pack_of_failure (e := (.sequence, 0x4#32)) (by simp [firstFailure_cons, sequenceCheck, hv])

theorem exec_pack_of_absent {s : State} (hv : s.codesValid = true) (hr : s.rangesOk) {j : Nat}
    (hj : firstAbsent s.codeLen s.srcBytes = some j) :
    exec .pack s = raise .symbolAbsent (BitVec.ofNat 32 j) s := by
  rw [exec_pack, execPack, checked_of_none _ _ (packChecks_passed hv hr)]
  simp only [hj]

section Present

variable {s : State} (hv : s.codesValid = true) (hr : s.rangesOk) (ha : firstAbsent s.codeLen s.srcBytes = none)
include hv hr ha

theorem exec_pack_of_overflow (hcap : s.dstCap.toNat < ceil8 (inputBits s.codeLen s.srcBytes)) :
    exec .pack s = raise .dstOverflow (neededInfo (ceil8 (inputBits s.codeLen s.srcBytes))) s := by
  rw [exec_pack, execPack, checked_of_none _ _ (packChecks_passed hv hr)]
  simp only [ha]
  exact checked_of_some s _ (e := (.dstOverflow, neededInfo _)) (by simp [firstFailure_cons, Nat.not_le.mpr hcap])

theorem exec_pack_of_fits (hcap : ceil8 (inputBits s.codeLen s.srcBytes) ≤ s.dstCap.toNat) :
    exec .pack s = .next (packed s) := by
  rw [exec_pack, execPack, checked_of_none _ _ (packChecks_passed hv hr)]
  simp only [ha]
  exact checked_of_none s _ (by simp [firstFailure_cons, hcap])

end Present

/-- A number that a register of 32 bits bounds fits such a register. -/
theorem toNat_ofNat_of_le {n : Nat} {w : Word} (h : n ≤ w.toNat) : (BitVec.ofNat 32 n).toNat = n := by
  have hlt := w.isLt
  exact (BitVec.toNat_ofNat ..).trans (Nat.mod_eq_of_lt (by omega))

/-- A payload that fits the destination has a length that fits `DST_LEN`. -/
theorem toNat_packed_dstLen {s : State} (hcap : ceil8 (inputBits s.codeLen s.srcBytes) ≤ s.dstCap.toNat) :
    (packed s).dstLen.toNat = ceil8 (inputBits s.codeLen s.srcBytes) := by
  have hlen : (packBits s.codeBook s.srcBytes).bytes.length = ceil8 (inputBits s.codeLen s.srcBytes) :=
    length_packBits_inputBits s.codeBook s.srcBytes
  exact (toNat_ofNat_of_le (hlen.trans_le hcap)).trans hlen

theorem toNat_packed_padding (s : State) : (packed s).padding.toNat = pad (inputBits s.codeLen s.srcBytes) := by
  have hpad : (packBits s.codeBook s.srcBytes).padding = pad (inputBits s.codeLen s.srcBytes) :=
    padding_packBits s.codeBook s.srcBytes
  exact (BitVec.toNat_ofNat ..).trans ((Nat.mod_eq_of_lt (hpad ▸ pad_lt _)).trans hpad)

/-- Settles O29: the checks in order, then the first symbol without a code, then the capacity, then `packed s`. -/
theorem packWritesTheCodeString : Obligations.PackWritesTheCodeString := by
  intro s hinv
  refine ⟨exec_pack_without_codes, fun hv => rangeErrors_of_failure fun e he => ?_,
    fun hv hr => ⟨fun j hj h0 hfirst => ?_, fun hx T hT => ?_⟩⟩
  · exact exec_pack_of_failure ((firstFailure_sequenceCheck_cons hv ..).trans he)
  · exact exec_pack_of_absent hv hr (firstAbsent_eq_some hj h0 hfirst)
  · obtain rfl : T = inputBits s.codeLen s.srcBytes := hT
    have ha := firstAbsent_eq_none_iff.mpr hx
    exact ⟨exec_pack_of_overflow hv hr ha, fun hcap => ⟨_, _, _, _, packBits_isPayload s.codeBook s.srcBytes,
      length_packBits_inputBits s.codeBook s.srcBytes, storedTo_storeDst hinv _, toNat_packed_dstLen hcap,
      toNat_packed_padding s, exec_pack_of_fits hv hr ha hcap⟩⟩

/-! ### UNPACK (R286, R412) -/

theorem exec_unpack (s : State) : exec .unpack s = execUnpack s := rfl

theorem exec_unpack_of_failure {s : State} {e : Cause × Word} (h : firstFailure (unpackChecks s) = some e) :
    exec .unpack s = raise e.1 e.2 s :=
  (exec_unpack s).trans (checked_of_some s _ h)

theorem exec_unpack_of_passed {s : State} (h : firstFailure (unpackChecks s) = none) :
    exec .unpack s =
      finishWalk (walkDecode s.node s.root s.srcBytes s.padding.toNat s.total.toNat) s.total.toNat s :=
  (exec_unpack s).trans (checked_of_none s _ h)

theorem unpackChecks_no_tree {s : State} (hv : s.treeValid = false) :
    firstFailure (unpackChecks s) = some (.sequence, 0x2#32) := by
  simp [unpackChecks, firstFailure_cons, sequenceCheck, hv]

theorem unpackChecks_of_ranges {s : State} (hv : s.treeValid = true) {e : Cause × Word}
    (he : firstFailure s.rangeChecks = some e) : firstFailure (unpackChecks s) = some e := by
  rw [unpackChecks, firstFailure_append, firstFailure_sequenceCheck_cons hv, he, Option.some_or]

/-- Past the tree and the ranges the padding and the capacity decide. -/
theorem unpackChecks_of_rangesOk {s : State} (hv : s.treeValid = true) (hr : s.rangesOk) :
    firstFailure (unpackChecks s) =
      if s.srcLen = 0#32 ∧ s.padding ≠ 0#3 then some (.fmtPadding, s.padding.setWidth 32)
      else if s.total.toNat ≤ s.dstCap.toNat then none
      else some (.dstOverflow, neededInfo s.total.toNat) := by
  rw [unpackChecks, firstFailure_append, firstFailure_sequenceCheck_cons hv, (rangeChecks_none s).mpr hr,
    Option.none_or, firstFailure_cons, firstFailure_cons, firstFailure_nil]
  by_cases hpad : s.srcLen = 0#32 ∧ s.padding ≠ 0#3 <;> simp [hpad]

theorem finishWalk_of_done {w : Walk} (h : w.last = .done) (n : Nat) (s : State) :
    finishWalk w n s = .next (succeeded { s with buf := s.storeDst w.out, dstLen := BitVec.ofNat 32 n }) := by
  simp only [finishWalk, h, succeed_eq]

theorem finishWalk_of_failed {w : Walk} {c : Cause} {k : Nat} (h : w.last = .failed c k) (n : Nat) (s : State) :
    finishWalk w n s =
      .next (raised c (BitVec.ofNat 32 k) { s with buf := s.storeDst w.out, dstLen := 0#32 }) := by
  simp only [finishWalk, h, raise_eq]

/-- A walk that is done has emitted its n symbols. -/
theorem length_walkDecode_of_done {pool : Vector Node 511} {root : NodeIndex} {payload : List Byte} {p n : Nat}
    (h : (walkDecode pool root payload p n).last = .done) : (walkDecode pool root payload p n).out.length = n :=
  (walkFrom_out _ 0 0 none [] (Nat.zero_le n) (by simp) rfl).2.1 h

theorem isWalk_of_failed {pool : Vector Node 511} {root : NodeIndex} {payload : List Byte} {p n : Nat} {c : Cause}
    {k : Nat} (h : (walkDecode pool root payload p n).last = .failed c k) : c.isWalk = true :=
  (walkFrom_out _ 0 0 none [] (Nat.zero_le n) (by simp) rfl).2.2 c k h

/-- A valid tree has a root wherever there are symbols to decode. -/
theorem State.Inv.walk_not_stuck {s : State} (h : s.Inv) (hv : s.treeValid = true) (payload : List Byte) (p : Nat)
    (f : Fault) : (walkDecode s.node s.root payload p s.total.toNat).last ≠ .stuck f := by
  obtain ⟨hf, hroot, -⟩ := h.tree_valid hv
  obtain ⟨htotal, -⟩ := h.freq_valid hf
  exact walkDecode_not_stuck (hroot ▸ walk_has_root s.freq htotal) payload p f

/-- Settles O30: the checks in order, then the two ways the walk can end. -/
theorem unpackWritesTheWalkedSymbols : Obligations.UnpackWritesTheWalkedSymbols := by
  intro s hinv
  refine ⟨fun hv => exec_unpack_of_failure (unpackChecks_no_tree hv),
    fun hv => rangeErrors_of_failure fun e he => exec_unpack_of_failure (unpackChecks_of_ranges hv he),
    fun hv hr hlen hpad => ?_, fun hv hr hpad hcap => ?_, fun hv hr hpad hcap => ?_⟩
  · rw [BitVec.ofNat_toNat]
    refine exec_unpack_of_failure (e := (.fmtPadding, s.padding.setWidth 32)) ?_
    rw [unpackChecks_of_rangesOk hv hr, if_pos ⟨hlen, hpad⟩]
  · refine exec_unpack_of_failure (e := (.dstOverflow, neededInfo _)) ?_
    rw [unpackChecks_of_rangesOk hv hr, if_neg hpad, if_neg (Nat.not_le.mpr hcap)]
  · have hexec := exec_unpack_of_passed ((unpackChecks_none s).mpr ⟨hv, hr, hpad, hcap⟩)
    refine ⟨_, _, rfl, storedTo_storeDst hinv _, ?_⟩
    cases hlast : (walkDecode s.node s.root s.srcBytes s.padding.toNat s.total.toNat).last with
    | done =>
      exact .inl ⟨rfl, length_walkDecode_of_done hlast, _, toNat_ofNat_of_le hcap,
        hexec.trans (finishWalk_of_done hlast _ s)⟩
    | failed c k => exact .inr ⟨c, k, rfl, isWalk_of_failed hlast, hexec.trans (finishWalk_of_failed hlast _ s)⟩
    | stuck f => exact absurd hlast (hinv.walk_not_stuck hv _ _ f)

/-! ### UNPACK undoes PACK (R287) -/

/-- The walk over a packed input gives the input back: each code leads from the root to the leaf of its symbol (R258),
and as many bits are usable as were packed. -/
theorem CodesOf.walkDecode_packBits {F : SymTable (BitVec 64)} {pool : Vector Node 511} {c : CodeBook}
    (hc : CodesOf F pool c) {input : List Byte} (hin : ∀ x ∈ input, symAt F x ≠ 0#64) :
    walkDecode pool (buildTree F).root (packBits c input).bytes (packBits c input).padding input.length =
      ⟨input, .done⟩ := by
  rw [walkDecode, payloadBits_packBits]
  refine walkFrom_done c input fun x hx => ⟨fun hnil => ?_, ?_⟩
  · obtain ⟨hpos, -⟩ := hc.coded x (hin x hx)
    have hlen := length_codeOf c x
    rw [hnil, List.length_nil] at hlen
    omega
  · obtain ⟨i, hpath, hleaf⟩ := hc.path x (hin x hx)
    exact ⟨i, _, hpath, hleaf⟩

/-- Valid codes are those of the valid tree (R65). -/
theorem State.Inv.codesOf {s : State} (h : s.Inv) (hv : s.codesValid = true) :
    s.root = (buildTree s.freq).root ∧ CodesOf s.freq s.node s.codeBook := by
  obtain ⟨htree, hcodes⟩ := h.codes_valid hv
  obtain ⟨-, hroot, -, hpool⟩ := h.tree_valid htree
  exact ⟨hroot, codesOf_of_deriveCodes hpool (hroot ▸ hcodes)⟩

/-- What PACK packs, a walk with the same tree and as many symbols gives back. -/
theorem State.Inv.walkDecode_packed {s : State} (h : s.Inv) (hv : s.codesValid = true)
    (ha : firstAbsent s.codeLen s.srcBytes = none) :
    walkDecode s.node s.root (packBits s.codeBook s.srcBytes).bytes (packed s).padding.toNat s.srcLen.toNat =
      ⟨s.srcBytes, .done⟩ := by
  obtain ⟨hroot, hc⟩ := h.codesOf hv
  have hpad : (packed s).padding.toNat = (packBits s.codeBook s.srcBytes).padding :=
    (toNat_packed_padding s).trans (padding_packBits s.codeBook s.srcBytes).symm
  rw [hroot, hpad, ← length_srcBytes]
  refine hc.walkDecode_packBits fun x hx habsent => ?_
  obtain ⟨hlen, -⟩ := hc.absent x habsent
  exact firstAbsent_eq_none_iff.mp ha x hx hlen

/-- The source range that holds what PACK wrote. -/
theorem srcBytes_of_packed {s u : State} (h : s.Inv)
    (hcap : ceil8 (inputBits s.codeLen s.srcBytes) ≤ s.dstCap.toNat) (hlen : u.srcLen = (packed s).dstLen)
    (hbytes : ∀ k < (packed s).dstLen.toNat,
      u.buf.read (u.srcBase.toNat + k) = (packed s).buf.read ((packed s).dstBase.toNat + k)) :
    u.srcBytes = (packBits s.codeBook s.srcBytes).bytes := by
  have hcount : (packed s).dstLen.toNat = (packBits s.codeBook s.srcBytes).bytes.length :=
    (toNat_packed_dstLen hcap).trans (length_packBits_inputBits s.codeBook s.srcBytes).symm
  obtain ⟨hstored, -⟩ := storedTo_storeDst h (packBits s.codeBook s.srcBytes).bytes
  rw [State.srcBytes, hlen, hcount]
  exact readBytes_of_bufHolds fun k hk => (hbytes k (hcount ▸ hk)).trans (hstored k hk)

/-- An empty payload has no padding, so the check of R281 lets pass what PACK wrote. -/
theorem packed_padding_of_empty {s : State} (hcap : ceil8 (inputBits s.codeLen s.srcBytes) ≤ s.dstCap.toNat)
    (h0 : (packed s).dstLen = 0#32) : (packed s).padding = 0#3 := by
  have hlen := toNat_packed_dstLen hcap
  have hpad := toNat_packed_padding s
  rw [h0, BitVec.toNat_zero] at hlen
  have hzero : inputBits s.codeLen s.srcBytes = 0 := by
    unfold ceil8 at hlen
    omega
  exact BitVec.eq_of_toNat_eq (hpad.trans (by rw [hzero]; rfl))

/-- Settles O47: the walk of UNPACK runs over the packed bytes and is done with the input. -/
theorem unpackInvertsPack : Obligations.UnpackInvertsPack := by
  intro s t u hs _ hv htotal hpack hte hu hue htree hnode hroot htotal' hpadding hlen hbytes hranges hcap
  rcases execPack_next hpack with ⟨c, k, -, -, rfl⟩ | ⟨-, -, ha, hfits, rfl⟩
  · cases hte
  · have hn : u.total.toNat = s.srcLen.toNat := (congrArg BitVec.toNat htotal').trans htotal
    have hwalk : walkDecode u.node u.root u.srcBytes u.padding.toNat u.total.toNat = ⟨s.srcBytes, .done⟩ := by
      rw [hnode, hroot, srcBytes_of_packed hs hfits hlen hbytes, hpadding, hn]
      exact hs.walkDecode_packed hv ha
    have hpadded : ¬ (u.srcLen = 0#32 ∧ u.padding ≠ 0#3) := fun ⟨h0, hne⟩ =>
      hne (hpadding.trans (packed_padding_of_empty hfits (hlen.symm.trans h0)))
    have hexec := exec_unpack_of_passed ((unpackChecks_none u).mpr ⟨htree, hranges, hpadded, hn.trans_le hcap⟩)
    rw [hwalk, finishWalk_of_done rfl, hn] at hexec
    obtain ⟨hstored, hframe⟩ := storedTo_storeDst hu s.srcBytes
    refine ⟨_, hexec, hue, ?_, fun k hk => ?_, ?_⟩
    · exact BitVec.eq_of_toNat_eq (toNat_ofNat_of_le (Nat.le_refl _))
    · have hk' : k < s.srcBytes.length := (length_srcBytes s).symm ▸ hk
      exact (hstored k hk').trans (Memory.getElem_readBytes _ _ _ k hk')
    · exact length_srcBytes s ▸ hframe

end Sys2Proof.Machine

/-! PROOFS. The statements of the family 44_codec: ENCODE, PARSE and DECODE, what each header error says, and what
DECODE makes of a stream that ENCODE wrote, whole or cut short. -/

namespace Sys2Proof.Machine

/-! ### How ENCODE ends (R315) -/

theorem exec_encode (s : State) : exec .encode s = execEncode s := rfl

theorem exec_encode_of_failure {s : State} {e : Cause × Word} (h : firstFailure s.rangeChecks = some e) :
    exec .encode s = raise e.1 e.2 s :=
  (exec_encode s).trans (checked_of_some s _ h)

/-- The length of the stream that ENCODE writes with the codebook c. -/
def encodedLength (c : CodeBook) (s : State) : Nat :=
  headerLength (presentCount s.inputTable) + ceil8 (codedBits s.inputTable c.len)

/-- The codebook that ENCODE derives, from the pool that it has just filled. -/
def encodeDerives (s : State) (c : CodeBook) : Prop :=
  deriveCodes (fillPool s.draws (buildTree s.inputTable).nodes) (buildTree s.inputTable).root = some c

theorem exists_encodeDerives (s : State) : ∃ c, encodeDerives s c := by
  obtain ⟨c, hc, -⟩ := deriveCodes_buildTree s.inputTable _ (poolHolds_fillPool s.draws s.inputTable)
  exact ⟨c, hc⟩

section Derived

variable {s : State} {c : CodeBook} (hr : s.rangesOk) (hc : encodeDerives s c)
include hr hc

theorem exec_encode_of_overflow (hcap : s.dstCap.toNat < encodedLength c s) :
    exec .encode s = raise .dstOverflow (neededInfo (encodedLength c s)) s := by
  unfold encodeDerives at hc
  rw [exec_encode, execEncode, checked_of_none _ _ ((rangeChecks_none s).mpr hr)]
  simp only [State.inputTable_eq, hc]
  exact checked_of_some s _ (e := (.dstOverflow, neededInfo (encodedLength c s)))
    ((firstFailure_cons ..).trans (if_neg fun h => Nat.not_le.mpr hcap (of_decide_eq_true h)))

theorem exec_encode_of_fits (hcap : encodedLength c s ≤ s.dstCap.toNat) :
    exec .encode s = .next (encoded c s) := by
  unfold encodeDerives at hc
  rw [exec_encode, execEncode, checked_of_none _ _ ((rangeChecks_none s).mpr hr)]
  simp only [State.inputTable_eq, hc]
  exact checked_of_none s _ ((firstFailure_cons ..).trans (if_pos (decide_eq_true hcap)))

end Derived

/-- The state that a successful ENCODE leaves, field by field. -/
theorem encoded_eq (c : CodeBook) (s : State) : encoded c s = { s with
    freq := s.inputTable, total := BitVec.ofNat 64 s.srcLen.toNat, nsym := BitVec.ofNat 9 (presentCount s.inputTable)
    node := fillPool s.draws (buildTree s.inputTable).nodes, root := (buildTree s.inputTable).root
    nodes := BitVec.ofNat 10 (buildTree s.inputTable).nodes.length
    codeLen := c.len, codeBits := c.bits, totalBits := BitVec.ofNat 72 (codedBits s.inputTable c.len)
    buf := s.storeDst (serializeHeader s.inputTable s.srcLen.toNat (pad (codedBits s.inputTable c.len)) ++
      (packBits c s.srcBytes).bytes)
    dstLen := BitVec.ofNat 32 (encodedLength c s)
    hdrLen := BitVec.ofNat 32 (headerLength (presentCount s.inputTable))
    padding := BitVec.ofNat 3 (packBits c s.srcBytes).padding
    freqValid := true, treeValid := true, codesValid := true
    draws := s.draws + 1, busy := false, done := true } := by
  simp only [encoded, succeeded, encodedLength, installCodes, installTree, installTable]

/-- An ENCODE that ends without an error has had a codebook and room for the stream. -/
theorem exec_encode_ok {s t : State} (h : exec .encode s = .next t) (he : t.err = false) :
    ∃ c, encodeDerives s c ∧ encodedLength c s ≤ s.dstCap.toNat ∧ t = encoded c s := by
  rcases execEncode_next h with ⟨c, k, -, -, rfl⟩ | ⟨-, h⟩
  · cases he
  · exact h

/-! ### The stream of an input (R120, R315) -/

/-- The counts of an input, from a table of zeros. -/
def inputCounts (input : List Byte) : SymTable (BitVec 64) := addCounts (symTable fun _ => 0#64) input

/-- The stream of an input: the header of its counts, then the payload of its code string. -/
def streamOf (c : CodeBook) (input : List Byte) : List Byte :=
  serializeHeader (inputCounts input) input.length (pad (inputBits c.len input)) ++ (packBits c input).bytes

theorem inputCounts_srcBytes (s : State) : inputCounts s.srcBytes = s.inputTable := rfl

theorem encoded_buf (c : CodeBook) (s : State) : (encoded c s).buf = s.storeDst (streamOf c s.srcBytes) := by
  rw [encoded_eq, streamOf, ← codedBits_inputTable, length_srcBytes, inputCounts_srcBytes]

theorem length_streamOf (c : CodeBook) (s : State) : (streamOf c s.srcBytes).length = encodedLength c s := by
  rw [streamOf, ← codedBits_inputTable, length_srcBytes]
  exact length_encoded c s

theorem symAt_inputTable (s : State) (x : Byte) : (symAt s.inputTable x).toNat = s.srcBytes.count x := by
  have hlt := s.srcLen.isLt
  have hfits : tableSum (symTable fun _ => 0#64) + s.srcBytes.length < 2 ^ 64 := by
    rw [tableSum_zero, length_srcBytes]
    omega
  rw [State.inputTable, symAt_addCounts _ _ _ hfits, symAt_symTable]
  exact Nat.zero_add _

/-- Every byte of the input is present in the table of the input. -/
theorem symAt_inputTable_ne_zero {s : State} {x : Byte} (hx : x ∈ s.srcBytes) : symAt s.inputTable x ≠ 0#64 := by
  have hpos := List.count_pos_iff.mpr hx
  rw [← symAt_inputTable] at hpos
  intro h0
  rw [h0] at hpos
  exact absurd hpos (Nat.lt_irrefl 0)

section Fits

variable {s : State} {c : CodeBook} (hcap : encodedLength c s ≤ s.dstCap.toNat)
include hcap

theorem toNat_encoded_dstLen : (encoded c s).dstLen.toNat = encodedLength c s := toNat_ofNat_of_le hcap

theorem toNat_encoded_hdrLen : (encoded c s).hdrLen.toNat = headerLength (presentCount s.inputTable) :=
  toNat_ofNat_of_le ((Nat.le_add_right ..).trans hcap)

end Fits

theorem toNat_encoded_padding (c : CodeBook) (s : State) :
    (encoded c s).padding.toNat = pad (inputBits c.len s.srcBytes) := by
  have hpad := padding_packBits c s.srcBytes
  exact (BitVec.toNat_ofNat ..).trans ((Nat.mod_eq_of_lt (hpad ▸ pad_lt _)).trans hpad)

/-- Settles O31: the range checks, then the capacity, then `encoded c s`. -/
theorem encodeWritesTheWholeStream : Obligations.EncodeWritesTheWholeStream := by
  intro s hinv
  refine ⟨rangeErrors_of_failure fun e he => exec_encode_of_failure he, fun hr => ?_⟩
  obtain ⟨c, hc⟩ := exists_encodeDerives s
  have htotal : tableSum s.inputTable < 2 ^ 64 := by
    have hlt := s.srcLen.isLt
    rw [tableSum_inputTable]
    omega
  refine ⟨s.inputTable, fillPool s.draws (buildTree s.inputTable).nodes, c, codedBits s.inputTable c.len,
    presentCount s.inputTable, encodedLength c s, fun x => (symAt_inputTable s x).trans (count_srcBytes s x),
    poolHolds_fillPool s.draws s.inputTable, hc, codedBits_eq .., presentCount_eq _, rfl,
    exec_encode_of_overflow hr hc, fun hcap => ?_⟩
  have hexec := exec_encode_of_fits hr hc hcap
  rw [encoded_eq] at hexec
  refine ⟨(packBits c s.srcBytes).bytes, _, _, _, _, _, _, _, packBits_isPayload c s.srcBytes, ?_,
    storedTo_storeDst hinv _, toNat_totalBits _ _ htotal, presentCount_toNat _, toNat_encoded_dstLen hcap,
    toNat_encoded_hdrLen hcap, ?_, length_nodes_toNat _, hexec⟩
  · rw [length_packBits, codedBits_inputTable]
  · rw [codedBits_inputTable]
    exact toNat_encoded_padding c s

/-! ### What ENCODE leaves behind (R315, R317) -/

/-- ENCODE has gone from s to t with the codebook c: t holds the stream of the input, and says how long it is. -/
structure EncodedWith (c : CodeBook) (s t : State) : Prop where
  codes : ∀ pool, poolHolds pool (buildTree s.inputTable) → deriveCodes pool (buildTree s.inputTable).root = some c
  freq : t.freq = s.inputTable
  root : t.root = (buildTree s.inputTable).root
  hdrLen : t.hdrLen.toNat = headerLength (presentCount s.inputTable)
  padding : t.padding.toNat = pad (inputBits c.len s.srcBytes)
  dstBase : t.dstBase = s.dstBase
  dstLen : t.dstLen.toNat = (streamOf c s.srcBytes).length
  stream : bufHolds t.buf s.dstBase.toNat (streamOf c s.srcBytes)

theorem State.Inv.encodedWith {s t : State} (h : s.Inv) (he : exec .encode s = .next t) (hok : t.err = false) :
    ∃ c, EncodedWith c s t := by
  obtain ⟨c, hc, hcap, rfl⟩ := exec_encode_ok he hok
  obtain ⟨hstored, -⟩ := storedTo_storeDst h (streamOf c s.srcBytes)
  rw [← encoded_buf] at hstored
  exact ⟨c, fun pool hp => (deriveCodes_congr s.inputTable hp (poolHolds_fillPool s.draws s.inputTable)).trans hc,
    by rw [encoded_eq], by rw [encoded_eq], toNat_encoded_hdrLen hcap, toNat_encoded_padding c s, by rw [encoded_eq],
    (toNat_encoded_dstLen hcap).trans (length_streamOf c s).symm, hstored⟩

/-- The codebook of an input does not depend on the state. -/
theorem EncodedWith.codeBook_unique {c c' : CodeBook} {s t s' t' : State} (h : EncodedWith c s t)
    (h' : EncodedWith c' s' t') (hin : s.inputTable = s'.inputTable) : c = c' := by
  have hpool := poolHolds_fillPool 0 s.inputTable
  have hc := h.codes _ hpool
  rw [hin] at hc hpool
  exact Option.some.inj (hc.symm.trans (h'.codes _ hpool))

/-- Settles O52: equal inputs have one codebook, so one stream, which both destinations hold. -/
theorem encodeDependsOnTheInputAlone : Obligations.EncodeDependsOnTheInputAlone := by
  intro s u s' u' hs hu _ _ hin hes heu hoks hoku
  obtain ⟨c, h⟩ := hs.encodedWith hes hoks
  obtain ⟨d, h'⟩ := hu.encodedWith heu hoku
  obtain rfl := h.codeBook_unique h' (congrArg inputCounts hin)
  refine ⟨BitVec.eq_of_toNat_eq ?_, fun k hk => ?_⟩
  · rw [h.dstLen, h'.dstLen, hin]
  · have hstream := h'.stream
    rw [h.dstLen] at hk
    rw [← hin] at hstream
    exact (h.stream k hk).trans (hstream k hk).symm

/-! ### The header of a stream (R322, R323) -/

/-- The last two checks of `parseHeader`, on the table and the sum of the entries. -/
def closeHeader (stream : List Byte) (e : SymTable (BitVec 64) × Nat) : Except (Cause × Nat) Header :=
  if e.2 ≠ streamNumber stream 1 8 then .error (.fmtSum, 0)
  else if stream.length = headerLength (streamNumber stream 9 2) ∧ (streamByte stream 0).toNat ≠ 0 then
    .error (.fmtPadding, (streamByte stream 0).toNat)
  else .ok { freq := e.1, total := streamNumber stream 1 8, count := streamNumber stream 9 2,
             padding := (streamByte stream 0).toNat, length := headerLength (streamNumber stream 9 2) }

/-- The checks of `parseHeader` in their order. -/
theorem parseHeader_eq (stream : List Byte) :
    parseHeader stream =
      if stream.length < 11 then .error (.fmtHdrShort, 11)
      else if 7 < (streamByte stream 0).toNat then .error (.fmtPadding, (streamByte stream 0).toNat)
      else if 256 < streamNumber stream 9 2 then .error (.fmtNsym, streamNumber stream 9 2)
      else if stream.length < headerLength (streamNumber stream 9 2) then
        .error (.fmtHdrShort, headerLength (streamNumber stream 9 2))
      else (parseEntries stream (streamNumber stream 9 2) 0 none (symTable fun _ => 0#64) 0).bind
        (closeHeader stream) := by
  simp only [parseHeader, gt_iff_lt]
  rcases parseEntries stream (streamNumber stream 9 2) 0 none (symTable fun _ => 0#64) 0 with e | ⟨F, sum⟩ <;> rfl

/-- The stream begins with the header hd, whatever follows. -/
structure BeginsWith (hd : Header) (stream : List Byte) : Prop where
  padding : (streamByte stream 0).toNat = hd.padding
  padding_le : hd.padding ≤ 7
  total : streamNumber stream 1 8 = hd.total
  count : streamNumber stream 9 2 = hd.count
  count_le : hd.count ≤ 256
  length : hd.length = headerLength hd.count
  entries : parseEntries stream hd.count 0 none (symTable fun _ => 0#64) 0 = .ok (hd.freq, hd.total)

theorem beginsWith_of_parseHeader {stream : List Byte} {hd : Header} (h : parseHeader stream = .ok hd) :
    BeginsWith hd stream := by
  rw [parseHeader_eq] at h
  split_ifs at h with h11 hpad hcount hlen
  cases he : parseEntries stream (streamNumber stream 9 2) 0 none (symTable fun _ => 0#64) 0 with
  | error e => rw [he] at h; cases h
  | ok e =>
    rw [he, Except.bind, closeHeader] at h
    split_ifs at h with hsum hend
    cases h
    exact ⟨rfl, Nat.not_lt.mp hpad, rfl, rfl, Nat.not_lt.mp hcount, rfl, by rw [he, ← not_not.mp hsum]⟩

theorem parseHeader_of_beginsWith {stream : List Byte} {hd : Header} (h : BeginsWith hd stream)
    (hlen : hd.length ≤ stream.length) :
    parseHeader stream =
      if stream.length = hd.length ∧ hd.padding ≠ 0 then .error (.fmtPadding, hd.padding) else .ok hd := by
  obtain ⟨hpad, hpad7, htotal, hcount, hcount256, hlength, hent⟩ := h
  have h11 : headerLength hd.count = 11 + 9 * hd.count := rfl
  rw [parseHeader_eq, hpad, hcount, hent, ← hlength, if_neg (by omega), if_neg (by omega), if_neg (by omega),
    if_neg (by omega), Except.bind, closeHeader, hpad, htotal, hcount, ← hlength, if_neg (not_not.mpr rfl)]

theorem streamByte_take (stream : List Byte) {k m : Nat} (h : k < m) :
    streamByte (stream.take m) k = streamByte stream k := by
  simp only [streamByte, List.getD_eq_getElem?_getD, List.getElem?_take_of_lt h]

theorem streamNumber_take (stream : List Byte) {k n m : Nat} (h : k + n ≤ m) :
    streamNumber (stream.take m) k n = streamNumber stream k n := by
  rw [streamNumber, List.drop_take, List.take_take, Nat.min_eq_left (by omega), streamNumber]

/-- The entry loop reads no byte past its last entry. -/
theorem parseEntries_take (stream : List Byte) {m left k : Nat} (h : 11 + 9 * (k + left) ≤ m) (prev : Option Byte)
    (F : SymTable (BitVec 64)) (sum : Nat) :
    parseEntries (stream.take m) left k prev F sum = parseEntries stream left k prev F sum := by
  induction left generalizing k prev F sum with
  | zero => rfl
  | succ left ih =>
    simp only [parseEntries]
    rw [streamByte_take stream (by omega), streamNumber_take stream (by omega)]
    simp only [ih (k := k + 1) (by omega)]

/-- A header is read from its own bytes. -/
theorem BeginsWith.take {hd : Header} {stream : List Byte} (h : BeginsWith hd stream) {m : Nat} (hm : hd.length ≤ m) :
    BeginsWith hd (stream.take m) := by
  obtain ⟨hpad, hpad7, htotal, hcount, hcount256, hlength, hent⟩ := h
  have h11 : headerLength hd.count = 11 + 9 * hd.count := rfl
  refine ⟨?_, hpad7, ?_, ?_, hcount256, hlength, ?_⟩
  · rw [streamByte_take stream (by omega), hpad]
  · rw [streamNumber_take stream (by omega), htotal]
  · rw [streamNumber_take stream (by omega), hcount]
  · rw [parseEntries_take stream (by omega), hent]

/-- A cut inside the header is found by one of the two length checks. -/
theorem BeginsWith.parseHeader_of_cut {hd : Header} {stream : List Byte} (h : BeginsWith hd stream) {m : Nat}
    (hlen : hd.length ≤ stream.length) (hm : m < hd.length) :
    ∃ k, parseHeader (stream.take m) = .error (.fmtHdrShort, k) := by
  obtain ⟨hpad, hpad7, htotal, hcount, hcount256, hlength, hent⟩ := h
  have hlm : (stream.take m).length = m := by rw [List.length_take]; omega
  rw [parseHeader_eq, hlm]
  by_cases hm11 : m < 11
  · exact ⟨_, if_pos hm11⟩
  · rw [streamByte_take stream (by omega), streamNumber_take stream (by omega), hpad, hcount, ← hlength, if_neg hm11,
      if_neg (by omega), if_neg (by omega), if_pos hm]
    exact ⟨_, rfl⟩

/-- What an entry reports: it is out of order, or its frequency is 0. -/
theorem parseEntries_error {stream : List Byte} {left k : Nat} {prev : Option Byte} {F : SymTable (BitVec 64)}
    {sum j : Nat} {c : Cause} (hprev : ∀ q, prev = some q → 0 < k ∧ q = streamByte stream (11 + 9 * (k - 1)))
    (h : parseEntries stream left k prev F sum = .error (c, j)) :
    j < k + left ∧
      ((c = .fmtTableOrder ∧ 0 < j ∧
        (streamByte stream (11 + 9 * j)).toNat ≤ (streamByte stream (11 + 9 * (j - 1))).toNat) ∨
      (c = .fmtZeroFreq ∧ streamNumber stream (12 + 9 * j) 8 = 0)) := by
  induction left generalizing k prev F sum with
  | zero => cases h
  | succ left ih =>
    simp only [parseEntries] at h
    split_ifs at h with horder hzero
    · cases h
      cases prev with
      | none => cases horder
      | some q =>
        obtain ⟨hk, rfl⟩ := hprev q rfl
        exact ⟨by omega, .inl ⟨rfl, hk, of_decide_eq_true horder⟩⟩
    · cases h
      exact ⟨by omega, .inr ⟨rfl, hzero⟩⟩
    · obtain ⟨hj, hwhy⟩ := ih (fun q hq => ⟨by omega, by rw [← Option.some.inj hq]; rfl⟩) h
      exact ⟨by omega, hwhy⟩

/-- The entry loop adds up the frequencies it reads. -/
theorem parseEntries_sum {stream : List Byte} {left k : Nat} {prev : Option Byte} {F G : SymTable (BitVec 64)}
    {sum S : Nat} (h : parseEntries stream left k prev F sum = .ok (G, S)) :
    S = sum + ((List.range' k left).map fun j => streamNumber stream (12 + 9 * j) 8).sum := by
  induction left generalizing k prev F sum with
  | zero => cases h; rfl
  | succ left ih =>
    simp only [parseEntries] at h
    split_ifs at h with horder hzero
    rw [ih h, List.range'_succ, List.map_cons, List.sum_cons, Nat.add_assoc]

/-- Settles O46, check by check in the order of `parseHeader`. -/
theorem headerErrorsSayWhatIsWrong : Obligations.HeaderErrorsSayWhatIsWrong := by
  intro stream c k h
  rw [parseHeader_eq] at h
  split_ifs at h with h11 hpad hcount hlen
  · cases h
    exact .inl ⟨rfl, rfl, h11⟩
  · cases h
    exact .inr ⟨Nat.not_lt.mp h11, .inl ⟨rfl, rfl, hpad⟩⟩
  · cases h
    exact .inr ⟨Nat.not_lt.mp h11, .inr ⟨Nat.not_lt.mp hpad, _, rfl, .inl ⟨rfl, rfl, hcount⟩⟩⟩
  · cases h
    exact .inr ⟨Nat.not_lt.mp h11, .inr ⟨Nat.not_lt.mp hpad, _, rfl, .inr ⟨Nat.not_lt.mp hcount,
      .inl ⟨rfl, rfl, hlen⟩⟩⟩⟩
  · refine .inr ⟨Nat.not_lt.mp h11, .inr ⟨Nat.not_lt.mp hpad, _, rfl, .inr ⟨Nat.not_lt.mp hcount,
      .inr ⟨Nat.not_lt.mp hlen, ?_⟩⟩⟩⟩
    cases he : parseEntries stream (streamNumber stream 9 2) 0 none (symTable fun _ => 0#64) 0 with
    | error e =>
      rw [he] at h
      cases h
      obtain ⟨hk, hwhy⟩ := parseEntries_error (fun q hq => by cases hq) he
      rw [Nat.zero_add] at hk
      rcases hwhy with ⟨hc, hpos, hle⟩ | ⟨hc, hzero⟩
      · exact .inl ⟨hc, hpos, hk, hle⟩
      · exact .inr (.inl ⟨hc, hk, hzero⟩)
    | ok e =>
      have hS := parseEntries_sum he
      rw [he, Except.bind, closeHeader] at h
      split_ifs at h with hsum hend
      · cases h
        refine .inr (.inr (.inl ⟨rfl, rfl, ?_⟩))
        rw [hS, Nat.zero_add, ← List.range_eq_range'] at hsum
        exact hsum
      · cases h
        exact .inr (.inr (.inr ⟨rfl, rfl, Nat.pos_of_ne_zero hend.2, hend.1⟩))

/-! ### PARSE (R325) -/

theorem exec_parse (s : State) : exec .parse s = execParse s := rfl

theorem exec_parse_of_source_outside {s : State} (hs : ¬ s.srcOk) : exec .parse s = raise .srcRange 0#32 s :=
  (exec_parse s).trans (checked_of_some s _ (e := (.srcRange, 0#32))
    (by rw [firstFailure_cons, State.srcCheck, (srcInRange_eq_false_iff s).mpr hs]; rfl))

theorem srcCheck_passed {s : State} (hs : s.srcOk) : firstFailure [s.srcCheck] = none := by
  rw [firstFailure_cons, State.srcCheck, (srcInRange_iff s).mpr hs]
  rfl

theorem exec_parse_of_format_error {s : State} (hs : s.srcOk) {c : Cause} {k : Nat}
    (h : parseHeader s.srcBytes = .error (c, k)) : exec .parse s = raise c (BitVec.ofNat 32 k) s := by
  rw [exec_parse, execParse, checked_of_none _ _ (srcCheck_passed hs), h]

theorem exec_parse_of_header {s : State} (hs : s.srcOk) {hd : Header} (h : parseHeader s.srcBytes = .ok hd) :
    exec .parse s = .next (parsed hd s) := by
  rw [exec_parse, execParse, checked_of_none _ _ (srcCheck_passed hs), h]
  rfl

/-- What a header holds fits the registers that take it. -/
theorem header_fits_registers {stream : List Byte} {hd : Header} (h : parseHeader stream = .ok hd) :
    (BitVec.ofNat 64 hd.total).toNat = hd.total ∧ (BitVec.ofNat 9 hd.count).toNat = hd.count ∧
    (BitVec.ofNat 3 hd.padding).toNat = hd.padding ∧ (BitVec.ofNat 32 hd.length).toNat = hd.length := by
  obtain ⟨-, htotal, -, -⟩ := parseHeader_ok h
  obtain ⟨-, hpad, -, -, hcount, hlength, -⟩ := beginsWith_of_parseHeader h
  have h11 : headerLength hd.count = 11 + 9 * hd.count := rfl
  simp only [BitVec.toNat_ofNat]
  exact ⟨Nat.mod_eq_of_lt htotal, Nat.mod_eq_of_lt (by omega), Nat.mod_eq_of_lt (by omega), Nat.mod_eq_of_lt (by omega)⟩

/-- Settles O32: the source check, then the two ways `parseHeader` can end. -/
theorem parseLoadsTheTableOfTheHeader : Obligations.ParseLoadsTheTableOfTheHeader := by
  intro s _
  refine ⟨exec_parse_of_source_outside, fun hs => ⟨fun c k h => exec_parse_of_format_error hs h, fun hd h => ?_⟩⟩
  obtain ⟨htotal, hcount, hpad, hlength⟩ := header_fits_registers h
  have hexec := exec_parse_of_header hs h
  simp only [parsed, succeeded, installHeader, installTable] at hexec
  exact ⟨_, _, _, _, htotal, hcount, hpad, hlength, hexec⟩

/-! ### DECODE (R330, R412) -/

theorem exec_decode (s : State) : exec .decode s = execDecode s := rfl

theorem exec_decode_of_failure {s : State} {e : Cause × Word} (h : firstFailure s.rangeChecks = some e) :
    exec .decode s = raise e.1 e.2 s :=
  (exec_decode s).trans (checked_of_some s _ h)

theorem exec_decode_of_format_error {s : State} (hr : s.rangesOk) {c : Cause} {k : Nat}
    (h : parseHeader s.srcBytes = .error (c, k)) : exec .decode s = raise c (BitVec.ofNat 32 k) s := by
  rw [exec_decode, execDecode, checked_of_none _ _ ((rangeChecks_none s).mpr hr), h]

/-- The walk of DECODE: over the bytes after the header, in the tree of the header's table. -/
def decodeWalk (hd : Header) (s : State) : Walk :=
  walkDecode (fillPool s.draws (buildTree hd.freq).nodes) (buildTree hd.freq).root (s.srcBytes.drop hd.length)
    hd.padding hd.total

/-- The state in which DECODE starts its walk, field by field. -/
theorem treeLoaded_eq (hd : Header) (s : State) : treeLoaded hd s = { s with
    freq := hd.freq, total := BitVec.ofNat 64 hd.total, nsym := BitVec.ofNat 9 hd.count
    padding := BitVec.ofNat 3 hd.padding, hdrLen := BitVec.ofNat 32 hd.length
    node := fillPool s.draws (buildTree hd.freq).nodes, root := (buildTree hd.freq).root
    nodes := BitVec.ofNat 10 (buildTree hd.freq).nodes.length
    freqValid := true, treeValid := true, codesValid := false, draws := s.draws + 1 } := by
  simp only [treeLoaded, installTree, installHeader, installTable]

theorem treeLoaded_storeDst (hd : Header) (s : State) (bytes : List Byte) :
    (treeLoaded hd s).storeDst bytes = s.storeDst bytes := by
  simp only [treeLoaded_eq, State.storeDst]

section Header

variable {s : State} {hd : Header} (hr : s.rangesOk) (h : parseHeader s.srcBytes = .ok hd)
include hr h

theorem exec_decode_of_overflow (hcap : s.dstCap.toNat < hd.total) :
    exec .decode s = raise .dstOverflow (neededInfo hd.total) s := by
  rw [exec_decode, execDecode, checked_of_none _ _ ((rangeChecks_none s).mpr hr), h]
  exact checked_of_some s _ (e := (.dstOverflow, neededInfo hd.total))
    ((firstFailure_cons ..).trans (if_neg fun hle => Nat.not_le.mpr hcap (of_decide_eq_true hle)))

theorem exec_decode_of_fits (hcap : hd.total ≤ s.dstCap.toNat) :
    exec .decode s = finishWalk (decodeWalk hd s) hd.total (treeLoaded hd s) := by
  rw [exec_decode, execDecode, checked_of_none _ _ ((rangeChecks_none s).mpr hr), h]
  exact checked_of_none s _ ((firstFailure_cons ..).trans (if_pos (decide_eq_true hcap)))

/-- A walk that is done leaves its symbols at `DST_BASE` and their number in `DST_LEN`. -/
theorem exec_decode_of_done (hcap : hd.total ≤ s.dstCap.toNat) (hw : (decodeWalk hd s).last = .done) :
    exec .decode s = .next (succeeded { treeLoaded hd s with
      buf := s.storeDst (decodeWalk hd s).out, dstLen := BitVec.ofNat 32 hd.total }) := by
  rw [exec_decode_of_fits hr h hcap, finishWalk_of_done hw, treeLoaded_storeDst]

/-- A walk that fails leaves the symbols it has emitted and 0 in `DST_LEN` (R412). -/
theorem exec_decode_of_failed (hcap : hd.total ≤ s.dstCap.toNat) {c : Cause} {k : Nat}
    (hw : (decodeWalk hd s).last = .failed c k) :
    exec .decode s = .next (raised c (BitVec.ofNat 32 k) { treeLoaded hd s with
      buf := s.storeDst (decodeWalk hd s).out, dstLen := 0#32 }) := by
  rw [exec_decode_of_fits hr h hcap, finishWalk_of_failed hw, treeLoaded_storeDst]

end Header

/-- Settles O33: the range checks, the header, the capacity, then the two ways the walk can end. -/
theorem decodeWritesTheDecodedStream : Obligations.DecodeWritesTheDecodedStream := by
  intro s hinv
  refine ⟨rangeErrors_of_failure fun e he => exec_decode_of_failure he,
    fun hr => ⟨fun c k h => exec_decode_of_format_error hr h,
      fun hd h => ⟨exec_decode_of_overflow hr h, fun hcap => ?_⟩⟩⟩
  obtain ⟨htotal, hcount, hpad, hlength⟩ := header_fits_registers h
  obtain ⟨hsum, -⟩ := parseHeader_ok h
  refine ⟨_, _, _, _, fillPool s.draws (buildTree hd.freq).nodes, _, decodeWalk hd s, _, treeLoaded hd s, htotal,
    hcount, hpad, hlength, poolHolds_fillPool s.draws hd.freq, length_nodes_toNat hd.freq, rfl,
    storedTo_storeDst hinv (decodeWalk hd s).out, treeLoaded_eq hd s, ?_⟩
  cases hlast : (decodeWalk hd s).last with
  | done =>
    have hexec := exec_decode_of_done hr h hcap hlast
    simp only [succeeded] at hexec
    exact .inl ⟨rfl, length_walkDecode_of_done hlast, _, toNat_ofNat_of_le hcap, hexec⟩
  | failed c k =>
    have hexec := exec_decode_of_failed hr h hcap hlast
    simp only [raised] at hexec
    exact .inr ⟨c, k, rfl, isWalk_of_failed hlast, hexec⟩
  | stuck f => exact absurd hlast (walkDecode_not_stuck (walk_has_root hd.freq hsum) _ _ f)

/-! ### What DECODE reads in a stream of ENCODE (R332) -/

/-- The header of the stream of an input. -/
def headerOf (c : CodeBook) (input : List Byte) : Header where
  freq := inputCounts input
  total := input.length
  count := presentCount (inputCounts input)
  padding := pad (inputBits c.len input)
  length := headerLength (presentCount (inputCounts input))

theorem parseHeader_streamOf (c : CodeBook) (s : State) :
    parseHeader (streamOf c s.srcBytes) = .ok (headerOf c s.srcBytes) := by
  have hsum : tableSum (inputCounts s.srcBytes) = s.srcBytes.length :=
    (tableSum_inputTable s).trans (length_srcBytes s).symm
  have hlt := s.srcLen.isLt
  rw [streamOf, headerOf, ← hsum]
  refine parseHeader_serializeHeader _ _ _ ?_ (pad_le _) fun hnil => ?_
  · rw [hsum, length_srcBytes]
    omega
  · have hlen := length_packBits c s.srcBytes
    rw [hnil, List.length_nil, ceil8] at hlen
    exact pad_of_multiple (by omega)

/-- After the header of a stream stands its payload. -/
theorem drop_streamOf (c : CodeBook) (input : List Byte) :
    (streamOf c input).drop (headerOf c input).length = (packBits c input).bytes := by
  rw [headerOf, streamOf, List.drop_left' (length_serializeHeader ..)]

/-- What DECODE finds in its source range where it holds a stream of ENCODE, whole or cut. -/
theorem EncodedWith.srcBytes_eq_take {c : CodeBook} {s t u : State} (h : EncodedWith c s t)
    (hle : u.srcLen.toNat ≤ t.dstLen.toNat)
    (hbytes : ∀ k < u.srcLen.toNat, u.buf.read (u.srcBase.toNat + k) = t.buf.read (t.dstBase.toNat + k)) :
    u.srcBytes = (streamOf c s.srcBytes).take u.srcLen.toNat := by
  rw [h.dstLen] at hle
  refine List.ext_getElem (by rw [length_srcBytes, List.length_take_of_le hle]) fun k hk hk' => ?_
  rw [length_srcBytes] at hk
  rw [List.getElem_take, ← h.stream k (by omega), ← h.dstBase]
  exact (Memory.getElem_readBytes ..).trans (hbytes k hk)

/-- In the tree of the input's table every byte of the input has a code, a path to its leaf. -/
theorem EncodedWith.code_path {c : CodeBook} {s t : State} (h : EncodedWith c s t) {pool : Vector Node 511}
    (hp : poolHolds pool (buildTree s.inputTable)) {x : Byte} (hx : x ∈ s.srcBytes) :
    codeOf c x ≠ [] ∧ ∃ i f, followBits pool (buildTree s.inputTable).root (codeOf c x) = some i ∧
      nodeAt pool i = some (leafNode x f) := by
  have hc := codesOf_of_deriveCodes hp (h.codes pool hp)
  obtain ⟨hpos, -⟩ := hc.coded x (symAt_inputTable_ne_zero hx)
  obtain ⟨i, hpath, hleaf⟩ := hc.path x (symAt_inputTable_ne_zero hx)
  exact ⟨List.ne_nil_of_length_pos (length_codeOf c x ▸ hpos), i, _, hpath, hleaf⟩

/-- Over the whole stream the walk of DECODE is done with the input, in whatever state it runs. -/
theorem EncodedWith.decodeWalk_whole {c : CodeBook} {s t u : State} (h : EncodedWith c s t)
    (hsrc : u.srcBytes = streamOf c s.srcBytes) : decodeWalk (headerOf c s.srcBytes) u = ⟨s.srcBytes, .done⟩ := by
  have hp := poolHolds_fillPool u.draws s.inputTable
  rw [decodeWalk, hsrc, drop_streamOf]
  have hwalk := (codesOf_of_deriveCodes hp (h.codes _ hp)).walkDecode_packBits fun _ => symAt_inputTable_ne_zero
  rw [padding_packBits] at hwalk
  exact hwalk

/-- Settles O48: DECODE parses the header of the input's table, and its walk over the payload is done with the input. -/
theorem decodeInvertsEncode : Obligations.DecodeInvertsEncode := by
  intro s t u hs _ henc hok hu hue hlen hbytes hr hcap
  obtain ⟨c, h⟩ := hs.encodedWith henc hok
  have hsrc : u.srcBytes = streamOf c s.srcBytes := by
    rw [h.srcBytes_eq_take (by rw [hlen]) (hlen ▸ hbytes), hlen, h.dstLen, List.take_length]
  have hparse : parseHeader u.srcBytes = .ok (headerOf c s.srcBytes) := hsrc ▸ parseHeader_streamOf c s
  have htotal : (headerOf c s.srcBytes).total = s.srcLen.toNat := length_srcBytes s
  have hwalk := h.decodeWalk_whole hsrc
  have hexec := exec_decode_of_done hr hparse (htotal.trans_le hcap) (by rw [hwalk])
  rw [hwalk, htotal, treeLoaded_eq] at hexec
  obtain ⟨hstored, hframe⟩ := storedTo_storeDst hu s.srcBytes
  refine ⟨_, hexec, hue, ?_, h.freq.symm, h.root.symm, fun k hk => ?_, ?_⟩
  · exact BitVec.eq_of_toNat_eq (toNat_ofNat_of_le (Nat.le_refl _))
  · have hk' : k < s.srcBytes.length := (length_srcBytes s).symm ▸ hk
    exact (hstored k hk').trans (Memory.getElem_readBytes _ _ _ k hk')
  · exact length_srcBytes s ▸ hframe

/-! ### DECODE of a cut stream (R333) -/

theorem walkDecode_nil (pool : Vector Node 511) (root : NodeIndex) (p : Nat) {n : Nat} (hn : 0 < n) :
    walkDecode pool root [] p n = ⟨[], .failed .fmtCount 0⟩ := by
  simp [walkDecode, payloadBits, walkFrom, hn]

/-- The walk emits a proper beginning of the input and then runs out of bits, between two codes or inside one; with no
payload at all, before the first code. -/
def runsOut (input : List Byte) (noPayload : Prop) (w : Walk) : Prop :=
  ∃ e < input.length, ∃ cause info, w = ⟨input.take e, .failed cause info⟩ ∧
    ((cause = .fmtCount ∧ info = e) ∨ cause = .fmtExhausted) ∧ (noPayload → cause = .fmtCount ∧ info = 0)

theorem EncodedWith.walkDecode_cut {c : CodeBook} {s t : State} (h : EncodedWith c s t) {pool : Vector Node 511}
    (hp : poolHolds pool (buildTree s.inputTable)) {j : Nat} (hj : j < (packBits c s.srcBytes).bytes.length) :
    runsOut s.srcBytes (j = 0) (walkDecode pool (buildTree s.inputTable).root ((packBits c s.srcBytes).bytes.take j)
      (pad (inputBits c.len s.srcBytes)) s.srcBytes.length) := by
  have hbytes := length_packBits c s.srcBytes
  rw [← length_codeString] at hbytes ⊢
  have hcut : 8 * j - pad (codeString c s.srcBytes).length < (codeString c s.srcBytes).length := by
    unfold ceil8 at hbytes
    unfold pad
    omega
  obtain ⟨e, he, w, hw, hwalk⟩ := walkFrom_truncated (root := (buildTree s.inputTable).root) c s.srcBytes
    (fun x hx => h.code_path hp hx) _ hcut 0 0 (Nat.zero_add _) []
  rcases Nat.eq_zero_or_pos j with rfl | hpos
  · exact ⟨0, by omega, .fmtCount, 0, walkDecode_nil _ _ _ (by omega), .inl ⟨rfl, rfl⟩, fun _ => ⟨rfl, rfl⟩⟩
  · rw [walkDecode, payloadBits_take (packBits_isPayload c s.srcBytes) hj.le, hwalk]
    rcases hw with rfl | ⟨k, rfl⟩
    · exact ⟨e, he, .fmtCount, _, rfl, .inl ⟨rfl, Nat.zero_add e⟩, fun h0 => absurd h0 hpos.ne'⟩
    · exact ⟨e, he, .fmtExhausted, _, rfl, .inr rfl, fun h0 => absurd h0 hpos.ne'⟩

section Cut

variable {c : CodeBook} {s t u : State} (h : EncodedWith c s t)
  (hsrc : u.srcBytes = (streamOf c s.srcBytes).take u.srcLen.toNat)
include h hsrc

theorem EncodedWith.parseHeader_of_cut_header (hcut : u.srcLen.toNat < t.hdrLen.toNat) :
    ∃ k, parseHeader u.srcBytes = .error (.fmtHdrShort, k) := by
  have hparse := parseHeader_streamOf c s
  obtain ⟨-, -, -, -, -, hlen, -⟩ := parseHeader_ok hparse
  rw [hsrc]
  exact (beginsWith_of_parseHeader hparse).parseHeader_of_cut hlen (hcut.trans_eq h.hdrLen)

/-- A cut after the header leaves the header as it was, and its padding count, which needs a payload byte. -/
theorem EncodedWith.parseHeader_of_cut_payload (hle : t.hdrLen.toNat ≤ u.srcLen.toNat) :
    parseHeader u.srcBytes =
      if u.srcLen.toNat = t.hdrLen.toNat ∧ t.padding.toNat ≠ 0 then .error (.fmtPadding, t.padding.toNat)
      else .ok (headerOf c s.srcBytes) := by
  have hbegin := (beginsWith_of_parseHeader (parseHeader_streamOf c s)).take (h.hdrLen ▸ hle)
  rw [h.hdrLen] at hle ⊢
  rw [← hsrc] at hbegin
  rw [parseHeader_of_beginsWith hbegin (length_srcBytes u ▸ hle), length_srcBytes, h.padding]
  rfl

theorem EncodedWith.decodeWalk_cut (hle : t.hdrLen.toNat ≤ u.srcLen.toNat) (hlt : u.srcLen.toNat < t.dstLen.toNat) :
    runsOut s.srcBytes (u.srcLen.toNat = t.hdrLen.toNat) (decodeWalk (headerOf c s.srcBytes) u) := by
  have hhdr : t.hdrLen.toNat = (headerOf c s.srcBytes).length := h.hdrLen
  have hdrop : u.srcBytes.drop (headerOf c s.srcBytes).length =
      (packBits c s.srcBytes).bytes.take (u.srcLen.toNat - t.hdrLen.toNat) := by
    rw [hsrc, List.drop_take, drop_streamOf, hhdr]
  have hlen : t.dstLen.toNat = t.hdrLen.toNat + (packBits c s.srcBytes).bytes.length := by
    rw [h.dstLen, streamOf, List.length_append, length_serializeHeader, h.hdrLen]
    rfl
  obtain ⟨e, he, cause, info, hwalk, hwhy, hnone⟩ := h.walkDecode_cut (poolHolds_fillPool u.draws s.inputTable)
    (j := u.srcLen.toNat - t.hdrLen.toNat) (by omega)
  refine ⟨e, he, cause, info, ?_, hwhy, fun heq => hnone (by omega)⟩
  rw [decodeWalk, hdrop]
  exact hwalk

end Cut

/-- Settles O49, by the place of the cut: the header does not parse, or has a padding count and no payload, or the walk
over what is left of the payload fails. -/
theorem truncationIsDetected : Obligations.TruncationIsDetected := by
  intro s t u hs _ henc hok hu hue hlt hbytes hr hcap
  obtain ⟨c, h⟩ := hs.encodedWith henc hok
  have hsrc := h.srcBytes_eq_take hlt.le hbytes
  rcases Nat.lt_or_ge u.srcLen.toNat t.hdrLen.toNat with hcut | hle
  · obtain ⟨k, hk⟩ := h.parseHeader_of_cut_header hsrc hcut
    exact ⟨_, exec_decode_of_format_error hr hk, rfl, fun _ => rfl, by omega, by omega, by omega⟩
  have hparse := h.parseHeader_of_cut_payload hsrc hle
  split_ifs at hparse with hnone
  · obtain ⟨heq, hpad⟩ := hnone
    exact ⟨_, exec_decode_of_format_error hr hparse, rfl, by omega, fun _ _ => rfl,
      fun _ h0 => absurd (by rw [h0]; rfl) hpad, by omega⟩
  · obtain ⟨e, he, cause, info, hwalk, hwhy, hempty⟩ := h.decodeWalk_cut hsrc hle hlt
    have htotal : (headerOf c s.srcBytes).total = s.srcLen.toNat := length_srcBytes s
    have hexec := exec_decode_of_failed hr hparse (htotal.trans_le hcap) (by rw [hwalk])
    rw [hwalk, treeLoaded_eq] at hexec
    obtain ⟨hstored, hframe⟩ := storedTo_storeDst hu (s.srcBytes.take e)
    rw [List.length_take_of_le he.le] at hframe
    rw [length_srcBytes] at he
    refine ⟨_, hexec, rfl, by omega, fun heq hpad => ?_, fun heq _ => ?_, fun _ => ⟨e, he, ?_, fun k hk => ?_, hframe⟩⟩
    · exact absurd ⟨heq, fun h0 => hpad (BitVec.eq_of_toNat_eq h0)⟩ hnone
    · obtain ⟨rfl, rfl⟩ := hempty heq
      exact ⟨rfl, rfl⟩
    · rcases hwhy with ⟨rfl, rfl⟩ | rfl
      · exact .inl ⟨rfl, toNat_ofNat_of_le he.le⟩
      · exact .inr rfl
    · have hk' : k < (s.srcBytes.take e).length := by rwa [List.length_take_of_le (length_srcBytes s ▸ he.le)]
      exact ((hstored k hk').trans List.getElem_take).trans (Memory.getElem_readBytes ..)

end Sys2Proof.Machine

/-! PROOFS. The statements of the family 45_control: what host writes do, acceptance and dropped writes, the bus
responses, illegal words, and NOP. -/

namespace Sys2Proof.Machine

/-! ### The completion of an illegal word and of NOP (R365, R366) -/

theorem engineTurn_of_busy {s : State} (hb : s.busy = true) : engineTurn s = engineStep s := by
  simp [engineTurn, hb]

theorem engineStep_of_illegal {s : State} {e : Illegal} (h : decodeCmd s.cmdLast = .error e) :
    engineStep s = raise .illegalCmd s.cmdLast s := by
  simp [engineStep, h]

/-- Settles O3: a word whose fields are out of range does not decode, and the engine raises it. -/
theorem illegalWordsCompleteWithIllegalCmd : Obligations.IllegalWordsCompleteWithIllegalCmd := by
  refine ⟨rfl, fun s hb hill => ?_⟩
  obtain ⟨e, he⟩ := decodeCmd_eq_error_iff.mpr hill
  rw [engineTurn_of_busy hb, engineStep_of_illegal he, raise]

/-- Settles O24: NOP is a successful completion of the state as it stands. -/
theorem nopOnlyCompletes : Obligations.NopOnlyCompletes := execNop_eq

/-! ### The command register (R356, R357, R358) -/

theorem writes_cmd_accepted {s : State} {strb : BitVec 4} (h : strb = 0b1111#4 ∧ s.busy = false ∧ s.err = false)
    (data : Word) : hostWrite (at25 0x014) data strb s = { accept data s with response := some (.write .okay) } := by
  have hw : writeReg data strb s .cmd = accept data s := if_pos h
  exact hw ▸ writes_reg s .cmd data strb

theorem writes_cmd_dropped {s : State} {strb : BitVec 4} (h : ¬ (strb = 0b1111#4 ∧ s.busy = false ∧ s.err = false))
    (data : Word) : hostWrite (at25 0x014) data strb s = { dropWrite s with response := some (.write .okay) } := by
  have hw : writeReg data strb s .cmd = dropWrite s := if_neg h
  exact hw ▸ writes_reg s .cmd data strb

/-- Settles O11: the two branches of a `CMD` write. -/
theorem acceptanceOfACommandWrite : Obligations.AcceptanceOfACommandWrite := fun _ data _ =>
  ⟨fun h => writes_cmd_accepted h data, fun h => writes_cmd_dropped h data⟩

/-! ### The operand registers (R355, R358) -/

/-- The operand registers (R39). -/
def operandRegs : List Reg := [.srcBase, .srcLen, .dstBase, .dstCap]

theorem drops_iff {s : State} {strb : BitVec 4} : s.drops strb = true ↔ s.busy = true ∨ strb = 0b0000#4 := by
  simp [State.drops]

theorem writeOperand_dropped {s : State} {strb : BitVec 4} (h : s.drops strb = true) (store : Word → State)
    (old data : Word) : writeOperand store old data strb s = dropWrite s := if_pos h

theorem writeReg_operand_dropped {s : State} {strb : BitVec 4} (h : s.drops strb = true) (data : Word) {r : Reg}
    (hr : r ∈ operandRegs) : writeReg data strb s r = dropWrite s := by
  simp only [operandRegs, List.mem_cons, List.not_mem_nil, or_false] at hr
  rcases hr with rfl | rfl | rfl | rfl <;> rw [writeReg, writeOperand_dropped h]

theorem writes_operand_dropped {s : State} {strb : BitVec 4} (h : s.drops strb = true) (data : Word) {off : Nat}
    (hoff : off ∈ operandRegs.map Reg.offset) :
    hostWrite (at25 off) data strb s = { dropWrite s with response := some (.write .okay) } := by
  obtain ⟨r, hr, rfl⟩ := List.mem_map.mp hoff
  rw [writes_reg, writeReg_operand_dropped h data hr]

/-- A register whose write arm is `writeOperand` takes the merged lanes when the write is not dropped (R351). -/
theorem writes_operand_stored {s : State} {r : Reg} {data : Word} {strb : BitVec 4} (h : ¬ s.drops strb = true)
    (store : Word → State) {old : Word} (hr : writeReg data strb s r = writeOperand store old data strb s) :
    ∃ v, (∀ j < 4, laneByte v j = laneOf old data strb j) ∧
      hostWrite (at25 r.offset) data strb s = { store v with response := some (.write .okay) } := by
  refine ⟨mergeLanes old data strb, laneByte_mergeLanes old data strb, ?_⟩
  rw [writes_reg, hr, writeOperand, if_neg h]

/-- Settles O13: an idle engine drops a write exactly when it has no strobe, and else the lanes are merged. -/
theorem operandWritesStoreTheStrobedLanes : Obligations.OperandWritesStoreTheStrobedLanes := by
  intro s data strb hb
  refine ⟨fun h0 off hoff => writes_operand_dropped (drops_iff.mpr (.inr h0)) data hoff, fun h0 => ?_⟩
  have hd : ¬ s.drops strb = true := by simp [drops_iff, hb, h0]
  exact ⟨writes_operand_stored (r := .srcBase) hd (fun v => { s with srcBase := v }) rfl,
    writes_operand_stored (r := .srcLen) hd (fun v => { s with srcLen := v }) rfl,
    writes_operand_stored (r := .dstBase) hd (fun v => { s with dstBase := v }) rfl,
    writes_operand_stored (r := .dstCap) hd (fun v => { s with dstCap := v }) rfl⟩

/-! ### Dropped writes (R358) -/

@[simp] theorem dropWrite_irq (s : State) : (dropWrite s).irq = s.irq := rfl

theorem writeBuf_dropped {s : State} {strb : BitVec 4} (h : s.drops strb = true) (k : Nat) (data : Word) :
    writeBuf k data strb s = dropWrite s := if_pos h

/-- Settles O12: at each of the targets the write takes the branch that drops it. -/
theorem droppedWritesOnlySetOvr : Obligations.DroppedWritesOnlySetOvr := by
  rintro s t data strb rfl
  refine ⟨dropWrite_irq s, fun h => writes_cmd_dropped (fun hacc => by simp [hacc] at h) data,
    fun h off hoff => writes_operand_dropped (drops_iff.mpr h) data hoff, fun h k hk hlegal => ?_⟩
  rw [writes_buf s (legalBufBytes_le hlegal) hk, writeBuf_dropped (drops_iff.mpr h), dropWrite]

/-! ### The status register (R359) -/

theorem irq_iff (s : State) : s.irq = true ↔ (s.done = true ∧ s.doneIE = true) ∨ (s.err = true ∧ s.errIE = true) := by
  simp [State.irq]

/-- Each of the three bits is cleared exactly where lane 0 is strobed and its data bit is 1. -/
theorem writeStatus_eq (data : Word) (strb : BitVec 4) (s : State) :
    writeStatus data strb s = { s with
      done := s.done && !(strb.getLsbD 0 && data.getLsbD 1)
      err := s.err && !(strb.getLsbD 0 && data.getLsbD 2)
      ovr := s.ovr && !(strb.getLsbD 0 && data.getLsbD 3) } := by
  cases h : strb.getLsbD 0 <;> rw [writeStatus, h] <;> simp

theorem writes_status (s : State) (data : Word) (strb : BitVec 4) :
    hostWrite (at25 0x010) data strb s = { writeStatus data strb s with response := some (.write .okay) } :=
  writes_reg s .status data strb

theorem and_not_and_eq_true_iff (b p q : Bool) : (b && !(p && q)) = true ↔ b = true ∧ ¬ (p = true ∧ q = true) := by
  rw [Bool.and_eq_true, Bool.not_eq_true', ← Bool.not_eq_true, Bool.and_eq_true]

/-- Settles O14, by the bits `writeStatus_eq` gives; the interrupt line is `irq_iff` of the state left. -/
theorem statusWritesClearTheWrittenBits : Obligations.StatusWritesClearTheWrittenBits := by
  intro s data strb
  refine ⟨_, _, _, ?_, and_not_and_eq_true_iff _ _ _, and_not_and_eq_true_iff _ _ _, and_not_and_eq_true_iff _ _ _, ?_⟩
  · rw [writes_status, writeStatus_eq]
  · rw [writes_status, writeStatus_eq]
    exact irq_iff _

/-! ### The control register (R360) -/

theorem writes_ctrl (s : State) (data : Word) (strb : BitVec 4) :
    hostWrite (at25 0x00C) data strb s = { writeCtrl data strb s with response := some (.write .okay) } :=
  writes_reg s .ctrl data strb

theorem asksSoftReset_iff {data : Word} {strb : BitVec 4} :
    asksSoftReset data strb = true ↔ strb.getLsbD 3 = true ∧ data.getLsbD 31 = true := by
  simp [asksSoftReset]

/-- Settles O15: the soft reset, the strobed enables, or nothing. -/
theorem controlWritesStoreTheEnables : Obligations.ControlWritesStoreTheEnables := by
  refine ⟨irq_iff, fun s data strb => ⟨fun h => ?_, fun h h0 => ?_, fun h h0 => ?_⟩⟩
  · rw [writes_ctrl, writeCtrl, if_pos (asksSoftReset_iff.mpr h)]
  · rw [writes_ctrl, writeCtrl, if_neg (mt asksSoftReset_iff.mp h), writeEnables, if_pos h0]
  · rw [writes_ctrl, writeCtrl, if_neg (mt asksSoftReset_iff.mp h), writeEnables, if_neg (ne_true_of_eq_false h0)]

/-! ### The responses (R350, R352) -/

theorem aligned_iff {off : Offset} : aligned off = true ↔ off.toNat % 4 = 0 := by
  simp [aligned]

/-- The offset names no register and no word. -/
def namesNothing (n : Nat) (off : Offset) : Prop := aligned off = false ∨ decodeOffset n off = none

theorem namesNothing_iff {n : Nat} {off : Offset} :
    namesNothing n off ↔ off.toNat % 4 ≠ 0 ∨ unmappedOffset n off.toNat := by
  by_cases h4 : off.toNat % 4 = 0
  · simp [namesNothing, aligned_iff.mpr h4, h4, decodeOffset_eq_none h4]
  · simp [namesNothing, aligned, h4]

theorem hostRead_slverr {s : State} {off : Offset} (h : namesNothing s.bufBytes off) :
    (hostRead off s).response = some (.read .slverr 0#32) := by
  rcases h with ha | hd
  · simp [hostRead, readAnswer, ha]
  · simp [hostRead, readAnswer, hd]

theorem hostWrite_slverr {s : State} {off : Offset} (h : namesNothing s.bufBytes off) (data : Word)
    (strb : BitVec 4) : hostWrite off data strb s = { s with response := some (.write .slverr) } := by
  rcases h with ha | hd
  · simp [hostWrite, ha]
  · simp [hostWrite, hd]

/-- Settles O16: an offset names nothing exactly where it is misaligned or listed as unmapped. -/
theorem misalignedAndUnmappedTransactionsGetSlverr : Obligations.MisalignedAndUnmappedTransactionsGetSlverr := by
  refine fun s off => ⟨fun h => ?_, fun h4 hmapped => ?_⟩
  · have hn : namesNothing s.bufBytes off := namesNothing_iff.mpr h
    exact ⟨hostRead_slverr hn, hostWrite_slverr hn⟩
  · obtain ⟨t, hd⟩ := Option.ne_none_iff_exists'.mp (mt (decodeOffset_eq_none h4).mp hmapped)
    have ha : aligned off = true := aligned_iff.mpr h4
    exact ⟨⟨_, hostRead_response ha hd⟩, fun data strb => by rw [hostWrite_mapped ha hd]⟩

/-! ### Read-only state (R354) -/

/-- The read-only registers (R58, R354). -/
def readOnlyRegs : List Reg :=
  [.id, .version, .bufSize, .errCause, .errInfo, .dstLen, .hdrLen, .padding, .nsym, .totalLo, .totalHi, .totalBits0,
    .totalBits1, .totalBits2, .root, .nodes]

theorem writeReg_readOnly {r : Reg} (hr : r ∈ readOnlyRegs) (data : Word) (strb : BitVec 4) (s : State) :
    writeReg data strb s r = s := by
  cases r with
  | ctrl | status | cmd | srcBase | srcLen | dstBase | dstCap => simp [readOnlyRegs] at hr
  | _ => rfl

theorem ignoresWrites_readOnlyReg (s : State) {a : Nat} (h : a ∈ readOnlyRegs.map Reg.offset) :
    ignoresWrites s (at25 a) := by
  obtain ⟨r, hr, rfl⟩ := List.mem_map.mp h
  exact ignoresWrites_reg fun data strb => writeReg_readOnly hr data strb s

theorem toNat_ofNat_byte {n : Nat} (h : n < 2 ^ 8) : (BitVec.ofNat 8 n).toNat = n :=
  (BitVec.toNat_ofNat n 8).trans (Nat.mod_eq_of_lt h)

/-- An aligned offset of the FREQ window is that of a word of a counter (R59). -/
theorem ignoresWrites_freqWindow (s : State) {a : Nat} (h4 : a % 4 = 0) (hlo : 0x1000 ≤ a) (hhi : a ≤ 0x17FF) :
    ignoresWrites s (at25 a) := by
  have hx : (BitVec.ofNat 8 ((a - 0x1000) / 8)).toNat = (a - 0x1000) / 8 := toNat_ofNat_byte (by omega)
  have h := ignoresWrites_freq s (BitVec.ofNat 8 ((a - 0x1000) / 8)) (w := (a - 0x1000) % 8 / 4) (by omega)
  rwa [hx, show 0x1000 + 8 * ((a - 0x1000) / 8) + 4 * ((a - 0x1000) % 8 / 4) = a by omega] at h

/-- An aligned offset of the NODE window is that of a word of a slot (R60). -/
theorem ignoresWrites_nodeWindow (s : State) {a : Nat} (h4 : a % 4 = 0) (hlo : 0x2000 ≤ a) (hhi : a ≤ 0x3FEF) :
    ignoresWrites s (at25 a) := by
  have h := ignoresWrites_node s (i := (a - 0x2000) / 16) (w := (a - 0x2000) % 16 / 4) (by omega) (by omega)
  rwa [show 0x2000 + 16 * ((a - 0x2000) / 16) + 4 * ((a - 0x2000) % 16 / 4) = a by omega] at h

/-- An aligned offset of the CODE window is that of a word of a codebook entry (R61). -/
theorem ignoresWrites_codeWindow (s : State) {a : Nat} (h4 : a % 4 = 0) (hlo : 0x4000 ≤ a) (hhi : a ≤ 0x7FFF) :
    ignoresWrites s (at25 a) := by
  have hx : (BitVec.ofNat 8 ((a - 0x4000) / 64)).toNat = (a - 0x4000) / 64 := toNat_ofNat_byte (by omega)
  have h := ignoresWrites_code s (BitVec.ofNat 8 ((a - 0x4000) / 64)) (w := (a - 0x4000) % 64 / 4) (by omega)
  rwa [hx, show 0x4000 + 64 * ((a - 0x4000) / 64) + 4 * ((a - 0x4000) % 64 / 4) = a by omega] at h

theorem at25_toNat (off : Offset) : at25 off.toNat = off := (BitVec.ofNat_toNat 25 off).trans (BitVec.setWidth_eq off)

theorem ignoresWrites_readOnlyOffset (s : State) {off : Offset} (h : readOnlyOffset off.toNat) :
    ignoresWrites s off := by
  rw [← at25_toNat off]
  rcases h with hreg | ⟨h4, ⟨hlo, hhi⟩ | ⟨hlo, hhi⟩ | ⟨hlo, hhi⟩⟩
  · exact ignoresWrites_readOnlyReg s hreg
  · exact ignoresWrites_freqWindow s h4 hlo hhi
  · exact ignoresWrites_nodeWindow s h4 hlo hhi
  · exact ignoresWrites_codeWindow s h4 hlo hhi

/-! ### Reserved bits (R354) -/

theorem writeCtrl_congr {d d' : Word} (h0 : d.getLsbD 0 = d'.getLsbD 0) (h1 : d.getLsbD 1 = d'.getLsbD 1)
    (h31 : d.getLsbD 31 = d'.getLsbD 31) (strb : BitVec 4) (s : State) : writeCtrl d strb s = writeCtrl d' strb s := by
  rw [writeCtrl, writeCtrl, asksSoftReset, asksSoftReset, writeEnables, writeEnables, h0, h1, h31]

theorem writeStatus_congr {d d' : Word} (h1 : d.getLsbD 1 = d'.getLsbD 1) (h2 : d.getLsbD 2 = d'.getLsbD 2)
    (h3 : d.getLsbD 3 = d'.getLsbD 3) (strb : BitVec 4) (s : State) :
    writeStatus d strb s = writeStatus d' strb s := by
  rw [writeStatus_eq, writeStatus_eq, h1, h2, h3]

theorem getLsbD_lowByteWord_high (b7 b6 b5 b4 b3 b2 b1 b0 : Bool) {j : Nat} (h : 8 ≤ j) :
    (lowByteWord b7 b6 b5 b4 b3 b2 b1 b0).getLsbD j = false := by
  rw [lowByteWord_getLsbD, List.getElem?_eq_none (by simpa using h), Option.getD_none]

theorem getLsbD_statusWord_reserved (s : State) (d : Word) {j : Nat} (h : 8 ≤ j) :
    (s.statusWord d).getLsbD j = false := by
  unfold State.statusWord
  split
  · exact getLsbD_lowByteWord_high _ _ _ _ _ _ _ _ h
  · exact getLsbD_lowByteWord_high _ _ _ _ _ _ _ _ h

theorem getLsbD_ctrlWord_reserved (s : State) {j : Nat} (h : 2 ≤ j) : s.ctrlWord.getLsbD j = false := by
  rcases Nat.lt_or_ge j 8 with hj | hj
  · rw [State.ctrlWord, lowByteWord_getLsbD]
    interval_cases j <;> rfl
  · exact getLsbD_lowByteWord_high _ _ _ _ _ _ _ _ hj

/-- Settles O17: the read-only offsets, the bits a write looks at, and the bits that read 0. -/
theorem readOnlyStateAndReservedBitsIgnoreWrites : Obligations.ReadOnlyStateAndReservedBitsIgnoreWrites := by
  refine fun s => ⟨fun _ => ignoresWrites_readOnlyOffset s, fun d d' strb h0 h1 h31 => ?_, fun d d' strb h1 h2 h3 => ?_,
    ⟨_, reads_reg s .ctrl, fun _ => getLsbD_ctrlWord_reserved s⟩,
    ⟨_, reads_reg s .status, fun _ => getLsbD_statusWord_reserved s _⟩⟩
  · rw [writes_ctrl, writes_ctrl, writeCtrl_congr h0 h1 h31]
  · rw [writes_status, writes_status, writeStatus_congr h1 h2 h3]

end Sys2Proof.Machine

/-! PROOFS. The statement of the family 60_exceptions: what a command that ends with an error changes. -/

namespace Sys2Proof.Machine

/-- The state a walk error leaves (R412): the symbols emitted are kept and `DST_LEN` is 0. -/
def walkRaised (out : List Byte) (cause : Cause) (info : Word) (s : State) : State :=
  raised cause info { s with buf := s.storeDst out, dstLen := 0#32 }

/-- A walk in a state without a pending error ends with an error only by failing, with a cause of class walk and at
most the n symbols asked for. -/
theorem finishWalk_error {pool : Vector Node 511} {root : NodeIndex} {payload : List Byte} {p n : Nat} {s t : State}
    (he : s.err = false) (h : finishWalk (walkDecode pool root payload p n) n s = .next t) (ht : t.err = true) :
    ∃ out c k, out.length ≤ n ∧ c.isWalk = true ∧ t = walkRaised out c k s := by
  rcases finishWalk_next h with ⟨-, rfl⟩ | ⟨c, i, hlast, rfl⟩
  · exact absurd (he.symm.trans ht) Bool.false_ne_true
  · exact ⟨_, c, _, length_walkDecode .., isWalk_of_failed hlast, rfl⟩

/-- UNPACK and DECODE alone walk a tree. -/
def walksTree (i : Instr) : Prop := i = .unpack ∨ i = .decode

/-- A command that walks no tree is turned away with an error of class pre, or raises no error. -/
theorem exec_next_of_no_walk {i : Instr} {s t : State} (hi : ¬ walksTree i) (h : exec i s = .next t) :
    (∃ c k, c.isWalk = false ∧ t = raised c k s) ∨ t.err = s.err := by
  cases i with
  | nop =>
    obtain rfl := Host.Outcome.next.inj h
    exact .inr rfl
  | clear =>
    obtain rfl := Host.Outcome.next.inj h
    exact .inr rfl
  | count =>
    rcases execCount_next h with ⟨e, hf, rfl⟩ | ⟨-, rfl⟩
    · exact .inl ⟨_, _, countChecks_causes hf, rfl⟩
    · exact .inr rfl
  | build =>
    rcases execBuild_next h with ⟨-, rfl⟩ | ⟨-, rfl⟩
    · exact .inl ⟨_, _, rfl, rfl⟩
    · exact .inr rfl
  | derive =>
    rcases execDerive_next h with ⟨-, rfl⟩ | ⟨-, c, -, rfl⟩
    · exact .inl ⟨_, _, rfl, rfl⟩
    · exact .inr rfl
  | pack =>
    rcases execPack_next h with ⟨c, k, hc, -, rfl⟩ | ⟨-, -, -, -, rfl⟩
    · exact .inl ⟨c, k, hc, rfl⟩
    · exact .inr rfl
  | encode =>
    rcases execEncode_next h with ⟨c, k, hc, -, rfl⟩ | ⟨-, c, -, -, rfl⟩
    · exact .inl ⟨c, k, hc, rfl⟩
    · exact .inr rfl
  | parse =>
    rcases execParse_next h with ⟨c, k, hc, -, rfl⟩ | ⟨-, hd, -, rfl⟩
    · exact .inl ⟨c, k, hc, rfl⟩
    · exact .inr rfl
  | unpack => exact absurd (.inl rfl) hi
  | decode => exact absurd (.inr rfl) hi

section
variable {s t : State} (he : s.err = false) (ht : t.err = true)
include he ht

theorem execUnpack_error (h : exec .unpack s = .next t) :
    (∃ c k, c.isWalk = false ∧ t = raised c k s) ∨
    ∃ out c k, out.length ≤ s.dstCap.toNat ∧ c.isWalk = true ∧ t = walkRaised out c k s := by
  rcases execUnpack_next h with ⟨e, hf, rfl⟩ | ⟨hn, hw⟩
  · exact .inl ⟨_, _, (unpackChecks_causes hf).1, rfl⟩
  · obtain ⟨-, -, -, hcap⟩ := (unpackChecks_none s).mp hn
    obtain ⟨out, c, k, hout, hc, rfl⟩ := finishWalk_error he hw ht
    exact .inr ⟨out, c, k, hout.trans hcap, hc, rfl⟩

/-- A walk error of DECODE comes after the header and the tree have been written (R330, R412). -/
theorem execDecode_error (h : exec .decode s = .next t) :
    (∃ c k, c.isWalk = false ∧ t = raised c k s) ∨
    ∃ hd out c k, out.length ≤ s.dstCap.toNat ∧ c.isWalk = true ∧ t = walkRaised out c k (treeLoaded hd s) := by
  rcases execDecode_next h with ⟨c, k, hc, -, rfl⟩ | ⟨-, hd, -, hcap, hw⟩
  · exact .inl ⟨c, k, hc, rfl⟩
  · obtain ⟨out, c, k, hout, hc, rfl⟩ := finishWalk_error (s := treeLoaded hd s) he hw ht
    exact .inr ⟨hd, out, c, k, hout.trans hcap, hc, rfl⟩

end

/-- Storing no more than `DST_CAP` bytes keeps every byte outside the destination range (R104). -/
theorem storeDst_sameOutside {s : State} (hwf : s.buf.wf = true) {out : List Byte}
    (hout : out.length ≤ s.dstCap.toNat) :
    bufSameOutside s.buf (s.storeDst out) s.dstBase.toNat s.dstCap.toNat := fun a ha =>
  Memory.read_writeBytes_outside _ _ a out hwf (ha.imp_right (Nat.add_le_add_left hout _).trans)

/-- What R411 and R412 allow the command i that ends with an error to change from s to t. -/
def changesAllowed (i : Instr) (s t : State) : Prop :=
  (t.errCause.isWalk = false → t = { s with
    errCause := t.errCause, errInfo := t.errInfo, err := true, busy := false, done := true }) ∧
  (t.errCause.isWalk = true → (i = .unpack ∨ i = .decode) ∧ t.dstLen = 0#32 ∧
    bufSameOutside s.buf t.buf s.dstBase.toNat s.dstCap.toNat ∧
    (i = .decode → t.freqValid = true ∧ t.treeValid = true ∧ t.codesValid = false) ∧
    (i = .unpack → t = { s with
      buf := t.buf, dstLen := 0#32, errCause := t.errCause, errInfo := t.errInfo, err := true,
      busy := false, done := true }))

theorem changesAllowed_raised (i : Instr) (s : State) {c : Cause} (hc : c.isWalk = false) (k : Word) :
    changesAllowed i s (raised c k s) :=
  ⟨fun _ => rfl, fun hw => absurd (hc.symm.trans hw) Bool.false_ne_true⟩

theorem walkRaised_treeLoaded_buf (out : List Byte) (c : Cause) (k : Word) (hd : Header) (s : State) :
    (walkRaised out c k (treeLoaded hd s)).buf = s.storeDst out :=
  treeLoaded_storeDst hd s out

section
variable {s : State} (hwf : s.buf.wf = true) {out : List Byte} (hout : out.length ≤ s.dstCap.toNat) {c : Cause}
  (hc : c.isWalk = true) (k : Word)
include hwf hout hc

theorem changesAllowed_unpack_walkRaised : changesAllowed .unpack s (walkRaised out c k s) :=
  ⟨fun hp => absurd (hp.symm.trans hc) Bool.false_ne_true,
    fun _ => ⟨.inl rfl, rfl, storeDst_sameOutside hwf hout, fun hi => (nomatch hi), fun _ => rfl⟩⟩

theorem changesAllowed_decode_walkRaised (hd : Header) :
    changesAllowed .decode s (walkRaised out c k (treeLoaded hd s)) :=
  ⟨fun hp => absurd (hp.symm.trans hc) Bool.false_ne_true,
    fun _ => ⟨.inr rfl, rfl, walkRaised_treeLoaded_buf out c k hd s ▸ storeDst_sameOutside hwf hout,
      fun _ => ⟨rfl, rfl, rfl⟩, fun hi => (nomatch hi)⟩⟩

end

/-- Settles O53: a command that walks a tree fails its checks or its walk, every other command only its checks. -/
theorem errorsChangeOnlyWhatTheirClassAllows : Obligations.ErrorsChangeOnlyWhatTheirClassAllows := by
  intro i s t he hwf h ht
  by_cases hi : walksTree i
  · rcases hi with rfl | rfl
    · rcases execUnpack_error he ht h with ⟨c, k, hc, rfl⟩ | ⟨out, c, k, hout, hc, rfl⟩
      · exact changesAllowed_raised _ s hc k
      · exact changesAllowed_unpack_walkRaised hwf hout hc k
    · rcases execDecode_error he ht h with ⟨c, k, hc, rfl⟩ | ⟨hd, out, c, k, hout, hc, rfl⟩
      · exact changesAllowed_raised _ s hc k
      · exact changesAllowed_decode_walkRaised hwf hout hc k hd
  · rcases exec_next_of_no_walk hi h with ⟨c, k, hc, rfl⟩ | herr
    · exact changesAllowed_raised i s hc k
    · exact absurd (he.symm.trans (herr.symm.trans ht)) Bool.false_ne_true

end Sys2Proof.Machine

/-! PROOFS. The statement of the family 70_reset_and_hazards: the soft reset, and the bytes of `BUF` it keeps. -/

namespace Sys2Proof.Machine

theorem hasOutput_iff {i : Instr} :
    hasOutput i = true ↔ i = .pack ∨ i = .unpack ∨ i = .encode ∨ i = .decode := by
  cases i <;> simp [hasOutput]

theorem toOption_any_iff {ε α : Type} (p : α → Bool) (r : Except ε α) :
    r.toOption.any p = true ↔ ∃ x, r = .ok x ∧ p x = true := by
  cases r <;> simp [Except.toOption]

theorem outputInFlight_iff {s : State} : s.outputInFlight = true ↔ s.busy = true ∧
    ∃ i, decodeCmd s.cmdLast = .ok i ∧ (i = .pack ∨ i = .unpack ∨ i = .encode ∨ i = .decode) := by
  simp only [State.outputInFlight, Bool.and_eq_true, toOption_any_iff, hasOutput_iff]

/-- Only the destination range of an abandoned command with output may change, cut at the end of `BUF` (R454). -/
theorem read_abandonedBuf {s : State} (hwf : s.buf.wf = true) {a : Nat}
    (ha : ¬ (s.outputInFlight = true ∧ s.dstBase.toNat ≤ a ∧
      a < min (s.dstBase.toNat + s.dstCap.toNat) s.bufBytes)) :
    (abandonedBuf s).read a = s.buf.read a := by
  by_cases hf : s.outputInFlight = true
  · have hout : a < s.dstBase.toNat ∨ min (s.dstBase.toNat + s.dstCap.toNat) s.bufBytes ≤ a := by
      simpa only [hf, true_and, not_and_or, not_le, not_lt] using ha
    rw [abandonedBuf, if_pos hf]
    exact Memory.read_fill_outside _ _ _ _ _ hwf (by omega)
  · rw [abandonedBuf, if_neg hf]

/-- Settles O9: the write is the soft reset (R360), which takes its registers from `State.reset` and its `BUF` from
`abandonedBuf`. -/
theorem softResetKeepsBufOutsideAnAbandonedRange : Obligations.SoftResetKeepsBufOutsideAnAbandonedRange := by
  intro s data strb hwf hstrb hdata
  have hwrite := (controlWritesStoreTheEnables.2 s data strb).1 ⟨hstrb, hdata⟩
  refine ⟨_, hwrite, softReset_registersAtReset s, rfl, softReset_bufBytes s, rfl, fun a ha => ?_⟩
  refine read_abandonedBuf hwf fun ⟨hf, hrange⟩ => ha ?_
  obtain ⟨hbusy, hcmd⟩ := outputInFlight_iff.mp hf
  exact ⟨hbusy, hcmd, hrange⟩

end Sys2Proof.Machine

/-! PROOFS. The statements of the family other: the whole machine, host scripts, commands made of others, and what
remained of the other families. -/

namespace Sys2Proof.Machine

/-! ### The command word (R153) -/

/-- Settles O1: each of the ten words is the word of its command. -/
theorem theTenCommandWordsDecode : Obligations.TheTenCommandWordsDecode :=
  ⟨decodeCmd_encode .nop, decodeCmd_encode .clear, decodeCmd_encode .count, decodeCmd_encode .build,
    decodeCmd_encode .derive, decodeCmd_encode .pack, decodeCmd_encode .unpack, decodeCmd_encode .encode,
    decodeCmd_encode .parse, decodeCmd_encode .decode⟩

/-! ### What a step performs (R30, R106, R361) -/

theorem step_of_no_input {s : State} (h : s.inputs = []) : step s = engineTurn s := by
  simp [step, h]

theorem step_of_input {s : State} {x : Input} {xs : List Input} (h : s.inputs = x :: xs) :
    step s = perform x { s with inputs := xs } := by
  simp [step, h]

theorem engineTurn_of_idle {s : State} (h : s.busy = false) : engineTurn s = .next s := by
  simp [engineTurn, h]

/-- Settles O4: the two branches of `step`, and the four of `perform`. -/
theorem stepPerformsTheOldestInput : Obligations.StepPerformsTheOldestInput := fun _ _ =>
  ⟨step_of_no_input, step_of_input, fun _ => step_of_input, fun _ _ _ => step_of_input, step_of_input,
    engineTurn_of_idle⟩

theorem engineTurn_of_command {s : State} {i : Instr} (hb : s.busy = true) (hd : decodeCmd s.cmdLast = .ok i) :
    engineTurn s = exec i s := by
  simp [engineTurn, engineStep, hb, hd]

/-- Settles O5: the engine's turn of a busy state is the meaning of its word. -/
theorem stepRunsTheCommandInFlight : Obligations.StepRunsTheCommandInFlight := fun _ _ _ hb hd _ =>
  ⟨fun h => (step_of_no_input h).trans (engineTurn_of_command hb hd),
    fun h => (step_of_input h).trans (engineTurn_of_command hb hd)⟩

theorem decodeCmd_of_tableWord {nbits w : Nat} {i : Instr} (h : decodeTableWord nbits w = some i) :
    decodeCmd (BitVec.ofNat 32 (w % 2 ^ nbits)) = .ok i := by
  unfold decodeTableWord at h
  split at h
  · cases hd : decodeCmd (BitVec.ofNat 32 (w % 2 ^ nbits)) with
    | error e => simp [hd, Except.toOption] at h
    | ok j => simpa [hd, Except.toOption] using h
  · cases h

/-- A placed word has the engine's turn next, before whatever the environment does. -/
theorem step_placeCommand (w : Word) (s : State) : step (placeCommand w s) = engineTurn (accept w s) := by
  obtain ⟨l, hl⟩ : ∃ l, s.inputs = l := ⟨_, rfl⟩
  cases l with
  | nil =>
    have hplace : placeCommand w s = accept w s := by simp [placeCommand, accept, hl]
    rw [hplace, step_of_no_input (by simp [hl])]
  | cons x xs =>
    have hplace : placeCommand w s = { accept w s with inputs := .engineTurn :: x :: xs } := by
      simp [placeCommand, hl]
    rw [hplace, step_of_input rfl, ← hl]
    rfl

/-- Settles O6: the engine's turn of the state with the word accepted is the meaning of the word. -/
theorem placedWordRunsNext : Obligations.PlacedWordRunsNext := fun s _ _ _ h =>
  (step_placeCommand _ s).trans (engineTurn_of_command rfl (decodeCmd_of_tableWord h))

/-! ### The invariant (R65) -/

/-- Settles O56: no validity bit is set at reset, and `BUF` lists nothing. -/
theorem resetStateMeetsTheInvariant : Obligations.ResetStateMeetsTheInvariant where
  bufBytes_legal := by decide
  buf_wf := rfl
  buf_inside := by intro c hc; cases hc
  busy_pending := by intro hb; cases hb
  tree_valid := by intro hv; cases hv
  codes_valid := by intro hv; cases hv
  freq_valid := by intro hv; cases hv
  bits_valid := by intro hv; cases hv

theorem exec_inv {i : Instr} {s t : State} (h : s.Inv) (he : exec i s = .next t) : t.Inv := by
  cases i with
  | nop => exact Host.Outcome.next.inj he ▸ h.succeeded
  | clear => exact execClear_inv h he
  | count => exact execCount_inv h he
  | build => exact execBuild_inv h he
  | derive => exact execDerive_inv h he
  | pack => exact execPack_inv h he
  | unpack => exact execUnpack_inv h he
  | encode => exact execEncode_inv h he
  | parse => exact execParse_inv h he
  | decode => exact execDecode_inv h he

theorem execCount_ends (s : State) : ∃ t, execCount s = .next t := by
  refine checked_ends fun _ => ?_
  exact ⟨counted s, rfl⟩

theorem execBuild_ends (s : State) : ∃ t, execBuild s = .next t := by
  refine checked_ends fun _ => ?_
  exact ⟨built s, rfl⟩

/-- Every command ends in a state of the invariant: the derivation and the walk run in valid trees only. -/
theorem exec_ends {s : State} (h : s.Inv) (i : Instr) : ∃ t, exec i s = .next t := by
  cases i with
  | nop => exact ⟨_, execNop_eq s⟩
  | clear => exact ⟨_, execClear_eq s⟩
  | count => exact execCount_ends s
  | build => exact execBuild_ends s
  | derive => exact execDerive_ends h
  | pack => exact execPack_ends s
  | unpack => exact execUnpack_ends h
  | encode => exact execEncode_ends s
  | parse => exact execParse_ends s
  | decode => exact execDecode_ends s

/-- The engine's turn completes the command in flight, whatever its word, or leaves an idle state as it is. -/
theorem engineTurn_cases (s : State) :
    (s.busy = false ∧ engineTurn s = .next s) ∨
    (s.busy = true ∧ engineTurn s = .next (raised .illegalCmd s.cmdLast s)) ∨
    ∃ i, s.busy = true ∧ decodeCmd s.cmdLast = .ok i ∧ engineTurn s = exec i s := by
  cases hb : s.busy with
  | false => exact .inl ⟨rfl, engineTurn_of_idle hb⟩
  | true =>
    cases hd : decodeCmd s.cmdLast with
    | error e => exact .inr (.inl ⟨rfl, (engineTurn_of_busy hb).trans (engineStep_of_illegal hd)⟩)
    | ok i => exact .inr (.inr ⟨i, rfl, rfl, engineTurn_of_command hb hd⟩)

theorem engineTurn_inv {s t : State} (h : s.Inv) (he : engineTurn s = .next t) : t.Inv := by
  rcases engineTurn_cases s with ⟨-, e⟩ | ⟨-, e⟩ | ⟨i, -, -, e⟩
  · exact Host.Outcome.next.inj (e.symm.trans he) ▸ h
  · exact Host.Outcome.next.inj (e.symm.trans he) ▸ h.raised _ _
  · exact exec_inv h (e.symm.trans he)

theorem engineTurn_ends {s : State} (h : s.Inv) : ∃ t, engineTurn s = .next t := by
  rcases engineTurn_cases s with ⟨-, e⟩ | ⟨-, e⟩ | ⟨i, -, -, e⟩
  · exact ⟨_, e⟩
  · exact ⟨_, e⟩
  · exact e ▸ exec_ends h i

theorem perform_inv {x : Input} {s t : State} (h : s.Inv) (he : perform x s = .next t) : t.Inv := by
  cases x with
  | read off => exact Host.Outcome.next.inj he ▸ hostRead_inv h off
  | write off data strb => exact Host.Outcome.next.inj he ▸ hostWrite_inv h off data strb
  | engineTurn => exact engineTurn_inv h he
  | hardReset => exact Host.Outcome.next.inj he ▸ hardReset_inv h

theorem perform_ends {s : State} (h : s.Inv) (x : Input) : ∃ t, perform x s = .next t := by
  cases x with
  | read off => exact ⟨_, rfl⟩
  | write off data strb => exact ⟨_, rfl⟩
  | engineTurn => exact engineTurn_ends h
  | hardReset => exact ⟨_, rfl⟩

/-- The invariant does not speak of what the environment does next. -/
theorem State.Inv.withInputs {s : State} (h : s.Inv) (l : List Input) : (s.withInputs l).Inv := h.frame rfl id id

/-- A step is the engine's turn, or performs an input on the state with the input taken off the list. -/
theorem step_cases (s : State) :
    step s = engineTurn s ∨ ∃ x xs, s.inputs = x :: xs ∧ step s = perform x (s.withInputs xs) := by
  obtain ⟨l, hl⟩ : ∃ l, s.inputs = l := ⟨_, rfl⟩
  cases l with
  | nil => exact .inl (step_of_no_input hl)
  | cons x xs => exact .inr ⟨x, xs, hl, step_of_input hl⟩

/-- Settles O57: the engine's turn and every input keep the invariant. -/
theorem everyStepKeepsTheInvariant : Obligations.EveryStepKeepsTheInvariant := by
  intro s t h he
  rcases step_cases s with e | ⟨x, xs, -, e⟩
  · exact engineTurn_inv h (e.symm.trans he)
  · exact perform_inv (h.withInputs xs) (e.symm.trans he)

/-- Settles O58: the engine's turn and every input give a next state. -/
theorem everyStepOfAnInvariantStateGivesANextState : Obligations.EveryStepOfAnInvariantStateGivesANextState := by
  intro s h
  rcases step_cases s with e | ⟨x, xs, -, e⟩
  · exact e ▸ engineTurn_ends h
  · exact e ▸ perform_ends (h.withInputs xs) x

end Sys2Proof.Machine

/-! PROOFS. The statements of the family other on every command: how a command completes (R361), and what it never
writes (R39, R104, R152, R207). -/

namespace Sys2Proof.Machine

/-- What the command i may write on the way from s to u, before the flags of its completion. -/
structure Writes (i : Instr) (s u : State) : Prop where
  frame : u = { s with
    buf := u.buf, dstLen := u.dstLen, hdrLen := u.hdrLen, padding := u.padding
    freq := u.freq, total := u.total, nsym := u.nsym, node := u.node, root := u.root, nodes := u.nodes
    codeLen := u.codeLen, codeBits := u.codeBits, totalBits := u.totalBits
    freqValid := u.freqValid, treeValid := u.treeValid, codesValid := u.codesValid, draws := u.draws } := by rfl
  stored : ∃ out, out.length ≤ s.dstCap.toNat ∧ u.buf = s.storeDst out
  output : i ∉ [.pack, .unpack, .encode, .decode] → u.buf = s.buf ∧ u.dstLen = s.dstLen := by simp
  table : i ∉ [.clear, .count, .encode, .parse, .decode] →
    u.freq = s.freq ∧ u.total = s.total ∧ u.nsym = s.nsym := by simp
  tree : i ∉ [.build, .encode, .decode] → u.node = s.node ∧ u.root = s.root ∧ u.nodes = s.nodes := by simp
  codes : i ∉ [.derive, .encode] →
    u.codeLen = s.codeLen ∧ u.codeBits = s.codeBits ∧ u.totalBits = s.totalBits := by simp
  header : i ∉ [.encode, .parse, .decode] → u.hdrLen = s.hdrLen := by simp
  pad : i ∉ [.pack, .encode, .parse, .decode] → u.padding = s.padding := by simp

/-- A memory that is kept is one into which nothing has been stored. -/
theorem stored_of_kept {s u : State} (h : u.buf = s.buf) :
    ∃ out, out.length ≤ s.dstCap.toNat ∧ u.buf = s.storeDst out :=
  ⟨[], Nat.zero_le _, h⟩

theorem Writes.refl (i : Instr) (s : State) : Writes i s s where
  stored := stored_of_kept rfl

/-- The completion of a command that has left u: success, or an error with a cause (R361, R400). -/
def completesAs (u t : State) : Prop := t = succeeded u ∨ ∃ c k, c ≠ Cause.none ∧ t = raised c k u

/-- From s the command i has gone to t. -/
def completes (i : Instr) (s t : State) : Prop := ∃ u, Writes i s u ∧ completesAs u t

theorem completes_raised (i : Instr) (s : State) {c : Cause} (hc : c ≠ .none) (k : Word) :
    completes i s (raised c k s) :=
  ⟨s, .refl i s, .inr ⟨c, k, hc, rfl⟩⟩

theorem completes_succeeded {i : Instr} {s u : State} (h : Writes i s u) : completes i s (succeeded u) :=
  ⟨u, h, .inl rfl⟩

theorem Cause.ne_none_of_isWalk {c : Cause} (h : c.isWalk = true) : c ≠ .none := by
  rintro rfl
  cases h

theorem countChecks_ne_none {s : State} {e : Cause × Word} (h : firstFailure (countChecks s) = some e) :
    e.1 ≠ .none := by
  obtain ⟨c, hc, -, rfl⟩ := firstFailure_mem h
  simp only [countChecks, sequenceCheck, State.srcCheck, List.mem_cons, List.not_mem_nil, or_false] at hc
  rcases hc with rfl | rfl | rfl <;> simp

/-- A walk ends in a state with the symbols it has emitted stored, at most n of them. -/
theorem finishWalk_completes {pool : Vector Node 511} {root : NodeIndex} {payload : List Byte} {p n : Nat}
    {i : Instr} {s u t : State} (h : finishWalk (walkDecode pool root payload p n) n u = .next t)
    (hw : ∀ out dl, out.length ≤ n → Writes i s { u with buf := u.storeDst out, dstLen := dl }) : completes i s t := by
  have hout := length_walkDecode pool root payload p n
  rcases finishWalk_next h with ⟨-, rfl⟩ | ⟨c, k, hlast, rfl⟩
  · exact completes_succeeded (hw _ _ hout)
  · exact ⟨_, hw _ _ hout, .inr ⟨c, _, Cause.ne_none_of_isWalk (isWalk_of_failed hlast), rfl⟩⟩

theorem execUnpack_completes {s t : State} (h : execUnpack s = .next t) : completes .unpack s t := by
  rcases execUnpack_next h with ⟨e, he, rfl⟩ | ⟨hn, hw⟩
  · exact completes_raised _ s (unpackChecks_causes he).2 _
  · obtain ⟨-, -, -, hcap⟩ := (unpackChecks_none s).mp hn
    exact finishWalk_completes hw fun out _ hout => { stored := ⟨out, hout.trans hcap, rfl⟩ }

theorem execDecode_completes {s t : State} (h : execDecode s = .next t) : completes .decode s t := by
  rcases execDecode_next h with ⟨c, k, -, hc, rfl⟩ | ⟨-, hd, -, hcap, hw⟩
  · exact completes_raised _ s hc k
  · refine finishWalk_completes hw fun out _ hout => ?_
    rw [treeLoaded_storeDst, treeLoaded_eq]
    exact { stored := ⟨out, hout.trans hcap, rfl⟩ }

theorem execPack_completes {s t : State} (h : execPack s = .next t) : completes .pack s t := by
  rcases execPack_next h with ⟨c, k, -, hc, rfl⟩ | ⟨-, -, -, hcap, rfl⟩
  · exact completes_raised _ s hc k
  · exact completes_succeeded
      { stored := ⟨_, (length_packBits_inputBits s.codeBook s.srcBytes).trans_le hcap, rfl⟩ }

theorem execEncode_completes {s t : State} (h : execEncode s = .next t) : completes .encode s t := by
  rcases execEncode_next h with ⟨c, k, -, hc, rfl⟩ | ⟨-, c, -, hcap, rfl⟩
  · exact completes_raised _ s hc k
  · exact completes_succeeded { stored := ⟨_, (length_encoded c s).trans_le hcap, rfl⟩ }

/-- How every command completes, and what it may have written. -/
theorem exec_completes {i : Instr} {s t : State} (h : exec i s = .next t) : completes i s t := by
  cases i with
  | nop => exact Host.Outcome.next.inj h ▸ completes_succeeded (.refl _ s)
  | clear => exact Host.Outcome.next.inj h ▸ completes_succeeded { stored := stored_of_kept rfl }
  | count =>
    rcases execCount_next h with ⟨e, he, rfl⟩ | ⟨-, rfl⟩
    · exact completes_raised _ s (countChecks_ne_none he) _
    · exact completes_succeeded { stored := stored_of_kept rfl }
  | build =>
    rcases execBuild_next h with ⟨-, rfl⟩ | ⟨-, rfl⟩
    · exact completes_raised _ s (by simp) _
    · exact completes_succeeded { stored := stored_of_kept rfl }
  | derive =>
    rcases execDerive_next h with ⟨-, rfl⟩ | ⟨-, c, -, rfl⟩
    · exact completes_raised _ s (by simp) _
    · exact completes_succeeded { stored := stored_of_kept rfl }
  | pack => exact execPack_completes h
  | unpack => exact execUnpack_completes h
  | encode => exact execEncode_completes h
  | parse =>
    rcases execParse_next h with ⟨c, k, -, hc, rfl⟩ | ⟨-, hd, -, rfl⟩
    · exact completes_raised _ s hc k
    · exact completes_succeeded { stored := stored_of_kept rfl }
  | decode => exact execDecode_completes h

/-- No command writes the error state before it completes. -/
theorem Writes.errors {i : Instr} {s u : State} (h : Writes i s u) :
    u.err = s.err ∧ u.errCause = s.errCause ∧ u.errInfo = s.errInfo := by
  rw [h.frame]
  exact ⟨rfl, rfl, rfl⟩

/-- Settles O7: a success keeps the error state of what the command has written, an error has a cause. -/
theorem completionSetsDoneAndClearsBusy : Obligations.CompletionSetsDoneAndClearsBusy := by
  intro i s t h
  obtain ⟨u, hw, rfl | ⟨c, k, hc, rfl⟩⟩ := exec_completes h
  · exact ⟨rfl, rfl, .inl hw.errors⟩
  · exact ⟨rfl, rfl, .inr ⟨rfl, hc⟩⟩

theorem exec_busy {i : Instr} {s t : State} (h : exec i s = .next t) : t.busy = false :=
  (completionSetsDoneAndClearsBusy i s t h).1

/-- A completion writes the error state, `BUSY` and `DONE` alone. -/
theorem completesAs_frame {u t : State} (h : completesAs u t) : t = { u with
    err := t.err, errCause := t.errCause, errInfo := t.errInfo, busy := t.busy, done := t.done } := by
  rcases h with rfl | ⟨c, k, -, rfl⟩ <;> rfl

theorem Writes.sameOutside {i : Instr} {s u : State} (h : Writes i s u) (hwf : s.buf.wf = true) :
    bufSameOutside s.buf u.buf s.dstBase.toNat s.dstCap.toNat := by
  obtain ⟨out, hout, hbuf⟩ := h.stored
  exact hbuf ▸ storeDst_sameOutside hwf hout

/-- Settles O55: what a command may write, completed. -/
theorem commandsWriteOnlyWhatTheirRulesName : Obligations.CommandsWriteOnlyWhatTheirRulesName := by
  intro i s t hwf h
  obtain ⟨u, hw, hc⟩ := exec_completes h
  rw [completesAs_frame hc, hw.frame]
  exact ⟨rfl, rfl, rfl, rfl, rfl, rfl, rfl, rfl, rfl, rfl, rfl, hw.sameOutside hwf, hw.output, hw.table, hw.tree,
    hw.codes, hw.header, hw.pad⟩

end Sys2Proof.Machine

/-! PROOFS. The statement of the family other on progress (R362): a command in flight ends. -/

namespace Sys2Proof.Machine

/-- The engine's turn leaves the engine idle. -/
theorem engineTurn_busy {s t : State} (h : engineTurn s = .next t) : t.busy = false := by
  rcases engineTurn_cases s with ⟨hb, e⟩ | ⟨-, e⟩ | ⟨i, -, -, e⟩
  · exact Host.Outcome.next.inj (e.symm.trans h) ▸ hb
  · exact Host.Outcome.next.inj (e.symm.trans h) ▸ rfl
  · exact exec_busy (e.symm.trans h)

/-- With the inputs l left, l.length + 1 steps suffice: the engine's turn comes in l, or after it. -/
theorem idle_within {s : State} (l : List Input) (h : s.Inv) (hb : s.busy = true) :
    ∃ k t, k ≤ l.length + 1 ∧ Sys2Proof.core.run k (s.withInputs l) = .next t ∧ State.busy t = false := by
  induction l generalizing s with
  | nil =>
    obtain ⟨t, ht⟩ := engineTurn_ends (h.withInputs [])
    exact ⟨1, t, Nat.le_refl _, core_run_succ 0 ((step_of_no_input rfl).trans ht), engineTurn_busy ht⟩
  | cons x xs ih =>
    obtain ⟨t, ht⟩ := perform_ends h x
    have hstep : step (s.withInputs (x :: xs)) = .next (t.withInputs xs) :=
      (step_of_input rfl).trans ((perform_inputs xs x s).trans (by rw [ht]; rfl))
    cases hbt : t.busy with
    | false => exact ⟨1, t.withInputs xs, by simp, core_run_succ 0 hstep, hbt⟩
    | true =>
      obtain ⟨k, u, hk, hrun, hu⟩ := ih (perform_inv h ht) hbt
      exact ⟨k + 1, u, Nat.succ_le_succ hk, (core_run_succ k hstep).trans hrun, hu⟩

/-- Settles O59: the list of inputs is that of the state. -/
theorem commandInFlightEnds : Obligations.CommandInFlightEnds := fun s h hb => idle_within s.inputs h hb

end Sys2Proof.Machine

/-! PROOFS. The statements of the family other on host transactions: what the registers read as (R353), and what a
transaction leaves of the command in flight (R111, R112, R461). -/

namespace Sys2Proof.Machine

/-! ### What the registers read as (R34 to R48, R353) -/

/-- The bits of `STATUS` while idle (R35). -/
theorem getLsbD_statusWord_idle {s : State} (hb : s.busy = false) (d : Word) (j : Nat) :
    (s.statusWord d).getLsbD j =
      ([false, s.done, s.err, s.ovr, s.freqValid, s.treeValid, s.codesValid, s.irq][j]?).getD false := by
  rw [State.statusWord, hb, if_neg Bool.false_ne_true, lowByteWord_getLsbD]

/-- The bits of `STATUS` while busy: the validity bits are those of the draw (R353). -/
theorem getLsbD_statusWord_busy {s : State} (hb : s.busy = true) (d : Word) (j : Nat) :
    (s.statusWord d).getLsbD j =
      ([true, false, false, s.ovr, d.getLsbD 4, d.getLsbD 5, d.getLsbD 6, s.irq][j]?).getD false := by
  rw [State.statusWord, hb, if_pos rfl, lowByteWord_getLsbD]

theorem getLsbD_ctrlWord (s : State) (j : Nat) : s.ctrlWord.getLsbD j =
    ([s.doneIE, s.errIE, false, false, false, false, false, false][j]?).getD false :=
  lowByteWord_getLsbD ..

/-- `STATUS` shows its bits as held, but for those that the engine writes while busy. -/
theorem statusWord_bits (s : State) (d : Word) :
    (s.statusWord d).getLsbD 0 = s.busy ∧ (s.statusWord d).getLsbD 3 = s.ovr ∧ (s.statusWord d).getLsbD 7 = s.irq ∧
    (s.busy = false → (s.statusWord d).getLsbD 1 = s.done ∧ (s.statusWord d).getLsbD 2 = s.err ∧
      (s.statusWord d).getLsbD 4 = s.freqValid ∧ (s.statusWord d).getLsbD 5 = s.treeValid ∧
      (s.statusWord d).getLsbD 6 = s.codesValid) ∧
    (s.busy = true → (s.statusWord d).getLsbD 1 = false ∧ (s.statusWord d).getLsbD 2 = false) := by
  cases hb : s.busy with
  | false =>
    simp only [getLsbD_statusWord_idle hb]
    exact ⟨rfl, rfl, rfl, fun _ => ⟨rfl, rfl, rfl, rfl, rfl⟩, fun h => (nomatch h)⟩
  | true =>
    simp only [getLsbD_statusWord_busy hb]
    exact ⟨rfl, rfl, rfl, fun h => (nomatch h), fun _ => ⟨rfl, rfl⟩⟩

/-- A register that the engine writes reads as held while idle. -/
theorem reads_held {s : State} {r : Reg} {v : Word} (hb : s.busy = false) (h : ∀ d, readReg s d r = s.hidden d v) :
    readsAs s (at25 r.offset) v := by
  have hread := reads_reg s r
  rwa [h, hidden_of_idle hb] at hread

/-- The registers that the engine writes (R353). -/
def Reg.written : List Reg :=
  [.errCause, .errInfo, .dstLen, .hdrLen, .padding, .nsym, .totalLo, .totalHi, .totalBits0, .totalBits1, .totalBits2,
    .root, .nodes]

/-- While busy they read as the draw. -/
theorem reads_drawn {s : State} (hb : s.busy = true) :
    ∀ r ∈ Reg.written, readsAs s (at25 r.offset) (Config.drawWord s.draws) := by
  intro r hr
  have hread := reads_reg s r
  have hdraw : ∀ q ∈ Reg.written, readReg s (Config.drawWord s.draws) q = Config.drawWord s.draws := by
    simp [Reg.written, readReg, hidden_of_busy hb]
  rwa [hdraw r hr] at hread

/-- The three words of a 72-bit number. -/
theorem toNat_thirds (b : BitVec 72) : (b.extractLsb' 64 32).toNat * 2 ^ 64 + (b.extractLsb' 32 32).toNat * 2 ^ 32 +
    (b.extractLsb' 0 32).toNat = b.toNat := by
  have := b.isLt
  simp only [BitVec.extractLsb'_toNat, Nat.shiftRight_eq_div_pow]
  omega

/-- Settles O18: each register by its arm of `readReg`, those the engine writes by whether it is busy. -/
theorem registersReadAsHeld : Obligations.RegistersReadAsHeld := by
  intro s
  refine ⟨fun off => ⟨_, rfl⟩,
    ⟨_, reads_reg s .ctrl, getLsbD_ctrlWord s 0, getLsbD_ctrlWord s 1⟩,
    ⟨_, reads_reg s .status, statusWord_bits s _⟩,
    reads_reg s .cmd, reads_reg s .srcBase, reads_reg s .srcLen, reads_reg s .dstBase, reads_reg s .dstCap,
    fun hb => ?_, fun hb => ?_⟩
  · have held {r : Reg} {v : Word} (h : ∀ d, readReg s d r = s.hidden d v) : readsAs s (at25 r.offset) v :=
      reads_held hb h
    exact ⟨⟨_, held (r := .errCause) fun _ => rfl, BitVec.toNat_setWidth_of_le (by decide)⟩,
      held (r := .errInfo) fun _ => rfl, held (r := .dstLen) fun _ => rfl, held (r := .hdrLen) fun _ => rfl,
      ⟨_, held (r := .padding) fun _ => rfl, BitVec.toNat_setWidth_of_le (by decide)⟩,
      ⟨_, held (r := .nsym) fun _ => rfl, BitVec.toNat_setWidth_of_le (by decide)⟩,
      ⟨_, _, held (r := .totalLo) fun _ => rfl, held (r := .totalHi) fun _ => rfl, toNat_halves _⟩,
      ⟨_, _, _, held (r := .totalBits0) fun _ => rfl, held (r := .totalBits1) fun _ => rfl,
        held (r := .totalBits2) fun _ => rfl, toNat_thirds _⟩,
      ⟨_, held (r := .root) fun _ => rfl, BitVec.toNat_setWidth_of_le (by decide)⟩,
      ⟨_, held (r := .nodes) fun _ => rfl, BitVec.toNat_setWidth_of_le (by decide)⟩⟩
  · exact List.forall_mem_map (f := Reg.offset) (l := Reg.written)
      (P := fun off => readsAs s (at25 off) (Config.drawWord s.draws)) |>.mpr (reads_drawn hb)

/-! ### The command in flight (R111, R112, R461) -/

/-- What a host transaction may move while a command is in flight. -/
def leavesCommand (s t : State) : Prop :=
  t = { s with
    doneIE := t.doneIE, errIE := t.errIE, done := t.done, err := t.err, ovr := t.ovr,
    response := t.response, draws := t.draws } ∧
  (t.done = true → s.done = true) ∧ (t.err = true → s.err = true)

theorem isSoftReset_of_ctrl {n : Nat} {off : Offset} {data : Word} {strb : BitVec 4}
    (hd : decodeOffset n off = some (.reg .ctrl)) (ha : asksSoftReset data strb = true) :
    isSoftReset (.write off data strb) = true := by
  have hoff : off = 0x00C#25 := BitVec.eq_of_toNat_eq (decodeOffset_reg_inj hd)
  simp only [asksSoftReset, Bool.and_eq_true] at ha
  simp [isSoftReset, hoff, ha]

/-- While busy a write stores nothing: it is dropped, ignored, or goes to the enables or the W1C bits. -/
theorem hostWrite_leavesCommand {s : State} {off : Offset} {data : Word} {strb : BitVec 4} (hb : s.busy = true)
    (hr : isSoftReset (.write off data strb) = false) : leavesCommand s (hostWrite off data strb s) := by
  unfold hostWrite
  split
  · exact ⟨rfl, id, id⟩
  · split
    · exact ⟨rfl, id, id⟩
    · rename_i t ht
      rcases writeTarget_cases data strb s t with ⟨rfl, ha, -⟩ | ⟨-, hi, -⟩ | ⟨k, -, hi, -⟩ | ⟨u, e, hu, hd, he, ho⟩
      · exact absurd (hr.symm.trans (isSoftReset_of_ctrl ht ha)) Bool.false_ne_true
      · exact absurd (hi.symm.trans hb) Bool.false_ne_true
      · exact absurd (hi.symm.trans hb) Bool.false_ne_true
      · obtain ⟨h1, h2, h3, h4⟩ := ho hb
        rw [h1, h2, h3, h4] at hu
        rw [e]
        refine ⟨?_, hd, he⟩
        rw [hu]

/-- Settles O23: a read moves the answer and the draws, a write what `hostWrite_leavesCommand` says. -/
theorem hostTransactionsLeaveTheCommandInFlight : Obligations.HostTransactionsLeaveTheCommandInFlight := by
  intro s t x xs hb hx htr hr hstep
  rw [step_of_input hx] at hstep
  cases x with
  | read off => exact Host.Outcome.next.inj hstep ▸ ⟨rfl, id, id⟩
  | write off data strb =>
    exact Host.Outcome.next.inj hstep ▸ hostWrite_leavesCommand (s := { s with inputs := xs }) hb hr
  | engineTurn => cases htr
  | hardReset => cases htr

end Sys2Proof.Machine

/-! PROOFS. The statement of the family other on host scripts (R170, R171): what each statement does when it is
played. -/

namespace Sys2Proof.Machine

/-! ### One transaction of a play -/

/-- The play after the transaction x, which has left the state t. -/
def Play.advance (x : Input) (t : State) (q : Play) : Play :=
  { state := t, turns := q.turns.tail, done := q.done ++ q.due x }

@[simp] theorem Play.advance_state (x : Input) (t : State) (q : Play) : (q.advance x t).state = t := rfl

@[simp] theorem Play.advance_turns (x : Input) (t : State) (q : Play) : (q.advance x t).turns = q.turns.tail := rfl

theorem Play.transact_of_performAll {q : Play} {x : Input} {t : State}
    (h : performAll (q.due x) q.state = .next t) : q.transact x = some (q.advance x t) := by
  simp [Play.transact, h, Play.advance]

theorem performAll_singleton (x : Input) (s : State) : performAll [x] s = perform x s := by
  cases h : perform x s <;> simp [performAll, h]

theorem performAll_pair {x y : Input} {s t : State} (h : perform x s = .next t) :
    performAll [x, y] s = perform y t := by
  rw [← performAll_singleton]
  simp only [performAll, h]

/-- A transaction before which the engine has its turn. -/
theorem Play.transact_with_turn {q : Play} {x : Input} {u t : State} (hd : q.turns.headD true = true)
    (hu : engineTurn q.state = .next u) (ht : perform x u = .next t) : q.transact x = some (q.advance x t) := by
  refine Play.transact_of_performAll ?_
  rw [Play.due, if_pos hd, performAll_pair (x := .engineTurn) hu, ht]

/-- A transaction before which the engine has no turn. -/
theorem Play.transact_without_turn {q : Play} {x : Input} {t : State} (hd : q.turns.headD true = false)
    (ht : perform x q.state = .next t) : q.transact x = some (q.advance x t) := by
  refine Play.transact_of_performAll ?_
  rw [Play.due, hd, if_neg Bool.false_ne_true, performAll_singleton, ht]

/-- The turn of an idle engine makes no difference. -/
theorem Play.transact_idle {q : Play} {x : Input} {t : State} (hb : q.state.busy = false)
    (ht : perform x q.state = .next t) : q.transact x = some (q.advance x t) := by
  cases hd : q.turns.headD true with
  | false => exact Play.transact_without_turn hd ht
  | true => exact Play.transact_with_turn hd (engineTurn_of_idle hb) ht

/-- A read ends a transaction with a read of some state. -/
theorem Play.transact_read {q q' : Play} {off : Offset} (h : q.transact (.read off) = some q') :
    ∃ u, q'.state = hostRead off u := by
  cases hd : q.turns.headD true with
  | false =>
    rw [Play.transact_without_turn hd rfl] at h
    exact ⟨q.state, Option.some.inj h ▸ rfl⟩
  | true =>
    cases hu : engineTurn q.state with
    | next u =>
      rw [Play.transact_with_turn hd hu rfl] at h
      exact ⟨u, Option.some.inj h ▸ rfl⟩
    | fault f => simp [Play.transact, Play.due, -List.headD_eq_head?_getD, hd, performAll, perform, hu] at h
    | refused r => simp [Play.transact, Play.due, -List.headD_eq_head?_getD, hd, performAll, perform, hu] at h

theorem hostRead_read (off : Offset) (s : State) : ∃ r data, (hostRead off s).response = some (.read r data) := by
  simp only [hostRead, readAnswer]
  split
  · exact ⟨_, _, rfl⟩
  · split <;> exact ⟨_, _, rfl⟩

/-! ### The actions of a statement, one after the other -/

theorem playActions_ended {tries : Nat} {a : Action} {as : List Action} {q q' : Play}
    (h : a.play tries q = .ended q') : playActions tries (a :: as) q = playActions tries as q' := by
  simp only [playActions, h]

theorem playActions_wrong {tries : Nat} {a : Action} {as : List Action} {q q' : Play}
    (h : a.play tries q = .wrong q') : playActions tries (a :: as) q = .wrong q' := by
  simp only [playActions, h]

/-- An action that is performed once ends, or is wrong, by its answer. -/
theorem Action.play_once {a : Action} {q q' : Play} (ha : a.repeats = false)
    (h : q.transact a.transaction = some q') (tries : Nat) :
    a.play tries q = if q'.meets a then .ended q' else .wrong q' := by
  simp only [Action.play, ha, Bool.false_eq_true, if_false, Action.once, h]

/-! ### `poll` (R171) -/

theorem Play.meets_poll_of_read {q : Play} {r : Resp} {data : Word} (h : q.state.response = some (.read r data))
    (p : Place) (mask val : Word) : q.meets (.poll p mask val) = decide (data &&& mask = val) := by
  simp [Play.meets, h, Action.accepts]

/-- Each round of `poll` ends with the answer to a read. -/
theorem Action.times_poll_read {p : Place} {mask val : Word} {n : Nat} {q b : Play}
    (h : (Action.poll p mask val).times (n + 1) q = some b) : ∃ r data, b.state.response = some (.read r data) := by
  induction n generalizing q with
  | zero =>
    obtain ⟨q', hq', hb⟩ := Option.bind_eq_some_iff.mp h
    obtain ⟨u, hu⟩ := Play.transact_read hq'
    rw [← Option.some.inj hb, hu]
    exact hostRead_read _ u
  | succ n ih =>
    obtain ⟨q', -, hb⟩ := Option.bind_eq_some_iff.mp h
    exact ih hb

/-- A round of `poll` that does not end it shows data that is not the value under the mask. -/
theorem Action.times_poll_unmet {p : Place} {mask val : Word} {n : Nat} {q b : Play}
    (h : (Action.poll p mask val).times (n + 1) q = some b) : b.meets (.poll p mask val) = false ↔
      ∃ r data, b.state.response = some (.read r data) ∧ data &&& mask ≠ val := by
  obtain ⟨r, data, hr⟩ := Action.times_poll_read h
  rw [Play.meets_poll_of_read hr, decide_eq_false_iff_not]
  simp [hr]

theorem poll_ends_with_first (p : Place) (mask val : Word) (tries : Nat) (q q' : Play) :
    (Action.poll p mask val).play tries q = .ended q' ↔
      ∃ n < tries, (Action.poll p mask val).times (n + 1) q = some q' ∧
        (∃ r data, q'.state.response = some (.read r data) ∧ data &&& mask = val) ∧
        ∀ k < n, ∃ b, (Action.poll p mask val).times (k + 1) q = some b ∧
          ∃ r data, b.state.response = some (.read r data) ∧ data &&& mask ≠ val := by
  rw [show (Action.poll p mask val).play tries q = (Action.poll p mask val).repeatUntil tries q from rfl,
    Action.repeatUntil_ended]
  simp only [Play.meets_poll]
  refine exists_congr fun n => and_congr_right fun _ => and_congr_right fun _ => and_congr_right fun _ =>
    forall₂_congr fun k _ => exists_congr fun b => and_congr_right fun hb => Action.times_poll_unmet hb

/-! ### `wait` (R171, R362) -/

theorem State.sameBlock.refl (s : State) : s.sameBlock s := rfl

theorem State.sameBlock.trans {s t u : State} (h : s.sameBlock t) (h' : t.sameBlock u) : s.sameBlock u := by
  unfold State.sameBlock at *
  rw [h', h]

theorem hostRead_sameBlock (off : Offset) (s : State) : s.sameBlock (hostRead off s) := rfl

/-- Bit 0 of `STATUS` is `BUSY`, whatever the draw (R35, R353). -/
theorem statusWord_and_one (s : State) (d : Word) : s.statusWord d &&& 0x1#32 = 0x0#32 ↔ s.busy = false := by
  obtain ⟨hbit, -⟩ := statusWord_bits s d
  rw [BitVec.and_one_eq_setWidth_ofBool_getLsbD, hbit]
  cases s.busy <;> decide

/-- `wait` ends with the read that finds the engine idle. -/
theorem Play.meets_wait {q : Play} {t : State} (h : q.state = hostRead (at25 0x010) t) :
    q.meets .wait = !t.busy := by
  have hread : q.state.response = some (.read .okay (t.statusWord (Config.drawWord t.draws))) :=
    h ▸ reads_reg t .status
  rw [Action.wait, Play.meets_poll_of_read hread, Bool.eq_iff_iff, decide_eq_true_iff]
  exact (statusWord_and_one t _).trans (by simp)

theorem Action.repeatUntil_met {a : Action} {q q' : Play} (h : q.transact a.transaction = some q')
    (hm : q'.meets a = true) (tries : Nat) : a.repeatUntil (tries + 1) q = .ended q' := by
  simp only [Action.repeatUntil_succ, h, hm, if_true]

theorem Action.repeatUntil_unmet {a : Action} {q q' : Play} (h : q.transact a.transaction = some q')
    (hm : q'.meets a = false) (tries : Nat) : a.repeatUntil (tries + 1) q = a.repeatUntil tries q' := by
  simp only [Action.repeatUntil_succ, h, hm, Bool.false_eq_true, if_false]

/-- The rounds of `wait` that are given no turn of the engine leave the block as it is; the turn ends it. -/
theorem wait_repeats_until_turn {tries : Nat} {q : Play} (hi : q.state.Inv) (ht : q.turns.length < tries) :
    ∃ u t q', q.state.sameBlock u ∧ engineTurn u = .next t ∧ t.busy = false ∧
      Action.wait.repeatUntil tries q = .ended q' ∧ q'.state = hostRead (at25 0x010) t := by
  induction tries generalizing q with
  | zero => omega
  | succ tries ih =>
    have hmeets (t : State) : (q.advance Action.wait.transaction (hostRead (at25 0x010) t)).meets .wait = !t.busy :=
      Play.meets_wait rfl
    cases hd : q.turns.headD true with
    | true =>
      obtain ⟨t, hu⟩ := engineTurn_ends hi
      have hb := engineTurn_busy hu
      have hend := Action.repeatUntil_met (Play.transact_with_turn hd hu rfl) ((hmeets t).trans (by rw [hb]; rfl)) tries
      exact ⟨q.state, t, _, .refl _, hu, hb, hend, rfl⟩
    | false =>
      have htrans := Play.transact_without_turn (x := Action.wait.transaction) hd rfl
      cases hb : q.state.busy with
      | false =>
        have hend := Action.repeatUntil_met htrans ((hmeets q.state).trans (by rw [hb]; rfl)) tries
        exact ⟨q.state, q.state, _, .refl _, engineTurn_of_idle hb, hb, hend, rfl⟩
      | true =>
        have hlen : q.turns.tail.length < tries := by
          cases hq : q.turns with
          | nil => simp [hq] at hd
          | cons b bs => simpa [hq] using ht
        have hnext := Action.repeatUntil_unmet htrans ((hmeets q.state).trans (by rw [hb]; rfl)) tries
        obtain ⟨u, t, q', hsame, hu, hbt, hend, hq'⟩ := ih (q := q.advance _ _) (hostRead_inv hi _) hlen
        exact ⟨u, t, q', (hostRead_sameBlock _ _).trans hsame, hu, hbt, hnext.trans hend, hq'⟩

/-- A script that ends with `wait` ends as its loop does. -/
theorem wait_ends {tries : Nat} {q : Play} (hi : q.state.Inv) (ht : q.turns.length < tries) :
    ∃ u t q', q.state.sameBlock u ∧ engineTurn u = .next t ∧ t.busy = false ∧
      playActions tries [.wait] q = .ended q' ∧ q'.state = hostRead (at25 0x010) t := by
  obtain ⟨u, t, q', hsame, hu, hb, hend, hq'⟩ := wait_repeats_until_turn hi ht
  exact ⟨u, t, q', hsame, hu, hb, playActions_ended (a := .wait) hend, hq'⟩

/-! ### `run` (R171, R357) -/

/-- A command written to an idle engine with no pending error is accepted. -/
theorem command_accepted {s : State} (i : Instr) (turns : List Bool) (tries : Nat) (hb : s.busy = false)
    (he : s.err = false) : ∃ q, (Action.command i).play tries (.start s turns) = .ended q ∧
      q.state = { accept (encode i) s with response := some (.write .okay) } ∧ q.turns = turns.tail := by
  have hwrite : perform (Action.command i).transaction s =
      .next { accept (encode i) s with response := some (.write .okay) } :=
    congrArg Host.Outcome.next (writes_cmd_accepted ⟨rfl, hb, he⟩ (encode i))
  have htrans := Play.transact_idle (q := .start s turns) hb hwrite
  exact ⟨_, Action.play_once rfl htrans tries, rfl, rfl⟩

theorem run_ends {s : State} (i : Instr) (turns : List Bool) (tries : Nat) (hi : s.Inv) (hb : s.busy = false)
    (he : s.err = false) (ht : turns.length < tries) :
    ∃ u t q, (accept (encode i) s).sameBlock u ∧ exec i u = .next t ∧
      (Stmt.run i).play tries (.start s turns) = .ended q ∧ q.state = hostRead (at25 0x010) t := by
  obtain ⟨q, hplay, hstate, hturns⟩ := command_accepted i turns tries hb he
  have hinv : q.state.Inv := hstate ▸ (accept_inv hi he (encode i)).frame rfl id id
  have hlen : q.turns.length < tries := by
    rw [hturns, List.length_tail]
    omega
  obtain ⟨u, t, q', hsame, hu, -, hend, hq'⟩ := wait_ends hinv hlen
  have hblock : (accept (encode i) s).sameBlock u := by
    rw [hstate] at hsame
    exact hsame
  have hcmd : engineTurn u = exec i u := by
    refine engineTurn_of_command ?_ ?_
    · rw [hblock]; rfl
    · rw [hblock]; exact decodeCmd_encode i
  exact ⟨u, t, q', hblock, hcmd ▸ hu, (playActions_ended hplay).trans hend, hq'⟩

/-! ### The words that bytes cover (R171) -/

theorem mem_coveredWords {a n k : Nat} : k ∈ coveredWords a n ↔ ∃ x, x / 4 = k ∧ a ≤ x ∧ x < a + n := by
  unfold coveredWords
  split
  · simp only [List.not_mem_nil, false_iff]
    omega
  · simp only [List.mem_map, List.mem_range]
    constructor
    · rintro ⟨j, hj, rfl⟩
      exact ⟨max a (4 * (a / 4 + j)), by omega, by omega, by omega⟩
    · rintro ⟨x, rfl, ha, hx⟩
      exact ⟨x / 4 - a / 4, by omega, by omega⟩

/-- Bytes that fit `BUF` cover words of `BUF` only. -/
theorem coveredWords_lt {a n k m : Nat} (hk : k ∈ coveredWords a n) (hfit : a + n ≤ m) : 4 * k < m := by
  obtain ⟨x, rfl, -, hx⟩ := mem_coveredWords.mp hk
  omega

/-- A covered word has a strobe. -/
theorem coveredStrobes_ne_zero {a n k : Nat} (hk : k ∈ coveredWords a n) : coveredStrobes a n k ≠ 0b0000#4 := by
  obtain ⟨x, rfl, ha, hx⟩ := mem_coveredWords.mp hk
  intro h0
  have hlane := getLsbD_coveredStrobes a n (x / 4) (x % 4) (by omega)
  rw [h0, show 4 * (x / 4) + x % 4 = x by omega, decide_eq_true ⟨ha, hx⟩, BitVec.getLsbD_zero] at hlane
  cases hlane

/-! ### `wrbuf` (R101, R171) -/

/-- The write of one word of `wrbuf`. -/
def wordWrite (a : Nat) (bytes : List Byte) (k : Nat) : Action :=
  .wrStrb (.buf (4 * k)) (coveredData a bytes k) (coveredStrobes a bytes.length k)

/-- One word of `wrbuf` stores the given bytes that lie in it. -/
theorem read_writeLanes_covered {m : Memory} (hwf : m.wf = true) (a : Nat) (bytes : List Byte) (k x : Nat) :
    (writeLanes m k (coveredData a bytes k) (coveredStrobes a bytes.length k)).read x =
      if x / 4 = k ∧ a ≤ x ∧ x < a + bytes.length then bytes.getD (x - a) 0 else m.read x := by
  by_cases hk : x / 4 = k
  · obtain ⟨j, hj, rfl⟩ : ∃ j < 4, x = 4 * k + j := ⟨x - 4 * k, by omega, by omega⟩
    rw [read_writeLanes_lane k _ _ hwf hj, getLsbD_coveredStrobes _ _ _ _ hj, laneByte_coveredData _ _ _ _ hj]
    simp only [hk, true_and, decide_eq_true_eq]
    split <;> rfl
  · rw [if_neg fun h => hk h.1]
    exact writeLanes_sameOutside k _ _ hwf x (by omega)

/-- An idle engine stores a covered word, and sets no OVR since the word has a strobe. -/
theorem perform_wordWrite {s : State} {a k : Nat} {bytes : List Byte} (hi : s.Inv) (hb : s.busy = false)
    (hk : k ∈ coveredWords a bytes.length) (hfit : a + bytes.length ≤ s.bufBytes) :
    perform (wordWrite a bytes k).transaction s = .next { s with
      buf := writeLanes s.buf k (coveredData a bytes k) (coveredStrobes a bytes.length k)
      response := some (.write .okay) } := by
  have hwrite := writes_buf s hi.bufBytes_le (coveredWords_lt hk hfit) (coveredData a bytes k)
    (coveredStrobes a bytes.length k)
  rw [writeBuf_idle hb, decide_eq_false (coveredStrobes_ne_zero hk), Bool.or_false] at hwrite
  exact congrArg Host.Outcome.next hwrite

/-- The words of `wrbuf`, one after the other, store the given bytes that lie in them. -/
theorem wordWrites_end {a : Nat} {bytes : List Byte} (tries : Nat) {ks : List Nat} {q : Play} (hi : q.state.Inv)
    (hb : q.state.busy = false) (hks : ∀ k ∈ ks, k ∈ coveredWords a bytes.length)
    (hfit : a + bytes.length ≤ q.state.bufBytes) :
    ∃ q', playActions tries (ks.map (wordWrite a bytes)) q = .ended q' ∧
      q'.state = { q.state with buf := q'.state.buf, response := q'.state.response } ∧
      ∀ x, q'.state.buf.read x =
        if x / 4 ∈ ks ∧ a ≤ x ∧ x < a + bytes.length then bytes.getD (x - a) 0 else q.state.buf.read x := by
  induction ks generalizing q with
  | nil => exact ⟨q, rfl, rfl, by simp⟩
  | cons k ks ih =>
    have hk := hks k (by simp)
    have hperform := perform_wordWrite hi hb hk hfit
    have hplay := Action.play_once (a := wordWrite a bytes k) rfl (Play.transact_idle hb hperform) tries
    obtain ⟨q', hend, hstate, hread⟩ := ih (q := q.advance (wordWrite a bytes k).transaction _)
      (perform_inv hi hperform) hb (fun j hj => hks j (List.mem_cons_of_mem _ hj)) hfit
    refine ⟨q', (playActions_ended hplay).trans hend, hstate, fun x => (hread x).trans ?_⟩
    rw [Play.advance_state, read_writeLanes_covered hi.buf_wf]
    simp only [List.mem_cons]
    split_ifs <;> tauto

theorem wrbuf_ends {s : State} {a : Nat} {bytes : List Byte} (turns : List Bool) (tries : Nat) (hi : s.Inv)
    (hb : s.busy = false) (hfit : a + bytes.length ≤ s.bufBytes) :
    ∃ q, (Stmt.wrbuf a bytes).play tries (.start s turns) = .ended q ∧ bufHolds q.state.buf a bytes ∧
      bufSameOutside s.buf q.state.buf a bytes.length ∧
      q.state = { s with buf := q.state.buf, response := q.state.response } := by
  obtain ⟨q, hend, hstate, hread⟩ := wordWrites_end (q := .start s turns) tries hi hb (fun _ hk => hk) hfit
  refine ⟨q, hend, fun k hk => ?_, fun x hx => ?_, hstate⟩
  · rw [hread, if_pos ⟨mem_coveredWords.mpr ⟨a + k, rfl, by omega, by omega⟩, by omega, by omega⟩,
      Nat.add_sub_cancel_left]
    exact List.getD_eq_getElem _ _ hk
  · rw [hread, if_neg (by omega)]
    rfl

/-! ### `rdbuf` (R101, R171) -/

/-- The read of one word of `rdbuf`. -/
def wordRead (a : Nat) (bytes : List Byte) (k : Nat) : Action :=
  .rdMask (.buf (4 * k)) (laneMask (coveredStrobes a bytes.length k)) (coveredData a bytes k)

/-- Word k of `BUF` holds the given bytes that lie in it. -/
def wordHolds (m : Memory) (a : Nat) (bytes : List Byte) (k : Nat) : Prop :=
  ∀ x, x / 4 = k → a ≤ x → x < a + bytes.length → m.read x = bytes.getD (x - a) 0

theorem bufHolds_iff_words {m : Memory} {a : Nat} {bytes : List Byte} :
    bufHolds m a bytes ↔ ∀ k ∈ coveredWords a bytes.length, wordHolds m a bytes k := by
  constructor
  · rintro h - - x - ha hx
    have hk : x - a < bytes.length := by omega
    rw [List.getD_eq_getElem _ _ hk, ← h (x - a) hk, Nat.add_sub_cancel' ha]
  · intro h k hk
    have hword := h _ (mem_coveredWords.mpr ⟨a + k, rfl, by omega, by omega⟩) (a + k) rfl (by omega) (by omega)
    rwa [Nat.add_sub_cancel_left, List.getD_eq_getElem _ _ hk] at hword

/-- Words are equal when their byte lanes are. -/
theorem eq_of_laneByte {v w : Word} (h : ∀ j < 4, laneByte v j = laneByte w j) : v = w := by
  refine BitVec.eq_of_getLsbD_eq fun i hi => ?_
  have hlane := congrArg (fun b : Byte => b.getLsbD (i % 8)) (h (i / 8) (by omega))
  simp only [laneByte_getLsbD _ _ _ (show i % 8 < 8 by omega), Nat.div_add_mod] at hlane
  exact hlane

/-- The masked data of a read of `rdbuf`, lane by lane. -/
theorem laneByte_masked (w : Word) (strb : BitVec 4) {j : Nat} (hj : j < 4) :
    laneByte (w &&& laneMask strb) j = if strb.getLsbD j then laneByte w j else 0#8 := by
  have hmerge : mergeLanes 0 w strb = w &&& laneMask strb := by simp [mergeLanes]
  rw [← hmerge, laneByte_mergeLanes _ _ _ _ hj, laneOf]
  simp [laneByte]

/-- The assertion of one word of `rdbuf` (R171). -/
theorem bufWord_masked_iff {m : Memory} {a : Nat} {bytes : List Byte} {k : Nat} :
    bufWord m k &&& laneMask (coveredStrobes a bytes.length k) = coveredData a bytes k ↔ wordHolds m a bytes k := by
  have hlane {j : Nat} (hj : j < 4) :
      laneByte (bufWord m k &&& laneMask (coveredStrobes a bytes.length k)) j =
        if a ≤ 4 * k + j ∧ 4 * k + j < a + bytes.length then m.read (4 * k + j) else 0#8 := by
    simp only [laneByte_masked _ _ hj, getLsbD_coveredStrobes _ _ _ _ hj, laneByte_bufWord _ _ _ hj,
      decide_eq_true_eq]
  constructor
  · rintro h x rfl ha hx
    have hx4 : 4 * (x / 4) + x % 4 = x := by omega
    have hj := hlane (j := x % 4) (by omega)
    rw [h, laneByte_coveredData _ _ _ _ (by omega), hx4, if_pos ⟨ha, hx⟩, if_pos ⟨ha, hx⟩] at hj
    exact hj.symm
  · refine fun h => eq_of_laneByte fun j hj => ?_
    rw [hlane hj, laneByte_coveredData _ _ _ _ hj]
    split
    · rename_i hc
      exact h _ (by omega) hc.1 hc.2
    · rfl

/-- A read of a word of `BUF` by an idle engine is accepted exactly if the word holds the given bytes. -/
theorem wordRead_meets {q : Play} {s : State} {a k : Nat} {bytes : List Byte} (hi : s.Inv) (hb : s.busy = false)
    (hk : 4 * k < s.bufBytes) (hq : q.state = hostRead (at25 (0x1000000 + 4 * k)) s) :
    q.meets (wordRead a bytes k) = true ↔ wordHolds s.buf a bytes k := by
  have hread : q.state.response = some (.read .okay (bufWord s.buf k)) := by
    have hbuf := reads_buf s hi.bufBytes_le hk
    rw [readTarget, hidden_of_idle hb] at hbuf
    exact hq ▸ hbuf
  rw [← bufWord_masked_iff]
  simp [Play.meets, hread, wordRead, Action.accepts]

/-- The words of `rdbuf` are read up to the first that does not hold the given bytes. -/
theorem wordReads_end {a : Nat} {bytes : List Byte} (tries : Nat) {ks : List Nat} {q : Play} (hi : q.state.Inv)
    (hb : q.state.busy = false) (hks : ∀ k ∈ ks, 4 * k < q.state.bufBytes) :
    ∃ q', q.state.sameBlock q'.state ∧
      ((∀ k ∈ ks, wordHolds q.state.buf a bytes k) →
        playActions tries (ks.map (wordRead a bytes)) q = .ended q') ∧
      (¬ (∀ k ∈ ks, wordHolds q.state.buf a bytes k) →
        playActions tries (ks.map (wordRead a bytes)) q = .wrong q') := by
  induction ks generalizing q with
  | nil => exact ⟨q, .refl _, fun _ => rfl, fun h => absurd (by simp) h⟩
  | cons k ks ih =>
    have hperform : perform (wordRead a bytes k).transaction q.state =
      .next (hostRead (at25 (0x1000000 + 4 * k)) q.state) := rfl
    have hplay := Action.play_once (a := wordRead a bytes k) rfl (Play.transact_idle hb hperform) tries
    have hmeets := wordRead_meets (a := a) (bytes := bytes) hi hb (hks k (by simp))
      (q.advance_state (wordRead a bytes k).transaction _)
    by_cases hk : wordHolds q.state.buf a bytes k
    · rw [if_pos (hmeets.mpr hk)] at hplay
      obtain ⟨q', hsame, hended, hwrong⟩ := ih (q := q.advance (wordRead a bytes k).transaction _)
        (hostRead_inv hi _) hb fun j hj => hks j (List.mem_cons_of_mem _ hj)
      refine ⟨q', (hostRead_sameBlock _ _).trans hsame, fun h => (playActions_ended hplay).trans (hended ?_),
        fun h => (playActions_ended hplay).trans (hwrong fun hall => h ?_)⟩
      · exact fun j hj => h j (List.mem_cons_of_mem _ hj)
      · exact List.forall_mem_cons.mpr ⟨hk, hall⟩
    · rw [if_neg (mt hmeets.mp hk)] at hplay
      exact ⟨_, hostRead_sameBlock _ _, fun h => absurd (h k (by simp)) hk, fun _ => playActions_wrong hplay⟩

theorem rdbuf_asserts {s : State} {a : Nat} {bytes : List Byte} (turns : List Bool) (tries : Nat) (hi : s.Inv)
    (hb : s.busy = false) (hfit : a + bytes.length ≤ s.bufBytes) :
    (bufHolds s.buf a bytes →
      ∃ q, (Stmt.rdbuf a bytes).play tries (.start s turns) = .ended q ∧ s.sameBlock q.state) ∧
    (¬ bufHolds s.buf a bytes →
      ∃ q, (Stmt.rdbuf a bytes).play tries (.start s turns) = .wrong q ∧ s.sameBlock q.state) := by
  obtain ⟨q, hsame, hended, hwrong⟩ := wordReads_end (a := a) (bytes := bytes) (q := .start s turns) tries hi hb
    fun _ hk => coveredWords_lt hk hfit
  rw [bufHolds_iff_words]
  exact ⟨fun h => ⟨q, hended h, hsame⟩, fun h => ⟨q, hwrong h, hsame⟩⟩

/-! ### A script is a run of the machine -/

/-- Settles O60, statement by statement; what a play has done is a list of inputs that leads to its state. -/
theorem scriptStatementsDoWhatTheyExpandTo : Obligations.ScriptStatementsDoWhatTheyExpandTo := by
  refine ⟨fun s a bytes turns tries hi hb hfit =>
      ⟨wrbuf_ends turns tries hi hb hfit, rdbuf_asserts turns tries hi hb hfit⟩,
    poll_ends_with_first,
    fun s turns tries hi ht => wait_ends (q := .start s turns) hi ht,
    fun s i turns tries hi hb he ht => run_ends i turns tries hi hb he ht,
    fun s script turns tries q rest h => ?_⟩
  have hreached := playActions_reachedFrom tries (script.flatMap Stmt.expand) (Play.start_reachedFrom s turns)
  rw [show playActions tries (script.flatMap Stmt.expand) (.start s turns) = .ended q from h] at hreached
  exact run_performAll q.done rest hreached

end Sys2Proof.Machine

/-! PROOFS. The statements of the family other on the codec: the header as an encoding (R313, R322), and ENCODE and
DECODE as sequences of other commands (R310, R331). -/

namespace Sys2Proof.Machine

/-! ### Parsing and serializing (R313, R322) -/

/-- Settles O45: `parseHeader_serializeHeader` in one direction, `parseHeader_ok` in the other; the payload is what
stands after the header. -/
theorem parsingInvertsSerializing : Obligations.ParsingInvertsSerializing := by
  refine ⟨fun F p payload hsum hp hempty => parseHeader_serializeHeader F p payload hsum hp hempty,
    fun stream hd h => ?_⟩
  obtain ⟨htotal, hlt, hcount, hpad, hlength, hle, hempty, htake⟩ := parseHeader_ok h
  refine ⟨stream.drop hd.length, ?_, hlength, htotal, hlt, hcount, hpad, fun hnil => hempty ?_⟩
  · rw [← htake, List.take_append_drop]
  · exact Nat.le_antisymm (List.drop_eq_nil_iff.mp hnil) hle

/-! ### DECODE as PARSE, BUILD and UNPACK (R331) -/

/-- The state in which UNPACK starts: DECODE's, idle, with the source range moved past the header. -/
def behindHeader (hd : Header) (s : State) : State :=
  { treeLoaded hd s with
    srcBase := BitVec.ofNat 32 (s.srcBase.toNat + hd.length)
    srcLen := BitVec.ofNat 32 (s.srcLen.toNat - hd.length)
    busy := false, done := true }

theorem behindHeader_eq (hd : Header) (s : State) : behindHeader hd s = { s with
    freq := hd.freq, total := BitVec.ofNat 64 hd.total, nsym := BitVec.ofNat 9 hd.count
    padding := BitVec.ofNat 3 hd.padding, hdrLen := BitVec.ofNat 32 hd.length
    node := fillPool s.draws (buildTree hd.freq).nodes, root := (buildTree hd.freq).root
    nodes := BitVec.ofNat 10 (buildTree hd.freq).nodes.length
    freqValid := true, treeValid := true, codesValid := false, draws := s.draws + 1
    srcBase := BitVec.ofNat 32 (s.srcBase.toNat + hd.length)
    srcLen := BitVec.ofNat 32 (s.srcLen.toNat - hd.length)
    busy := false, done := true } := by
  simp only [behindHeader, treeLoaded_eq]

/-- It is what PARSE and BUILD leave, but for the move. -/
theorem built_parsed (hd : Header) (s : State) : built (parsed hd s) =
    { behindHeader hd s with srcBase := s.srcBase, srcLen := s.srcLen } := by
  simp only [behindHeader_eq, built, parsed, succeeded, installTree, installHeader, installTable]

theorem drop_readBytes (m : Memory) (base len k : Nat) :
    (m.readBytes base len).drop k = m.readBytes (base + k) (len - k) := by
  refine List.ext_getElem (by simp) fun i hi hi' => ?_
  rw [List.getElem_drop, Memory.getElem_readBytes, Memory.getElem_readBytes, Nat.add_assoc]

section Behind

variable {s : State} {hd : Header} (hi : s.Inv) (hr : s.rangesOk) (h : parseHeader s.srcBytes = .ok hd)
include hi hr h

/-- The payload is the rest of the source range. -/
theorem behindHeader_source : hd.length ≤ s.srcLen.toNat ∧
    (behindHeader hd s).srcBase.toNat = s.srcBase.toNat + hd.length ∧
    (behindHeader hd s).srcLen.toNat = s.srcLen.toNat - hd.length := by
  obtain ⟨hsrc, -⟩ := hr
  obtain ⟨-, -, -, -, -, hle, -⟩ := parseHeader_ok h
  have hbuf := hi.bufBytes_le
  rw [length_srcBytes] at hle
  unfold State.srcOk at hsrc
  simp only [behindHeader_eq, BitVec.toNat_ofNat]
  exact ⟨hle, Nat.mod_eq_of_lt (by omega), Nat.mod_eq_of_lt (by omega)⟩

theorem behindHeader_srcBytes : (behindHeader hd s).srcBytes = s.srcBytes.drop hd.length := by
  obtain ⟨-, hbase, hlen⟩ := behindHeader_source hi hr h
  rw [State.srcBytes, hbase, hlen, State.srcBytes, drop_readBytes, behindHeader_eq]

theorem behindHeader_rangesOk : (behindHeader hd s).rangesOk := by
  obtain ⟨hle, hbase, hlen⟩ := behindHeader_source hi hr h
  obtain ⟨hsrc, hdst, hapart⟩ := hr
  unfold State.rangesOk State.srcOk State.dstOk State.apart at *
  simp only [hbase, hlen]
  simp only [behindHeader_eq]
  exact ⟨by omega, hdst, fun a ⟨h1, h2, hin⟩ => hapart a ⟨by omega, by omega, hin⟩⟩

/-- An empty payload has no padding (R281). -/
theorem behindHeader_padding : ¬ ((behindHeader hd s).srcLen = 0#32 ∧ (behindHeader hd s).padding ≠ 0#3) := by
  obtain ⟨hle, -, hlen⟩ := behindHeader_source hi hr h
  obtain ⟨-, -, -, -, -, -, hempty, -⟩ := parseHeader_ok h
  rw [length_srcBytes] at hempty
  rintro ⟨h0, hpad⟩
  rw [h0, BitVec.toNat_zero] at hlen
  rw [behindHeader_eq, hempty (by omega)] at hpad
  exact hpad rfl

/-- UNPACK of the payload walks as DECODE does. -/
theorem exec_unpack_behindHeader (hcap : hd.total ≤ s.dstCap.toNat) :
    exec .unpack (behindHeader hd s) = finishWalk (decodeWalk hd s) hd.total (behindHeader hd s) := by
  obtain ⟨htotal, -, hpadding, -⟩ := header_fits_registers h
  have hN : (behindHeader hd s).total.toNat = hd.total := by rw [behindHeader_eq, htotal]
  have hp : (behindHeader hd s).padding.toNat = hd.padding := by rw [behindHeader_eq, hpadding]
  have hchecks : firstFailure (unpackChecks (behindHeader hd s)) = none := by
    refine (unpackChecks_none _).mpr ⟨?_, behindHeader_rangesOk hi hr h, behindHeader_padding hi hr h, ?_⟩
    · rw [behindHeader_eq]
    · rwa [hN, behindHeader_eq]
  rw [exec_unpack_of_passed hchecks, behindHeader_srcBytes hi hr h, hN, hp, decodeWalk, behindHeader_eq]

end Behind

/-- A walk ends from the two states in the same way, but for the source registers, which it does not read. -/
theorem finishWalk_behindHeader {w : Walk} (n : Nat) (hd : Header) (s : State) (hw : ∀ f, w.last ≠ .stuck f) :
    ∃ u, finishWalk w n (behindHeader hd s) = .next u ∧
      finishWalk w n (treeLoaded hd s) = .next { u with srcBase := s.srcBase, srcLen := s.srcLen } := by
  rw [behindHeader_eq, treeLoaded_eq]
  cases hl : w.last with
  | done => exact ⟨_, finishWalk_of_done hl n _, finishWalk_of_done hl n _⟩
  | failed c k => exact ⟨_, finishWalk_of_failed hl n _, finishWalk_of_failed hl n _⟩
  | stuck f => exact absurd hl (hw f)

/-- Settles O50: UNPACK behind the header and DECODE finish one walk. -/
theorem decodeIsParseThenBuildThenUnpack : Obligations.DecodeIsParseThenBuildThenUnpack := by
  intro s s1 hd hi _ hr h hcap hparse
  have hsrc : s.srcOk := hr.1
  obtain rfl : parsed hd s = s1 := Host.Outcome.next.inj ((exec_parse_of_header hsrc h).symm.trans hparse)
  obtain ⟨-, -, -, hlength⟩ := header_fits_registers h
  have hlen : (parsed hd s).hdrLen.toNat = hd.length := hlength
  obtain ⟨hsum, -⟩ := parseHeader_ok h
  obtain ⟨u, hunpack, hdecode⟩ := finishWalk_behindHeader (w := decodeWalk hd s) hd.total hd s fun f =>
    walkDecode_not_stuck (walk_has_root hd.freq hsum) _ _ f
  refine ⟨built (parsed hd s), behindHeader hd s, u, exec_build_with_table rfl, ?_, ?_, ?_⟩
  · rw [hlen, built_parsed, behindHeader_eq]
  · rw [exec_unpack_behindHeader hi hr h hcap, hunpack]
  · rw [exec_decode_of_fits hr h hcap, hdecode]

/-! ### ENCODE as CLEAR, COUNT, BUILD, DERIVE and PACK (R310) -/

/-- The state CLEAR leaves. -/
def cleared (s : State) : State :=
  succeeded { s with
    freq := symTable fun _ => 0#64, total := 0#64, nsym := 0#9
    freqValid := true, treeValid := false, codesValid := false }

theorem exec_count_cleared {s : State} (hs : s.srcOk) : exec .count (cleared s) = .next (counted (cleared s)) := by
  have hlt := s.srcLen.isLt
  have htotal : (cleared s).total.toNat + (cleared s).srcLen.toNat = s.srcLen.toNat := Nat.zero_add _
  exact exec_count_of_passed ((countChecks_none _).mpr ⟨rfl, hs, by omega⟩)

/-- CLEAR and COUNT leave the table of the input. -/
theorem counted_cleared (s : State) : counted (cleared s) = { s with
    freq := s.inputTable, total := BitVec.ofNat 64 s.srcLen.toNat, nsym := BitVec.ofNat 9 (presentCount s.inputTable)
    freqValid := true, treeValid := false, codesValid := false, busy := false, done := true } := by
  have htotal : (cleared s).total.toNat + (cleared s).srcLen.toNat = s.srcLen.toNat := Nat.zero_add _
  rw [counted, htotal]
  rfl

/-- CLEAR, COUNT, BUILD and DERIVE with the codebook c, and the move of the destination past a header of h bytes. -/
def packReady (c : CodeBook) (h : Nat) (s : State) : State :=
  { derived c (built (counted (cleared s))) with
    dstBase := BitVec.ofNat 32 (s.dstBase.toNat + h), dstCap := BitVec.ofNat 32 (s.dstCap.toNat - h) }

theorem packReady_eq (c : CodeBook) (h : Nat) (s : State) : packReady c h s = { s with
    freq := s.inputTable, total := BitVec.ofNat 64 s.srcLen.toNat, nsym := BitVec.ofNat 9 (presentCount s.inputTable)
    node := fillPool s.draws (buildTree s.inputTable).nodes, root := (buildTree s.inputTable).root
    nodes := BitVec.ofNat 10 (buildTree s.inputTable).nodes.length
    codeLen := c.len, codeBits := c.bits, totalBits := BitVec.ofNat 72 (codedBits s.inputTable c.len)
    dstBase := BitVec.ofNat 32 (s.dstBase.toNat + h), dstCap := BitVec.ofNat 32 (s.dstCap.toNat - h)
    freqValid := true, treeValid := true, codesValid := true
    draws := s.draws + 1, busy := false, done := true } := by
  simp only [packReady, derived, built, counted_cleared, succeeded, installTree, installCodes]

theorem packReady_srcBytes (c : CodeBook) (h : Nat) (s : State) : (packReady c h s).srcBytes = s.srcBytes := by
  rw [packReady_eq]
  rfl

theorem packReady_codeBook (c : CodeBook) (h : Nat) (s : State) : (packReady c h s).codeBook = c := by
  rw [packReady_eq]
  rfl

theorem exec_derive_of_codes {s : State} {c : CodeBook} (hv : s.treeValid = true)
    (hc : deriveCodes s.node s.root = some c) : exec .derive s = .next (derived c s) := by
  rw [exec_derive, execDerive, checked_of_none _ _ (by rw [firstFailure_sequenceCheck_cons hv]; rfl), hc]
  rfl

/-- DERIVE finds the codebook that ENCODE derives: both draw the unused slots at the same counter (log entry 7). -/
theorem exec_derive_counted {s : State} {c : CodeBook} (hc : encodeDerives s c) :
    exec .derive (built (counted (cleared s))) = .next (derived c (built (counted (cleared s)))) := by
  refine exec_derive_of_codes rfl ?_
  simp only [built, succeeded, installTree, counted_cleared]
  exact hc

/-- In the codebook of the input every byte of the input has a code. -/
theorem firstAbsent_of_encodeDerives {s : State} {c : CodeBook} (hc : encodeDerives s c) :
    firstAbsent c.len s.srcBytes = none := by
  refine firstAbsent_eq_none_iff.mpr fun x hx h0 => ?_
  obtain ⟨hpos, -⟩ :=
    (codesOf_of_deriveCodes (poolHolds_fillPool s.draws s.inputTable) hc).coded x (symAt_inputTable_ne_zero hx)
  rw [h0] at hpos
  exact absurd hpos (by decide)

section Ready

variable {s : State} {c : CodeBook} {h : Nat} (hi : s.Inv) (hr : s.rangesOk) (hle : h ≤ s.dstCap.toNat)
include hi hr hle

/-- The payload goes to the rest of the destination range. -/
theorem packReady_destination : (packReady c h s).dstBase.toNat = s.dstBase.toNat + h ∧
    (packReady c h s).dstCap.toNat = s.dstCap.toNat - h := by
  obtain ⟨-, hdst, -⟩ := hr
  have hbuf := hi.bufBytes_le
  unfold State.dstOk at hdst
  simp only [packReady_eq, BitVec.toNat_ofNat]
  exact ⟨Nat.mod_eq_of_lt (by omega), Nat.mod_eq_of_lt (by omega)⟩

theorem packReady_rangesOk : (packReady c h s).rangesOk := by
  obtain ⟨hbase, hcap⟩ := packReady_destination (c := c) hi hr hle
  obtain ⟨hsrc, hdst, hapart⟩ := hr
  unfold State.rangesOk State.srcOk State.dstOk State.apart at *
  simp only [hbase, hcap]
  simp only [packReady_eq]
  exact ⟨hsrc, by omega, fun a ⟨h1, h2, h3, h4⟩ => hapart a ⟨h1, h2, by omega, by omega⟩⟩

theorem exec_pack_packReady (hc : encodeDerives s c) (hcap : h + ceil8 (inputBits c.len s.srcBytes) ≤ s.dstCap.toNat) :
    exec .pack (packReady c h s) = .next (packed (packReady c h s)) := by
  obtain ⟨-, hdstCap⟩ := packReady_destination (c := c) hi hr hle
  have hlen : (packReady c h s).codeLen = c.len := by rw [packReady_eq]
  refine exec_pack_of_fits (by rw [packReady_eq]) (packReady_rangesOk hi hr hle) ?_ ?_
  · rw [hlen, packReady_srcBytes, firstAbsent_of_encodeDerives hc]
  · rw [hlen, packReady_srcBytes, hdstCap]
    omega

end Ready

/-- PACK leaves what it finds but for `BUF`, `DST_LEN` and `PADDING`. -/
theorem packed_packReady (c : CodeBook) (h : Nat) (s : State) : packed (packReady c h s) = { packReady c h s with
    buf := s.buf.writeBytes (packReady c h s).dstBase.toNat (packBits c s.srcBytes).bytes
    dstLen := BitVec.ofNat 32 (packBits c s.srcBytes).bytes.length
    padding := BitVec.ofNat 3 (packBits c s.srcBytes).padding } := by
  have hbuf : (packReady c h s).buf = s.buf := by rw [packReady_eq]
  rw [packed, packReady_codeBook, packReady_srcBytes, State.storeDst, hbuf]
  simp only [succeeded, packReady_eq]

/-- Both ways leave the same tables and the same padding. -/
theorem encoded_tables (c : CodeBook) (h : Nat) (s : State) :
    (encoded c s).freq = (packed (packReady c h s)).freq ∧ (encoded c s).total = (packed (packReady c h s)).total ∧
    (encoded c s).nsym = (packed (packReady c h s)).nsym ∧ (encoded c s).node = (packed (packReady c h s)).node ∧
    (encoded c s).root = (packed (packReady c h s)).root ∧ (encoded c s).nodes = (packed (packReady c h s)).nodes ∧
    (encoded c s).codeLen = (packed (packReady c h s)).codeLen ∧
    (encoded c s).codeBits = (packed (packReady c h s)).codeBits ∧
    (encoded c s).totalBits = (packed (packReady c h s)).totalBits ∧
    (encoded c s).padding = (packed (packReady c h s)).padding := by
  rw [encoded_eq, packed_packReady, packReady_eq]
  exact ⟨rfl, rfl, rfl, rfl, rfl, rfl, rfl, rfl, rfl, rfl⟩

/-- Behind its header ENCODE stores the packed input. -/
theorem encoded_payload {s : State} (hi : s.Inv) (c : CodeBook) {k : Nat}
    (hk : k < (packBits c s.srcBytes).bytes.length) :
    (encoded c s).buf.read (s.dstBase.toNat + headerLength (presentCount s.inputTable) + k) =
      (packBits c s.srcBytes).bytes[k] := by
  obtain ⟨hstored, -⟩ := storedTo_storeDst hi (streamOf c s.srcBytes)
  have hheader : (headerOf c s.srcBytes).length = headerLength (presentCount s.inputTable) := rfl
  have hdrop := drop_streamOf c s.srcBytes
  rw [hheader] at hdrop
  have hlen : headerLength (presentCount s.inputTable) + k < (streamOf c s.srcBytes).length := by
    rw [← hdrop, List.length_drop] at hk
    omega
  have hbyte := List.getElem_of_eq hdrop.symm hk
  rw [List.getElem_drop] at hbyte
  rw [encoded_buf, Nat.add_assoc, hstored _ hlen, hbyte]

/-- PACK stores the packed input at its destination. -/
theorem packed_payload {s : State} (hi : s.Inv) (c : CodeBook) (h : Nat) {k : Nat}
    (hk : k < (packBits c s.srcBytes).bytes.length) :
    (packed (packReady c h s)).buf.read ((packReady c h s).dstBase.toNat + k) = (packBits c s.srcBytes).bytes[k] := by
  rw [packed_packReady]
  exact Memory.read_writeBytes_inside _ _ k _ hi.buf_wf hk

/-- Settles O51: ENCODE and the pipeline compute the same tables, and ENCODE's payload is what PACK stores. -/
theorem encodeIsTheStepByStepPipeline : Obligations.EncodeIsTheStepByStepPipeline := by
  intro s t hi he henc hok
  rcases execEncode_next henc with ⟨c, k, -, -, rfl⟩ | ⟨hchecks, c, hc, hcap, rfl⟩
  · cases hok
  have hr := (rangeChecks_none s).mp hchecks
  have hfits : encodedLength c s ≤ s.dstCap.toNat := hcap
  have hdr : (encoded c s).hdrLen.toNat = headerLength (presentCount s.inputTable) := toNat_encoded_hdrLen hfits
  have hlen : (packBits c s.srcBytes).bytes.length = ceil8 (codedBits s.inputTable c.len) := by
    rw [length_packBits, codedBits_inputTable]
  rw [hdr]
  generalize hh : headerLength (presentCount s.inputTable) = h at hcap
  have hle : h ≤ s.dstCap.toNat := (Nat.le_add_right ..).trans hcap
  have hpack := exec_pack_packReady hi hr hle hc (by rwa [← codedBits_inputTable])
  have hdstLen : (packed (packReady c h s)).dstLen.toNat = (packBits c s.srcBytes).bytes.length := by
    rw [packed_packReady]
    exact toNat_ofNat_of_le (w := s.dstCap) (by omega)
  obtain ⟨hfreq, htotal, hnsym, hnode, hroot, hnodes, hcodeLen, hcodeBits, hbits, hpad⟩ := encoded_tables c h s
  obtain ⟨hbase, -⟩ := packReady_destination (c := c) hi hr hle
  refine ⟨_, _, _, _, packed (packReady c h s), execClear_eq s, exec_count_cleared hr.1, exec_build_with_table rfl,
    exec_derive_counted hc, hpack, hfreq, htotal, hnsym, hnode, hroot, hnodes, hcodeLen, hcodeBits, hbits, hpad, ?_,
    ?_, ?_, ?_, ?_, fun k hk => ?_⟩
  · rw [toNat_encoded_dstLen hfits, encodedLength, hdstLen, hlen, hh]
  · rw [encoded_eq, packed_packReady, packReady_eq]
  · rw [encoded_eq, packed_packReady, packReady_eq]
  · rw [encoded_eq, packed_packReady, packReady_eq]
  · rw [packed_packReady, packReady_eq]
    exact he
  · rw [hdstLen] at hk
    rw [← hh, encoded_payload hi c hk, hh, ← hbase, packed_payload hi c h hk]

end Sys2Proof.Machine

/-! PROOFS. The statements on code lengths and on the walk: O39 and O43. -/

namespace Sys2Proof.Machine

/-! ### The lengths of the codes (R250, R253, R254) -/

/-- The only path of one branch to a leaf under the root of a single symbol is the left one. -/
theorem CodesOf.codeOf_of_one {F : SymTable (BitVec 64)} {pool : Vector Node 511} {c : CodeBook} (hc : CodesOf F pool c)
    (hp : poolHolds pool (buildTree F)) (h1 : presentCount F = 1) {x : Byte} (hx : symAt F x ≠ 0#64) :
    codeOf c x = [false] := by
  obtain ⟨y, -, hroot, hnodes⟩ := buildTree_of_one h1
  have hnd := nodeAt_of_lt hp (i := 1#9) (by simp [hnodes])
  simp only [hnodes] at hnd
  obtain ⟨hlow, hhigh, -⟩ := hc.coded x hx
  rw [hnodes, h1, ← length_codeOf] at hhigh
  rw [← length_codeOf] at hlow
  obtain ⟨b, hb⟩ := List.length_eq_one_iff.mp (hhigh.antisymm hlow)
  obtain ⟨i, hpath, hi⟩ := hc.path x hx
  rw [hb, hroot, followBits_branch hnd rfl] at hpath
  cases b with
  | false => exact hb
  | true =>
    obtain rfl := Option.some.inj hpath
    exact absurd rfl (ne_noNode_of_nodeAt hi)

/-- Settles O39, from the codebook that the derivation reads off the tree. -/
theorem codeLengthsStayWithinTheirFields : Obligations.CodeLengthsStayWithinTheirFields := by
  intro F pool hp
  obtain ⟨c, hd, hc⟩ := deriveCodes_buildTree F pool hp
  refine ⟨c, hd, hc.absent, fun x hx => ?_⟩
  obtain ⟨hlow, hhigh, hbits⟩ := hc.coded x hx
  refine ⟨hlow, hbits, fun h1 => hc.codeOf_of_one hp h1 hx, fun h2 => ?_⟩
  rw [length_buildTree_of_two_le h2] at hhigh
  omega

/-! ### One step of the walk (R282) -/

section Walk

variable {pool : Vector Node 511} {root : NodeIndex} {n : Nat}

section Branch

variable {nd : Node} {b : Bool} {bs : List Bool} {pos e : Nat} {cur : Option NodeIndex} {out : List Byte}
  (he : e < n) (hnd : nodeAt pool (cur.getD root) = some nd)
include he hnd

/-- A branch to a leaf emits its symbol. -/
theorem walkFrom_leaf {child : Node} (hc : nodeAt pool (nd.child b) = some child) (hk : child.kind = 0#1) :
    walkFrom pool root n (b :: bs) pos e cur out =
      walkFrom pool root n bs (pos + 1) (e + 1) none (child.sym :: out) := by
  unfold Node.child at hc
  simp [walkFrom, he, hnd, hc, hk]

/-- A branch to an internal node goes on inside the code. -/
theorem walkFrom_inner {child : Node} (hc : nodeAt pool (nd.child b) = some child) (hk : child.kind = 1#1) :
    walkFrom pool root n (b :: bs) pos e cur out =
      walkFrom pool root n bs (pos + 1) e (some (nd.child b)) out := by
  unfold Node.child at *
  simp [walkFrom, he, hnd, hc, hk]

/-- A branch to a missing child ends the walk. -/
theorem walkFrom_missing (hc : nodeAt pool (nd.child b) = none) :
    walkFrom pool root n (b :: bs) pos e cur out = ⟨out.reverse, .failed .fmtBadcode pos⟩ := by
  unfold Node.child at hc
  simp [walkFrom, he, hnd, hc]

end Branch

/-! ### Where the walk ends (R282, R283) -/

theorem nodeAt_eq_none {i : NodeIndex} (h : nodeAt pool i = none) : i = Config.noNode := by
  by_contra hne
  have hsome := (nodeAt_isSome pool i).mpr hne
  simp [h] at hsome

/-- One more path to a leaf behind the others. -/
theorem Emits.concat {done l : List Bool} {syms : List Byte} {i : NodeIndex} {nd : Node}
    (h : Emits pool root done syms) (hne : l ≠ []) (hl : followBits pool root l = some i)
    (hi : nodeAt pool i = some nd) (hk : nd.kind = 0#1) : Emits pool root (done ++ l) (syms ++ [nd.sym]) := by
  induction h with
  | none => simpa using Emits.more l [] i nd [] hne hl hi hk .none
  | more l' rest j nd' syms hne' hl' hj hk' _ ih =>
    rw [List.append_assoc]
    exact .more l' _ j nd' _ hne' hl' hj hk' ih

/-- The ends of a walk over the bits, as R282 and R283 tell them apart. -/
def endsAs (pool : Vector Node 511) (root : NodeIndex) (n : Nat) (bits : List Bool) (w : Walk) : Prop :=
  (w.last = .done ∧ w.out.length = n ∧ Emits pool root bits w.out) ∨
  (∃ k, w.last = .failed .fmtTrailing k ∧ w.out.length = n ∧ k < bits.length ∧ Emits pool root (bits.take k) w.out) ∨
  (w.last = .failed .fmtCount w.out.length ∧ w.out.length < n ∧ Emits pool root bits w.out) ∨
  (w.last = .failed .fmtExhausted bits.length ∧ w.out.length < n ∧
    ∃ done tail i, bits = done ++ tail ∧ tail ≠ [] ∧ Emits pool root done w.out ∧ insideCode pool root tail i) ∨
  (∃ k, w.last = .failed .fmtBadcode k ∧ w.out.length < n ∧ ∃ done tail b rest i nd,
    bits = done ++ tail ++ b :: rest ∧ k = (done ++ tail).length ∧ Emits pool root done w.out ∧
    followBits pool root tail = some i ∧ nodeAt pool i = some nd ∧ nd.kind = 1#1 ∧ nd.child b = Config.noNode)

/-- A point of the walk: the bits `done` are the paths of the symbols emitted, and the bits `tail` behind them lead to
the internal node `cur`; between codes there are none. -/
structure WalkPoint (pool : Vector Node 511) (root : NodeIndex) (n : Nat) (done tail : List Bool)
    (cur : Option NodeIndex) (out : List Byte) : Prop where
  emits   : Emits pool root done out.reverse
  path    : followBits pool root tail = some (cur.getD root)
  between : cur = none → tail = [] ∧ out.length ≤ n
  inside  : ∀ i, cur = some i → tail ≠ [] ∧ out.length < n ∧ ∃ nd, nodeAt pool i = some nd ∧ nd.kind = 1#1

section Point

variable {done tail : List Bool} {cur : Option NodeIndex} {out : List Byte} {b : Bool} {nd child : Node}
  (h : WalkPoint pool root n done tail cur out)
include h

theorem WalkPoint.length_le : out.length ≤ n := by
  cases cur with
  | none => exact (h.between rfl).2
  | some i => exact (h.inside i rfl).2.1.le

/-- While symbols are missing the walk stands at an internal node. -/
theorem WalkPoint.internal (hkind : ∀ nd, nodeAt pool root = some nd → nd.kind = 1#1)
    (hroot : root ≠ Config.noNode ∨ n = 0) (he : out.length < n) :
    ∃ nd, nodeAt pool (cur.getD root) = some nd ∧ nd.kind = 1#1 := by
  cases cur with
  | none =>
    have hne := hroot.resolve_right (by omega)
    obtain ⟨nd, hnd⟩ := Option.isSome_iff_exists.mp ((nodeAt_isSome pool root).mpr hne)
    exact ⟨nd, hnd, hkind nd hnd⟩
  | some i => exact (h.inside i rfl).2.2

/-- A branch extends the path. -/
theorem WalkPoint.follow (hnd : nodeAt pool (cur.getD root) = some nd) (hk : nd.kind = 1#1) (b : Bool) :
    followBits pool root (tail ++ [b]) = some (nd.child b) :=
  followBits_concat.mpr ⟨_, nd, h.path, hnd, hk, rfl⟩

theorem WalkPoint.leaf (he : out.length < n) (hnd : nodeAt pool (cur.getD root) = some nd) (hk : nd.kind = 1#1)
    (hc : nodeAt pool (nd.child b) = some child) (hleaf : child.kind = 0#1) :
    WalkPoint pool root n (done ++ (tail ++ [b])) [] none (child.sym :: out) where
  emits := by
    rw [List.reverse_cons]
    exact h.emits.concat (by simp) (h.follow hnd hk b) hc hleaf
  path := rfl
  between _ := ⟨rfl, he⟩
  inside _ hi := nomatch hi

theorem WalkPoint.inner (he : out.length < n) (hnd : nodeAt pool (cur.getD root) = some nd) (hk : nd.kind = 1#1)
    (hc : nodeAt pool (nd.child b) = some child) (hinner : child.kind = 1#1) :
    WalkPoint pool root n done (tail ++ [b]) (some (nd.child b)) out where
  emits := h.emits
  path := h.follow hnd hk b
  between hi := nomatch hi
  inside i hi := by
    obtain rfl := Option.some.inj hi
    exact ⟨by simp, he, child, hc, hinner⟩

/-- At the end of the bits the walk is done, short of symbols, or inside a code. -/
theorem WalkPoint.endsAs_nil : endsAs pool root n (done ++ tail)
    (walkFrom pool root n [] (done ++ tail).length out.length cur out) := by
  cases cur with
  | some i =>
    obtain ⟨hne, he, hnode⟩ := h.inside i rfl
    exact .inr (.inr (.inr (.inl ⟨rfl, by simp [walkFrom, he], done, tail, i, rfl, hne, h.emits, h.path, hnode⟩)))
  | none =>
    obtain ⟨rfl, hle⟩ := h.between rfl
    rw [List.append_nil]
    by_cases he : out.length < n
    · exact .inr (.inr (.inl ⟨by simp [walkFrom, he], by simp [walkFrom, he],
        by simpa [walkFrom, he] using h.emits⟩))
    · exact .inl ⟨by simp [walkFrom, he], by simpa [walkFrom, he] using hle.antisymm (Nat.not_lt.mp he),
        by simpa [walkFrom, he] using h.emits⟩

end Point

/-- By induction on the bits left: a branch ends the walk or leads to the next point. -/
theorem WalkPoint.endsAs (hkind : ∀ nd, nodeAt pool root = some nd → nd.kind = 1#1)
    (hroot : root ≠ Config.noNode ∨ n = 0) {done tail : List Bool} {cur : Option NodeIndex} {out : List Byte}
    (h : WalkPoint pool root n done tail cur out) (rest : List Bool) : endsAs pool root n (done ++ tail ++ rest)
      (walkFrom pool root n rest (done ++ tail).length out.length cur out) := by
  induction rest generalizing done tail cur out with
  | nil =>
    rw [List.append_nil]
    exact h.endsAs_nil
  | cons b rest ih =>
    by_cases he : out.length < n
    · obtain ⟨nd, hnd, hk⟩ := h.internal hkind hroot he
      cases hc : nodeAt pool (nd.child b) with
      | none =>
        rw [walkFrom_missing he hnd hc]
        exact .inr (.inr (.inr (.inr ⟨_, rfl, by simpa using he, done, tail, b, rest, _, nd, rfl, rfl, h.emits, h.path,
          hnd, hk, nodeAt_eq_none hc⟩)))
      | some child =>
        by_cases hleaf : child.kind = 0#1
        · rw [walkFrom_leaf he hnd hc hleaf]
          simpa [Nat.add_assoc] using ih (h.leaf he hnd hk hc hleaf)
        · have hinner := Node.kind_eq_one hleaf
          rw [walkFrom_inner he hnd hc hinner]
          simpa [Nat.add_assoc] using ih (h.inner he hnd hk hc hinner)
    · have hfull : out.length = n := h.length_le.antisymm (Nat.not_lt.mp he)
      cases cur with
      | some i => exact absurd (h.inside i rfl).2.1 he
      | none =>
        obtain ⟨rfl, -⟩ := h.between rfl
        refine .inr (.inl ⟨done.length, ?_, ?_, ?_, ?_⟩)
        · simp [walkFrom, he]
        · simpa [walkFrom, he] using hfull
        · simp
        · simpa [walkFrom, he] using h.emits

/-! ### Paths to leaves are read in one way (R282) -/

theorem followBits_cons {i j : NodeIndex} {b : Bool} {l : List Bool} : followBits pool i (b :: l) = some j ↔
    ∃ nd, nodeAt pool i = some nd ∧ nd.kind = 1#1 ∧ followBits pool (nd.child b) l = some j := by
  constructor
  · intro h
    rw [← List.singleton_append, followBits_append, Option.bind_eq_some_iff] at h
    obtain ⟨k, hb, hl⟩ := h
    obtain ⟨_, nd, hi, hnd, hk, rfl⟩ := (followBits_concat (l := [])).mp hb
    obtain rfl := Option.some.inj hi
    exact ⟨nd, hnd, hk, hl⟩
  · rintro ⟨nd, hnd, hk, hl⟩
    rw [← List.singleton_append, followBits_append, followBits_branch hnd hk]
    exact hl

/-- A path to a leaf, from a point of the walk on, emits the leaf's symbol. -/
theorem walkFrom_path {i : NodeIndex} {nd : Node} (hi : nodeAt pool i = some nd) (hk : nd.kind = 0#1) {l : List Bool}
    (hne : l ≠ []) {e : Nat} (he : e < n) {cur : Option NodeIndex} (hl : followBits pool (cur.getD root) l = some i)
    (rest : List Bool) (pos : Nat) (out : List Byte) : walkFrom pool root n (l ++ rest) pos e cur out =
      walkFrom pool root n rest (pos + l.length) (e + 1) none (nd.sym :: out) := by
  induction l generalizing pos cur with
  | nil => exact absurd rfl hne
  | cons b l ih =>
    obtain ⟨p, hp, -, hl⟩ := followBits_cons.mp hl
    cases l with
    | nil =>
      obtain rfl := Option.some.inj hl
      exact walkFrom_leaf he hp hi hk
    | cons b' l =>
      obtain ⟨child, hchild, hinner, -⟩ := followBits_cons.mp hl
      rw [List.cons_append, walkFrom_inner he hp hchild hinner, ih (List.cons_ne_nil b' l) (cur := some (p.child b)) hl]
      simp [Nat.add_assoc, Nat.add_comm 1]

/-- The paths of symbols that are still missing are read, and their symbols emitted. -/
theorem walkFrom_emits {bits : List Bool} {syms : List Byte} (h : Emits pool root bits syms) {e : Nat}
    (he : e + syms.length ≤ n) (rest : List Bool) (pos : Nat) (out : List Byte) :
    walkFrom pool root n (bits ++ rest) pos e none out =
      walkFrom pool root n rest (pos + bits.length) (e + syms.length) none (syms.reverse ++ out) := by
  induction h generalizing e pos out with
  | none => rfl
  | more l bits i nd syms hne hl hi hk _ ih =>
    rw [List.length_cons] at he
    rw [List.append_assoc, walkFrom_path hi hk hne (by omega) (cur := none) hl, ih (by omega)]
    simp [Nat.add_assoc, Nat.add_comm 1]

/-- The paths of the n symbols are a walk that is done. -/
theorem walkFrom_of_emits {bits : List Bool} {syms : List Byte} (h : Emits pool root bits syms) :
    walkFrom pool root syms.length bits 0 0 none [] = ⟨syms, .done⟩ := by
  have hwalk := walkFrom_emits h (Nat.zero_add syms.length).le [] 0 []
  simpa [walkFrom] using hwalk

end Walk

/-- Settles O43, by the points of the walk from its start, where nothing is read. -/
theorem theWalkReadsPathsToLeaves : Obligations.TheWalkReadsPathsToLeaves := by
  intro pool root payload p n hkind hroot
  have hstart : WalkPoint pool root n [] [] none [] :=
    ⟨.none, rfl, fun _ => ⟨rfl, Nat.zero_le n⟩, fun _ hi => nomatch hi⟩
  refine ⟨payloadBits payload p, _, _, rfl, rfl, hstart.endsAs hkind hroot _, fun syms hlen hsyms => ?_⟩
  subst hlen
  rw [walkFrom_of_emits hsyms]
  exact ⟨rfl, rfl⟩

end Sys2Proof.Machine
